-- ==== Sys2Proof/Word.lean ====
section
/-! DEFINITION. The word types of the block and nothing else (spec 00_scope.md R10, R7 `XLEN`, `NGPR`). -/

namespace Sys2Proof

/-- A byte: 8 bits (R10). -/
abbrev Byte := BitVec 8

/-- A `u32`: general registers, `eip`, `eflags`, addresses, every expression value (R7 `XLEN`). -/
abbrev Word := BitVec 32

/-- The eight general-purpose slots, by index (R21). -/
abbrev Regs := Vector Word 8

end Sys2Proof
end

