-- ==== Sys2Proof/Syntax.lean ====
section
/-! DEFINITION. The syntax of everything the block can be asked to do: the records of its ports, tokens, the
`Done` record of `Exec`, and `Instr`, one constructor per row of spec/opcode_table.json (spec 30_encoding.md). -/

namespace Sys2Proof

/-- The backing store as plain data: the bytes that differ from `MEM0`, by rising address
(canonical form: `Memory.wf` in Machine/Memory.lean). -/
abbrev Memory := List Host.Cell

/-- The access widths of the translator, in bytes (20_memory.md R57). -/
inductive Width where
  | one | two | four
  deriving DecidableEq, Repr, Inhabited

/-- The number of bytes an access of this width moves. -/
def Width.bytes : Width → Nat
  | .one => 1
  | .two => 2
  | .four => 4

/-- The three address kinds (20_memory.md R51, 30_encoding.md R87 `kind` 0, 1, 2). -/
inductive AddrKind where
  | program | linear | hostBacking
  deriving DecidableEq, Repr, Inhabited

/-- Token kinds with the codes of 30_encoding.md R72 (0 to 16, in this order). `eoi` is the sentinel `END`,
which is never stored among the tokens of an expression. -/
inductive TokenKind where
  | eoi | num | hex | reg | lparen | rparen | eq | ne | and | or | not | add | sub | mul | div | neg | deref
  deriving DecidableEq, Repr, Inhabited

/-- A token: a kind and a text, the text empty but for `NUM`, `HEX`, `REG` (R72). -/
structure Token where
  kind : TokenKind
  text : List Byte
  deriving DecidableEq, Repr, Inhabited

/-- A host operation's record `{op[7:0], a[31:0], b[31:0], text}` (30_encoding.md R82). -/
structure CmdRecord where
  op : Byte
  a : Word
  b : Word
  text : List Byte
  deriving DecidableEq, Repr, Inhabited

/-- A translator operation's record `{kind[1:0], is_write, width[2:0], addr[31:0], data[31:0]}` (R87). -/
structure XlatRecord where
  kind : BitVec 2
  isWrite : Bool
  width : BitVec 3
  addr : Word
  data : Word
  deriving DecidableEq, Repr, Inhabited

/-- One operator or operand of the evaluator, by the 5-bit token kind code of R72. `a` and `b` are the values of
the operand ranges (a unary operator uses `a`), `text` is the token's text for an operand.
The record's fields beside `kind` are a DESIGN CHOICE (log 20). -/
structure XopRecord where
  kind : BitVec 5
  a : Word
  b : Word
  text : List Byte
  deriving DecidableEq, Repr, Inhabited

/-- What can stand at the port of a unit inside the block: a translator record, an evaluator record, or the text
at the tokenizer's current position (log 7). -/
inductive UnitRequest where
  | xlat (r : XlatRecord)
  | xop (r : XopRecord)
  | text (bytes : List Byte)
  deriving DecidableEq, Repr, Inhabited

/-- What the host does at one moment: it sends a record, or nothing (45_host_commands.md R245; log 6). -/
inductive HostInput where
  | command (r : CmdRecord)
  | quiet
  deriving DecidableEq, Repr, Inhabited

/-- The `Done` record of `Exec` without its state request (41_execution_loop.md R118):
the length and the new registers, instruction pointer, flags and memory. -/
structure Done where
  len : Word
  regs : Regs
  pc : Word
  fl : Word
  mem : Memory
  deriving DecidableEq, Repr

/-- A request of `Exec` to leave `RUNNING` (R119): `STOP` is the breakpoint trap's, `END` the extension point. -/
inductive HaltReq where
  | stop | ended
  deriving DecidableEq, Repr, Inhabited

/-- Every row of spec/opcode_table.json, one constructor each, with its operands. -/
inductive Instr where
  -- host operations (30_encoding.md R83, R85; 45_host_commands.md)
  | cmdContinue
  | cmdStep (n : Word)
  | cmdPrint (text : List Byte)
  | cmdExamine (n addr : Word)
  | cmdWatch (text : List Byte)
  | cmdDelete (id : Word)
  | cmdInfoRegisters
  | cmdInfoWatchpoints
  | cmdQuit
  | cmdRegRead (sel : BitVec 7)
  | cmdRegWrite (sel : BitVec 7) (v : Word)
  | cmdMemRead (addr n : Word)
  | cmdStopReq
  | cmdReset
  | cmdReserved (op : Byte)
  -- token rules (42_expression_tokenizer.md R147 to R161); the operand is the matched run
  | tWs (run : List Byte)
  | tEq
  | tNe
  | tAnd
  | tOr
  | tNot
  | tPlus
  | tMinus
  | tStar
  | tSlash
  | tLparen
  | tRparen
  | tHex (digits : List Byte)
  | tDec (digits : List Byte)
  | tReg (name : List Byte)
  -- operators and operands of the evaluator (43_expression_evaluator.md R173, R174, R181 to R191)
  | xopNot (r : Word)
  | xopNeg (r : Word)
  | xopDeref (r : Word)
  | xopMul (a b : Word)
  | xopDiv (a b : Word)
  | xopAdd (a b : Word)
  | xopSub (a b : Word)
  | xopEq (a b : Word)
  | xopNe (a b : Word)
  | xopAnd (a b : Word)
  | xopOr (a b : Word)
  | operandNum (digits : List Byte)
  | operandHex (digits : List Byte)
  | operandReg (name : List Byte)
  -- translator operations (40_translator_ops.md R100 to R105)
  | memRead (addr : Word) (w : Width)
  | memWrite (addr : Word) (w : Width) (v : Word)
  | linRead (addr : Word) (w : Width)
  | linWrite (addr : Word) (w : Width) (v : Word)
  | hostRead (addr : Word) (w : Width)
  | hostWrite (addr : Word) (w : Width) (v : Word)
  -- classes of emulated instruction (41_execution_loop.md R130, R134, R136)
  | insnOrdinary (d : Done)
  | insnBpTrap (req : HaltReq) (d : Done)
  | insnFaulting
  deriving DecidableEq, Repr

end Sys2Proof
end

