-- ==== Sys2Proof/Config.lean ====
section
/-! DEFINITION. What an implementation fixes: the parameters of spec 00_scope.md R7, each open in the spec (R8) and
so each an opaque constant, and the free values of spec 93_implementation_defined.md U17. -/

namespace Sys2Proof

/-- The instruction table's work on one instruction, as the accesses it makes and how it ends
(41_execution_loop.md R118 to R120). A finite tree: it can touch memory only through the translator (R120 (a)),
it sees of memory only what it read, and it ends `Done` or `Fault`. `Fatal` is not a leaf: it is what an
out-of-bounds access of the tree makes of it (R120 (a)).
DEDUCED from R118 and R120; log 5. -/
inductive ExecProg where
  | fault
  | done (len : Word) (regs : Regs) (pc fl : Word) (req : Option HaltReq)
  | read (kind : AddrKind) (addr : Word) (w : Width) (cont : Word → ExecProg)
  | write (kind : AddrKind) (addr : Word) (w : Width) (v : Word) (cont : ExecProg)
  deriving Inhabited

/-- What the instruction table does in one step: it fetches at the instruction pointer, at a width of its own choice, and
goes on with what it read (40_translator_ops.md R107, 10_state.md R29, 41_execution_loop.md R135).
That this read is its first access is DEDUCED; log 28. -/
structure InsnFetch where
  width : Width
  decode : Word → ExecProg
  deriving Inhabited

/-- The open parameters of a machine, together, so that an operation can be stated (and tried out) for any of them. -/
structure Params where
  /-- `CAPACITY - 1`; as a `u32` it makes `CAPACITY` exactly the range of R7, 1 to 2^32. -/
  capacityLast : Word
  /-- `MEM0`. -/
  mem0 : Nat → Byte
  /-- `RESET_GPR`. -/
  resetGpr : Fin 8 → Word
  /-- `RESET_EFLAGS`. -/
  resetEflags : Word
  /-- `ENTRY`. -/
  entry : Word
  /-- `EXPR_MAX_LEN`, `none` for infinity. -/
  exprMaxLen : Option Nat
  /-- `MAX_TOKENS`, `none` for infinity. -/
  maxTokens : Option Nat
  /-- `Exec`, given the registers, the instruction pointer and the flags. -/
  table : Regs → Word → Word → InsnFetch
  /-- Free values (U17): not a parameter of the spec. -/
  freeWord : Nat → Word

/-- `CAPACITY` (R7, R50). -/
def Params.capacity (P : Params) : Nat := P.capacityLast.toNat + 1

/-- `CAPACITY - 1`; open (D1, U12); log 2. -/
opaque Config.capacityLast : Word
/-- `MEM0`; open (D5, U11); log 3. -/
opaque Config.mem0 : Nat → Byte
/-- `RESET_GPR[0..7]`; open (D5, U11); log 1. -/
opaque Config.resetGpr : Fin 8 → Word
/-- `RESET_EFLAGS`; open (D5, U11); log 1. -/
opaque Config.resetEflags : Word
/-- `ENTRY`; open (D5, U11); log 1. -/
opaque Config.entry : Word
/-- `EXPR_MAX_LEN`; open (D19, U13); log 4. -/
opaque Config.exprMaxLen : Option Nat
/-- `MAX_TOKENS`; open (D19, U13); log 4. -/
opaque Config.maxTokens : Option Nat
/-- `Exec`; open (D9, U9); log 5. -/
opaque Config.table : Regs → Word → Word → InsnFetch
/-- Free values, drawn with a counter of State; log 9. -/
opaque Config.freeWord : Nat → Word

/-- The one machine of the model: every parameter at its open value. -/
def Config.machine : Params where
  capacityLast := Config.capacityLast
  mem0 := Config.mem0
  resetGpr := Config.resetGpr
  resetEflags := Config.resetEflags
  entry := Config.entry
  exprMaxLen := Config.exprMaxLen
  maxTokens := Config.maxTokens
  table := Config.table
  freeWord := Config.freeWord

end Sys2Proof
end

