-- ==== Sys2Proof/Machine/Chars.lean ====
section
/-! DEFINITION. The 7-bit ASCII characters of the expression language and their classes (spec 30_encoding.md R71, R73). -/

namespace Sys2Proof

/-- The byte of an ASCII character (R71). -/
def ascii (c : Char) : Byte := BitVec.ofNat 8 c.toNat

/-- The bytes of a text of 7-bit ASCII characters (R71). -/
def asciiText (text : String) : List Byte := text.toList.map ascii

/-- White space: space `0x20` or tab `0x09`, nothing else (42_expression_tokenizer.md R147). -/
def isBlank (b : Byte) : Bool := b == 0x20 || b == 0x09

/-- `0-9`, bytes `30..39` (R73 `T_DEC`). -/
def isDecDigit (b : Byte) : Bool := decide (0x30 ≤ b) && decide (b ≤ 0x39)

/-- `0-9`, `a-f`, `A-F` (R73 `T_HEX`). -/
def isHexDigit (b : Byte) : Bool :=
  isDecDigit b || (decide (0x61 ≤ b) && decide (b ≤ 0x66)) || (decide (0x41 ≤ b) && decide (b ≤ 0x46))

/-- `a-z`, bytes `61..7A` (R73 `T_REG`). -/
def isLower (b : Byte) : Bool := decide (0x61 ≤ b) && decide (b ≤ 0x7A)

/-- A non-empty run of bytes of one class: what a pattern with `+` matches. -/
def isRunOf (p : Byte → Bool) (bs : List Byte) : Bool := !bs.isEmpty && bs.all p

end Sys2Proof
end

