-- ==== Sys2Proof/Machine/Memory.lean ====
section
/-! DEFINITION. The bytes of the backing store: reading and writing one byte and `n` consecutive bytes of a
`Memory`, and its canonical form (spec 20_memory.md R50, R53). No bounds check here: that is the translator's
(Machine/Ops.lean). -/

namespace Sys2Proof

/-- The byte at address `a`: the listed one, else `MEM0(a)` (R58: what the last write left, or `MEM0` if none). -/
def Memory.get (m0 : Nat → Byte) : Memory → Nat → Byte
  | [], a => m0 a
  | (b, v) :: rest, a => if a = b then v else Memory.get m0 rest a

/-- One byte written, the canonical form kept: a byte equal to `MEM0(a)` is not listed. -/
def Memory.put (m0 : Nat → Byte) (a : Nat) (v : Byte) : Memory → Memory
  | [] => if v = m0 a then [] else [(a, v)]
  | (b, w) :: rest =>
    if a < b then (if v = m0 a then (b, w) :: rest else (a, v) :: (b, w) :: rest)
    else if a = b then (if v = m0 a then rest else (a, v) :: rest)
    else (b, w) :: Memory.put m0 a v rest

/-- Canonical from address `lo` on: addresses strictly rising, all in the store of `cap` bytes, no entry equal to
what an unlisted address reads as. -/
def Memory.wfFrom (m0 : Nat → Byte) (cap : Nat) : Nat → Memory → Bool
  | _, [] => true
  | lo, (a, v) :: rest => decide (lo ≤ a) && decide (a < cap) && decide (v ≠ m0 a) && Memory.wfFrom m0 cap (a + 1) rest

/-- The canonical form of the memory of the machine `P`. -/
def Memory.wf (P : Params) (m : Memory) : Bool := Memory.wfFrom P.mem0 P.capacity 0 m

/-- The little-endian value of the `n` bytes at `a` (R53). -/
def Memory.getLE (m0 : Nat → Byte) (m : Memory) (a : Nat) : Nat → Nat
  | 0 => 0
  | n + 1 => (Memory.get m0 m a).toNat + 256 * Memory.getLE m0 m (a + 1) n

/-- The low `n` bytes of `v` stored at `a`, least significant first (R53, R57). -/
def Memory.putLE (m0 : Nat → Byte) (a : Nat) : Nat → Nat → Memory → Memory
  | 0, _, m => m
  | n + 1, v, m => Memory.putLE m0 (a + 1) n (v / 256) (Memory.put m0 a (BitVec.ofNat 8 v) m)

end Sys2Proof
end

