-- ==== Sys2Proof/WellFormed.lean ====
section
/-! DEFINITION. Which terms of `Instr` are instructions of the block: the runs a token rule can match, the codes
that are reserved, a `Done` record whose memory is a memory of the machine. -/

namespace Sys2Proof

/-- A code that names no operation: `0x00` and `0x0F` to `0xFF` (30_encoding.md R85). -/
def isReservedOp (op : Byte) : Bool := op == 0 || decide (0x0F ≤ op)

/-- Well-formedness on the machine `P`. -/
def Instr.wfFor (P : Params) : Instr → Bool
  | .cmdReserved op => isReservedOp op
  | .tWs run => isRunOf isBlank run
  | .tHex digits => isRunOf isHexDigit digits
  | .tDec digits => isRunOf isDecDigit digits
  | .tReg name => isRunOf isLower name
  | .operandNum digits => isRunOf isDecDigit digits
  | .operandHex digits => isRunOf isHexDigit digits
  | .operandReg name => isRunOf isLower name
  | .insnOrdinary d => Memory.wf P d.mem
  | .insnBpTrap _ d => Memory.wf P d.mem
  | .cmdContinue | .cmdStep _ | .cmdPrint _ | .cmdExamine _ _ | .cmdWatch _ | .cmdDelete _ | .cmdInfoRegisters
  | .cmdInfoWatchpoints | .cmdQuit | .cmdRegRead _ | .cmdRegWrite _ _ | .cmdMemRead _ _ | .cmdStopReq | .cmdReset
  | .tEq | .tNe | .tAnd | .tOr | .tNot | .tPlus | .tMinus | .tStar | .tSlash | .tLparen | .tRparen
  | .xopNot _ | .xopNeg _ | .xopDeref _ | .xopMul _ _ | .xopDiv _ _ | .xopAdd _ _ | .xopSub _ _ | .xopEq _ _
  | .xopNe _ _ | .xopAnd _ _ | .xopOr _ _
  | .memRead _ _ | .memWrite _ _ _ | .linRead _ _ | .linWrite _ _ _ | .hostRead _ _ | .hostWrite _ _ _
  | .insnFaulting => true

/-- Well-formedness on the model's machine. -/
def Instr.wf (i : Instr) : Bool := i.wfFor Config.machine

end Sys2Proof
end

