-- ==== Sys2Proof/Decode.lean ====
section
/-! DEFINITION. Reading the block's encodings (spec 30_encoding.md): the token rules on an expression text, command
records, translator records, evaluator records. After it the encoder, written from the same tables. The emulated
instruction stream has no format in the spec (R88): its decoder is `Exec` (Machine/Loop.lean). -/

namespace Sys2Proof

/-- What can be presented to the block: a host command, or a request at a unit's port. -/
inductive PortWord where
  | command (r : CmdRecord)
  | unit (u : UnitRequest)
  deriving DecidableEq, Repr

/-- Why a request is no operation. -/
inductive Reject where
  /-- Translator `kind` 3 (R87, U15). -/
  | invalidKind
  /-- Translator `width` other than 1, 2, 4 (R87, U15). -/
  | invalidWidth
  /-- A token kind code that is neither an operator nor an operand (R72). -/
  | notAnOperation
  /-- An operand whose text is not the text of such a token (R72, R76 to R78). -/
  | badOperandText
  /-- No token rule matches at this position (42_expression_tokenizer.md R162). -/
  | noTokenRule
  deriving DecidableEq, Repr

/-! ### Token rules (R73), in priority order -/

/-- A pattern of fixed bytes. -/
def matchFixed (pat : List Byte) (i : Instr) (bs : List Byte) : Option (Instr × List Byte) :=
  if pat.isPrefixOf bs then some (i, bs.drop pat.length) else none

/-- A greedy run of one or more bytes of a class. -/
def matchRun (p : Byte → Bool) (mk : List Byte → Instr) (bs : List Byte) : Option (Instr × List Byte) :=
  if (bs.takeWhile p).isEmpty then none else some (mk (bs.takeWhile p), bs.dropWhile p)

/-- `T_WS` (R147): blanks. -/
def matchWs (bs : List Byte) : Option (Instr × List Byte) := matchRun isBlank .tWs bs
/-- `T_EQ` (R148): `3D 3D`. -/
def matchEq (bs : List Byte) : Option (Instr × List Byte) := matchFixed [0x3D, 0x3D] .tEq bs
/-- `T_NE` (R149): `21 3D`. -/
def matchNe (bs : List Byte) : Option (Instr × List Byte) := matchFixed [0x21, 0x3D] .tNe bs
/-- `T_AND` (R150): `26 26`. -/
def matchAnd (bs : List Byte) : Option (Instr × List Byte) := matchFixed [0x26, 0x26] .tAnd bs
/-- `T_OR` (R151): `7C 7C`. -/
def matchOr (bs : List Byte) : Option (Instr × List Byte) := matchFixed [0x7C, 0x7C] .tOr bs
/-- `T_NOT` (R152): `21`. -/
def matchNot (bs : List Byte) : Option (Instr × List Byte) := matchFixed [0x21] .tNot bs
/-- `T_PLUS` (R153): `2B`. -/
def matchPlus (bs : List Byte) : Option (Instr × List Byte) := matchFixed [0x2B] .tPlus bs
/-- `T_MINUS` (R154): `2D`. -/
def matchMinus (bs : List Byte) : Option (Instr × List Byte) := matchFixed [0x2D] .tMinus bs
/-- `T_STAR` (R155): `2A`. -/
def matchStar (bs : List Byte) : Option (Instr × List Byte) := matchFixed [0x2A] .tStar bs
/-- `T_SLASH` (R156): `2F`. -/
def matchSlash (bs : List Byte) : Option (Instr × List Byte) := matchFixed [0x2F] .tSlash bs
/-- `T_LPAREN` (R157): `28`. -/
def matchLparen (bs : List Byte) : Option (Instr × List Byte) := matchFixed [0x28] .tLparen bs
/-- `T_RPAREN` (R158): `29`. -/
def matchRparen (bs : List Byte) : Option (Instr × List Byte) := matchFixed [0x29] .tRparen bs
/-- `T_HEX` (R159): `30 78` and one or more hex digits. -/
def matchHex (bs : List Byte) : Option (Instr × List Byte) :=
  if ([0x30, 0x78] : List Byte).isPrefixOf bs then matchRun isHexDigit .tHex (bs.drop 2) else none
/-- `T_DEC` (R160): one or more decimal digits. -/
def matchDec (bs : List Byte) : Option (Instr × List Byte) := matchRun isDecDigit .tDec bs
/-- `T_REG` (R161): `24` and one or more lower-case letters. -/
def matchReg (bs : List Byte) : Option (Instr × List Byte) :=
  if ([0x24] : List Byte).isPrefixOf bs then matchRun isLower .tReg (bs.drop 1) else none

/-- The rule list of R73, in its order. -/
def tokenRules : List (List Byte → Option (Instr × List Byte)) :=
  [matchWs, matchEq, matchNe, matchAnd, matchOr, matchNot, matchPlus, matchMinus, matchStar, matchSlash,
    matchLparen, matchRparen, matchHex, matchDec, matchReg]

/-- One application of the rule list at the start of a text: the first rule that matches a non-empty prefix, and
what stands after its longest match (R73, R145); `none` where no rule matches (R162). -/
def decodeToken (bs : List Byte) : Option (Instr × List Byte) := tokenRules.findSome? fun rule => rule bs

/-! ### Records -/

/-- A host operation by its code (R83); every other code is reserved (R85). Unused fields are ignored (R82), and of
a register selector only `a[6:0]` counts (R86). -/
def decodeCommand (r : CmdRecord) : Instr :=
  if r.op = 0x01 then .cmdContinue
  else if r.op = 0x02 then .cmdStep r.a
  else if r.op = 0x03 then .cmdPrint r.text
  else if r.op = 0x04 then .cmdExamine r.a r.b
  else if r.op = 0x05 then .cmdWatch r.text
  else if r.op = 0x06 then .cmdDelete r.a
  else if r.op = 0x07 then .cmdInfoRegisters
  else if r.op = 0x08 then .cmdInfoWatchpoints
  else if r.op = 0x09 then .cmdQuit
  else if r.op = 0x0A then .cmdRegRead (r.a.setWidth 7)
  else if r.op = 0x0B then .cmdRegWrite (r.a.setWidth 7) r.b
  else if r.op = 0x0C then .cmdMemRead r.a r.b
  else if r.op = 0x0D then .cmdStopReq
  else if r.op = 0x0E then .cmdReset
  else .cmdReserved r.op

/-- The width field: the byte count itself (R87). -/
def decodeWidth (w : BitVec 3) : Option Width :=
  if w = 1 then some .one else if w = 2 then some .two else if w = 4 then some .four else none

/-- A translator record (R87). -/
def decodeXlat (r : XlatRecord) : Except Reject Instr :=
  match decodeWidth r.width with
  | none => .error .invalidWidth
  | some w =>
    if r.kind = 0 then .ok (if r.isWrite then .memWrite r.addr w r.data else .memRead r.addr w)
    else if r.kind = 1 then .ok (if r.isWrite then .linWrite r.addr w r.data else .linRead r.addr w)
    else if r.kind = 2 then .ok (if r.isWrite then .hostWrite r.addr w r.data else .hostRead r.addr w)
    else .error .invalidKind

/-- An operator or operand by its token kind code (R72). -/
def decodeXop (r : XopRecord) : Except Reject Instr :=
  if r.kind = 0x01 then
    if isRunOf isDecDigit r.text then .ok (.operandNum r.text) else .error .badOperandText
  else if r.kind = 0x02 then
    if ([0x30, 0x78] : List Byte).isPrefixOf r.text && isRunOf isHexDigit (r.text.drop 2)
    then .ok (.operandHex (r.text.drop 2)) else .error .badOperandText
  else if r.kind = 0x03 then
    if ([0x24] : List Byte).isPrefixOf r.text && isRunOf isLower (r.text.drop 1)
    then .ok (.operandReg (r.text.drop 1)) else .error .badOperandText
  else if r.kind = 0x06 then .ok (.xopEq r.a r.b)
  else if r.kind = 0x07 then .ok (.xopNe r.a r.b)
  else if r.kind = 0x08 then .ok (.xopAnd r.a r.b)
  else if r.kind = 0x09 then .ok (.xopOr r.a r.b)
  else if r.kind = 0x0A then .ok (.xopNot r.a)
  else if r.kind = 0x0B then .ok (.xopAdd r.a r.b)
  else if r.kind = 0x0C then .ok (.xopSub r.a r.b)
  else if r.kind = 0x0D then .ok (.xopMul r.a r.b)
  else if r.kind = 0x0E then .ok (.xopDiv r.a r.b)
  else if r.kind = 0x0F then .ok (.xopNeg r.a)
  else if r.kind = 0x10 then .ok (.xopDeref r.a)
  else .error .notAnOperation

/-- A request at a unit's port. Of a text only the token at its start is read. -/
def decodeUnit : UnitRequest → Except Reject Instr
  | .xlat r => decodeXlat r
  | .xop r => decodeXop r
  | .text bs =>
    match decodeToken bs with
    | some (i, _) => .ok i
    | none => .error .noTokenRule

/-- The decoder: total, an instruction or a named rejection. -/
def decode : PortWord → Except Reject Instr
  | .command r => .ok (decodeCommand r)
  | .unit u => decodeUnit u

/-! ### The encoder -/

/-- The bytes a token rule's instruction matches; empty for an instruction that is no token rule's. -/
def encodeToken : Instr → List Byte
  | .tWs run => run
  | .tEq => [0x3D, 0x3D]
  | .tNe => [0x21, 0x3D]
  | .tAnd => [0x26, 0x26]
  | .tOr => [0x7C, 0x7C]
  | .tNot => [0x21]
  | .tPlus => [0x2B]
  | .tMinus => [0x2D]
  | .tStar => [0x2A]
  | .tSlash => [0x2F]
  | .tLparen => [0x28]
  | .tRparen => [0x29]
  | .tHex digits => 0x30 :: 0x78 :: digits
  | .tDec digits => digits
  | .tReg name => 0x24 :: name
  | _ => []

/-- A command record with unused fields zero. -/
def commandWord (op : Byte) (a b : Word := 0) (text : List Byte := []) : PortWord := .command ⟨op, a, b, text⟩

/-- A translator record. -/
def xlatWord (kind : BitVec 2) (isWrite : Bool) (w : Width) (addr data : Word) : PortWord :=
  .unit (.xlat ⟨kind, isWrite, BitVec.ofNat 3 w.bytes, addr, data⟩)

/-- An evaluator record. -/
def xopWord (kind : BitVec 5) (a b : Word := 0) (text : List Byte := []) : PortWord := .unit (.xop ⟨kind, a, b, text⟩)

/-- The text of one token. -/
def textWord (i : Instr) : PortWord := .unit (.text (encodeToken i))

/-- The words of an instruction; `none` for the classes of emulated instruction, which have no bits (R88). -/
def encode : Instr → Option PortWord
  | .cmdContinue => some (commandWord 0x01)
  | .cmdStep n => some (commandWord 0x02 n)
  | .cmdPrint text => some (commandWord 0x03 0 0 text)
  | .cmdExamine n addr => some (commandWord 0x04 n addr)
  | .cmdWatch text => some (commandWord 0x05 0 0 text)
  | .cmdDelete id => some (commandWord 0x06 id)
  | .cmdInfoRegisters => some (commandWord 0x07)
  | .cmdInfoWatchpoints => some (commandWord 0x08)
  | .cmdQuit => some (commandWord 0x09)
  | .cmdRegRead sel => some (commandWord 0x0A (sel.setWidth 32))
  | .cmdRegWrite sel v => some (commandWord 0x0B (sel.setWidth 32) v)
  | .cmdMemRead addr n => some (commandWord 0x0C addr n)
  | .cmdStopReq => some (commandWord 0x0D)
  | .cmdReset => some (commandWord 0x0E)
  | .cmdReserved op => some (commandWord op)
  | .tWs run => some (textWord (.tWs run))
  | .tEq => some (textWord .tEq)
  | .tNe => some (textWord .tNe)
  | .tAnd => some (textWord .tAnd)
  | .tOr => some (textWord .tOr)
  | .tNot => some (textWord .tNot)
  | .tPlus => some (textWord .tPlus)
  | .tMinus => some (textWord .tMinus)
  | .tStar => some (textWord .tStar)
  | .tSlash => some (textWord .tSlash)
  | .tLparen => some (textWord .tLparen)
  | .tRparen => some (textWord .tRparen)
  | .tHex digits => some (textWord (.tHex digits))
  | .tDec digits => some (textWord (.tDec digits))
  | .tReg name => some (textWord (.tReg name))
  | .operandNum digits => some (xopWord 0x01 0 0 digits)
  | .operandHex digits => some (xopWord 0x02 0 0 (0x30 :: 0x78 :: digits))
  | .operandReg name => some (xopWord 0x03 0 0 (0x24 :: name))
  | .xopEq a b => some (xopWord 0x06 a b)
  | .xopNe a b => some (xopWord 0x07 a b)
  | .xopAnd a b => some (xopWord 0x08 a b)
  | .xopOr a b => some (xopWord 0x09 a b)
  | .xopNot r => some (xopWord 0x0A r)
  | .xopAdd a b => some (xopWord 0x0B a b)
  | .xopSub a b => some (xopWord 0x0C a b)
  | .xopMul a b => some (xopWord 0x0D a b)
  | .xopDiv a b => some (xopWord 0x0E a b)
  | .xopNeg r => some (xopWord 0x0F r)
  | .xopDeref r => some (xopWord 0x10 r)
  | .memRead addr w => some (xlatWord 0 false w addr 0)
  | .memWrite addr w v => some (xlatWord 0 true w addr v)
  | .linRead addr w => some (xlatWord 1 false w addr 0)
  | .linWrite addr w v => some (xlatWord 1 true w addr v)
  | .hostRead addr w => some (xlatWord 2 false w addr 0)
  | .hostWrite addr w v => some (xlatWord 2 true w addr v)
  | .insnOrdinary _ | .insnBpTrap _ _ | .insnFaulting => none

/-! ### The opcode table's words -/

/-- The request an opcode-table word stands for. The table numbers five encodings that share their values, so the
word alone does not name its port: a 3-bit word is the translator's `{kind, is_write}`, a 5-bit word a token kind
code, a word of up to 8 bits a command code where R83 lists one, else the two kind codes no command has, else a
one-character token, else a reserved command code; a longer word is two characters of text, the first one the more
significant ("first byte first"), or the less significant where that is no token. DESIGN CHOICE; log 15. -/
def tableRequest (nbits w : Nat) : PortWord :=
  let lo : Byte := BitVec.ofNat 8 w
  let hi : Byte := BitVec.ofNat 8 (w / 256)
  if nbits ≤ 3 then
    .unit (.xlat ⟨BitVec.ofNat 2 (w / 2), decide (w % 2 = 1), 0, 0, 0⟩)
  else if nbits ≤ 5 then xopWord (BitVec.ofNat 5 w)
  else if nbits ≤ 8 then
    if 1 ≤ lo.toNat ∧ lo.toNat ≤ 0x0E then commandWord lo
    else if lo = 0x0F ∨ lo = 0x10 then xopWord (lo.setWidth 5)
    else if (decodeToken [lo]).isSome then .unit (.text [lo])
    else commandWord lo
  else if (decodeToken [hi, lo]).isSome then .unit (.text [hi, lo])
  else .unit (.text [lo, hi])

/-- The instruction the decoder reads from an opcode-table word. -/
def decodeTableWord (nbits w : Nat) : Option Instr :=
  match decode (tableRequest nbits w) with
  | .ok i => some i
  | .error _ => none

end Sys2Proof
end

