-- ==== Sys2Proof/Machine/State.lean ====
section
/-! DEFINITION. The state of the block (spec 10_state.md R20), plain data, its values after reset (R45), and the
reasons a step can stop. The last four fields of `State` are the model's own (INVENTORY.md, State). -/

namespace Sys2Proof.Machine

/-- The run state of the Execution Loop (10_state.md R34). -/
inductive RunState where
  | stopped | running | ended
  deriving DecidableEq, Repr, Inhabited

/-- The instruction budget: a `u32` count or `INF` (R35). -/
inductive Budget where
  | count (n : Word)
  | inf
  deriving DecidableEq, Repr, Inhabited

/-- A fatal condition with what its cause record holds (60_exceptions.md R259). -/
inductive FatalCause where
  | oobAccess (addr : Word) (width : Width) (isWrite : Bool)
  | poolDeleteEmpty
  | poolAllocEmpty
  | badImage
  deriving DecidableEq, Repr, Inhabited

/-- The recoverable failure codes (60_exceptions.md R257); `eTokenize` carries the offending position. -/
inductive FailCode where
  | eTokenize (pos : Nat)
  | eParen | eEmptyOperand | eUnknownReg | eDivZero | eInvalid | eLimit | wPoolFull | wNotFound | eBadCommand
  deriving DecidableEq, Repr, Inhabited

/-- Why a run ended (10_state.md R38). -/
inductive Reason where
  | none | budget | execStop | execEnd | watch | stopReq | fault | cannotContinue
  deriving DecidableEq, Repr, Inhabited

/-- The report record (R38). -/
structure Report where
  reason : Reason
  wpId : Word
  old : Word
  new : Word
  deriving DecidableEq, Repr, Inhabited

/-- A watchpoint record (R39); its `link` is the two lists of State. -/
structure WpSlot where
  id : Word
  expr : List Byte
  last : Word
  deriving DecidableEq, Repr, Inhabited

/-- What the last operation delivered (00_scope.md R6 `Ok(v)` and `Fail(code)`; 45_host_commands.md R245); log 8. -/
inductive Response where
  /-- Nothing delivered: no operation yet, a run that has not returned, or a fatal condition. -/
  | silent
  /-- `Ok` with nothing. -/
  | ok
  /-- `Ok(v)`. -/
  | value (v : Word)
  /-- `Ok` of a list of `u32`: `examine`, `info registers`. -/
  | values (vs : List Word)
  /-- The watchpoint listing (id, expression, stored value). -/
  | listing (ws : List (Word × List Byte × Word))
  /-- A token rule's result: the token emitted, if any, and the bytes matched. -/
  | token (t : Option Token) (len : Nat)
  /-- `Fail(code)`. -/
  | fail (c : FailCode)
  /-- A run request returned; `report` and `run` say how. -/
  | ran
  /-- A run request was unwound by a `Fault` (R6, R130). -/
  | faulted
  deriving DecidableEq, Repr, Inhabited

/-- The state of the block, and the model's own four fields after it. -/
structure State where
  /-- `x[0..7]` (R21). -/
  regs : Regs
  /-- `eip` (R29). -/
  pc : Word
  /-- `eflags` (R30). -/
  fl : Word
  /-- `M` (R50), as the bytes that differ from `MEM0`. -/
  mem : Memory
  /-- `run` (R34). -/
  run : RunState
  /-- `budget` (R35). -/
  budget : Budget
  /-- `stop_pending` (R36). -/
  stopPending : Bool
  /-- `fatal` and its cause record (R37). -/
  fatal : Option FatalCause
  /-- `report` (R38). -/
  report : Report
  /-- `wp.slot[0..31]` (R39). -/
  slots : Vector WpSlot 32
  /-- `wp.active`, newest first (R39, R40). -/
  active : List (Fin 32)
  /-- `wp.free` (R39, R40). -/
  free : List (Fin 32)
  /-- The host's input to come, oldest first (log 6). -/
  inputs : List HostInput
  /-- The request standing at a unit's port (log 7). -/
  unitReq : Option UnitRequest
  /-- The outcome of the last operation (log 8). -/
  resp : Response
  /-- How many free values have been drawn (log 9). -/
  freeCount : Nat
  deriving DecidableEq, Repr

/-- A step that has no next state because the spec gives the operation no transition. -/
inductive Fault where
  /-- Raised by every operation but `CMD_RESET` while the `fatal` latch is set, and by a step that finds the block so
  and neither `CMD_RESET` nor a moment of silence next (60_exceptions.md R268, 93_implementation_defined.md U7, U16
  `stuck`; log 27). Safe: the model stops where the spec says nothing happens any more. -/
  | blockDead
  /-- Raised by a host operation issued while `run = RUNNING`, and by an instruction step asked for while
  `run` is not `RUNNING` (45_host_commands.md R230, 41_execution_loop.md R132, U16 `stuck`). Safe, as above. -/
  | notEnabled
  deriving DecidableEq, Repr

/-- A step refused because the model has no meaning for what stands at a port. -/
inductive Refusal where
  /-- An instruction without a meaning; used by no arm. Safe. -/
  | notModelled (mnemonic : String)
  /-- Raised by a step that finds a unit request the spec calls invalid: a translator `kind` 3 or a `width` other
  than 1, 2, 4 (30_encoding.md R87, U15 "refuse"), or an evaluator record whose kind is no operator or operand of
  R72 or whose text is no such operand's (log 20).
  Safe: no agent of the block can express it. -/
  | invalidRequest
  deriving DecidableEq, Repr

/-- The slots after reset: `id = s`, `expr` empty, `last` 0 (R45). -/
def resetSlots : Vector WpSlot 32 :=
  Vector.ofFn fun s : Fin 32 => { id := BitVec.ofNat 32 s.val, expr := [], last := 0 }

/-- The state after reset of the machine `P` (R45, 70_reset_and_hazards.md R286). -/
def State.resetOf (P : Params) : State where
  regs := #v[P.resetGpr 0, P.resetGpr 1, P.resetGpr 2, P.resetGpr 3,
    P.resetGpr 4, P.resetGpr 5, P.resetGpr 6, P.resetGpr 7]
  pc := P.entry
  fl := P.resetEflags
  mem := []
  run := .stopped
  budget := .count 0
  stopPending := false
  fatal := none
  report := { reason := .none, wpId := 0, old := 0, new := 0 }
  slots := resetSlots
  active := []
  free := List.finRange 32
  inputs := []
  unitReq := none
  resp := .silent
  freeCount := 0

/-- The machine right after reset. -/
def State.reset : State := State.resetOf Config.machine

end Sys2Proof.Machine
end

