-- ==== Sys2Proof/Machine/Ops.lean ====
section
/-! DEFINITION. The operations the meanings share: the three error classes taken as the spec describes them
(60_exceptions.md R255, R264) and the ways back (R265, R268), when an operation is accepted (45_host_commands.md
R230), the six accesses of the Address Space Translator (40_translator_ops.md), and bit slices of a stored word. -/

namespace Sys2Proof.Machine

/-- The outcome of a meaning and of a step. -/
abbrev Result := Host.Outcome State Fault Refusal

/-- The outcome of an operation of the block (00_scope.md R6): `Ok(v)`, `Fail(code)` or `Fatal(cause)`. -/
inductive Res (α : Type) where
  | ok (v : α)
  | fail (c : FailCode)
  | fatal (c : FatalCause)
  deriving DecidableEq, Repr

/-! ### The error classes -/

/-- What the last operation delivered. -/
def State.respond (r : Response) (s : State) : State := { s with resp := r }

/-- `raise Fatal(cause)` (00_scope.md R12; 60_exceptions.md R256, R264, R268): the latch and its cause record, and
nothing delivered. There is no saved program counter, no vector and no mode (R264, R267). What else the dying
operation had already written stays (U7; log 19). -/
def State.raiseFatal (c : FatalCause) (s : State) : State := { s with fatal := some c, resp := .silent }

/-- `raise Fail(code)` out of an operation (R258): no state change, the caller gets the code. -/
def State.raiseFail (c : FailCode) (s : State) : State := s.respond (.fail c)

/-- How an operation that may end in any of the three classes leaves the state it started from. -/
def State.settle (s : State) : Res State → State
  | .ok t => t
  | .fail c => s.raiseFail c
  | .fatal c => s.raiseFatal c

/-- `report <- {reason}` (41_execution_loop.md R133). The spec gives `wp_id`, `old` and `new` no value when the
reason is not `WATCH` (U17): three free values; log 9. -/
def State.reportOf (P : Params) (reason : Reason) (s : State) : State :=
  { s with
    report := { reason := reason, wpId := P.freeWord s.freeCount, old := P.freeWord (s.freeCount + 1),
                new := P.freeWord (s.freeCount + 2) }
    freeCount := s.freeCount + 3 }

/-- The run request returns with this reason, the run state as it stands. -/
def State.endRun (P : Params) (reason : Reason) (s : State) : State := (s.reportOf P reason).respond .ran

/-- The run stops (`run <- STOPPED`) and the run request returns with this reason. -/
def State.stopRun (P : Params) (reason : Reason) (s : State) : State :=
  State.endRun P reason { s with run := .stopped }

/-- Taking an execution fault (R130, R261, R264): nothing of the instruction is applied, `pc` stays at it, no scan,
the rest of the budget is abandoned, `run <- STOPPED`, `report.reason <- FAULT`, control goes to the host. -/
def State.unwindFault (P : Params) (s : State) : State := (s.stopRun P .fault).respond .faulted

/-- Reset (70_reset_and_hazards.md R285; 10_state.md R45): every piece of the block's state at its reset value. It is
the only way back from `Fatal` (R265). The host's input still to come is not the block's and stays (log 12). -/
def State.restart (P : Params) (s : State) : State := { State.resetOf P with inputs := s.inputs, resp := .ok }

/-! ### When an operation is accepted -/

/-- A host operation (45_host_commands.md R230): accepted only when `fatal = 0` and `run` is not `RUNNING`. -/
def State.hostOp (s : State) (f : State → State) : Result :=
  match s.fatal, s.run with
  | some _, _ => .fault .blockDead
  | none, .running => .fault .notEnabled
  | none, .stopped => .next (f s)
  | none, .ended => .next (f s)

/-- An operation of a unit inside the block, or the stop request: in any run state, but not once the block is dead (R268). -/
def State.liveOp (s : State) (f : State → State) : Result :=
  match s.fatal with
  | some _ => .fault .blockDead
  | none => .next (f s)

/-- What happens inside an instruction step: only while `run = RUNNING` and `fatal = 0` (41_execution_loop.md R132). -/
def State.loopOp (s : State) (f : State → State) : Result :=
  match s.fatal, s.run with
  | some _, _ => .fault .blockDead
  | none, .running => .next (f s)
  | none, .stopped => .fault .notEnabled
  | none, .ended => .fault .notEnabled

/-! ### The Address Space Translator -/

/-- In bounds: every byte of the access lies in the store, in unbounded integers (20_memory.md R55, R56). -/
def inBounds (P : Params) (a : Word) (w : Width) : Bool := decide (a.toNat + w.bytes ≤ P.capacity)

/-- `HostRead(off, n)` (40_translator_ops.md R104). -/
def hostReadOp (P : Params) (m : Memory) (off : Word) (w : Width) : Except FatalCause Word :=
  if inBounds P off w then .ok (BitVec.ofNat 32 (Memory.getLE P.mem0 m off.toNat w.bytes))
  else .error (.oobAccess off w false)

/-- `HostWrite(off, n, v)` (R105). -/
def hostWriteOp (P : Params) (m : Memory) (off : Word) (w : Width) (v : Word) : Except FatalCause Memory :=
  if inBounds P off w then .ok (Memory.putLE P.mem0 off.toNat w.bytes v.toNat m)
  else .error (.oobAccess off w true)

/-- Linear to host-backing address: the identity on the number (20_memory.md R52). -/
def linearToOffset (a : Word) : Word := a

/-- Program to linear address: the identity (R52). -/
def programToLinear (a : Word) : Word := a

/-- `LinRead(addr, n)` (40_translator_ops.md R102). -/
def linReadOp (P : Params) (m : Memory) (a : Word) (w : Width) : Except FatalCause Word :=
  hostReadOp P m (linearToOffset a) w

/-- `LinWrite(addr, n, v)` (R103). -/
def linWriteOp (P : Params) (m : Memory) (a : Word) (w : Width) (v : Word) : Except FatalCause Memory :=
  hostWriteOp P m (linearToOffset a) w v

/-- `MemRead(addr, n)` (R100). -/
def memReadOp (P : Params) (m : Memory) (a : Word) (w : Width) : Except FatalCause Word :=
  linReadOp P m (programToLinear a) w

/-- `MemWrite(addr, n, v)` (R101). -/
def memWriteOp (P : Params) (m : Memory) (a : Word) (w : Width) (v : Word) : Except FatalCause Memory :=
  linWriteOp P m (programToLinear a) w v

/-- A read at any address kind (20_memory.md R51, R66). -/
def readAt (P : Params) (m : Memory) (kind : AddrKind) (a : Word) (w : Width) : Except FatalCause Word :=
  match kind with
  | .program => memReadOp P m a w
  | .linear => linReadOp P m a w
  | .hostBacking => hostReadOp P m a w

/-- A write at any address kind. -/
def writeAt (P : Params) (m : Memory) (kind : AddrKind) (a : Word) (w : Width) (v : Word) : Except FatalCause Memory :=
  match kind with
  | .program => memWriteOp P m a w v
  | .linear => linWriteOp P m a w v
  | .hostBacking => hostWriteOp P m a w v

/-- A read's outcome delivered: its value, or the fatal condition. -/
def State.deliverRead (s : State) : Except FatalCause Word → State
  | .ok v => s.respond (.value v)
  | .error c => s.raiseFatal c

/-- A write's outcome: the new memory and `Ok`, or the fatal condition with no byte written (R105). -/
def State.deliverWrite (s : State) : Except FatalCause Memory → State
  | .ok m => State.respond .ok { s with mem := m }
  | .error c => s.raiseFatal c

/-- The byte at an address of the store. -/
def State.byteAt (P : Params) (s : State) (a : Nat) : Byte := Memory.get P.mem0 s.mem a

/-! ### Bit slices of a stored word -/

/-- The bits `lo + len - 1` down to `lo`, ones there and zeros elsewhere. -/
def sliceMask (lo len : Nat) : Word := BitVec.ofNat 32 ((2 ^ len - 1) * 2 ^ lo)

/-- `zext_32(x[lo+len-1:lo])`. -/
def readSlice (lo len : Nat) (x : Word) : Word := (x >>> lo) &&& sliceMask 0 len

/-- `x` with the low `len` bits of `v` put at `lo` and every other bit unchanged (10_state.md R23 to R25, R31). -/
def writeSlice (lo len : Nat) (x v : Word) : Word := (x &&& ~~~ sliceMask lo len) ||| ((v <<< lo) &&& sliceMask lo len)

end Sys2Proof.Machine
end

