-- ==== Sys2Proof/Machine/Flags.lean ====
section
/-! DEFINITION. The packed flags word and its named fields (spec 10_state.md R30, R31). Nothing in the block computes
a flag (R32): `Exec` returns the new word whole, and the fields are read and written as slices of it. `TF`, `IF`,
`DF` and `IOPL` are storage only (R33). -/

namespace Sys2Proof.Machine

/-- The nine 1-bit fields of `eflags` (R30). -/
inductive Flag where
  | cf | pf | af | zf | sf | tf | iflag | df | of
  deriving DecidableEq, Repr, Inhabited

/-- The bit of `eflags` a flag stands at (R30). -/
def Flag.bit : Flag → Nat
  | .cf => 0
  | .pf => 2
  | .af => 4
  | .zf => 6
  | .sf => 7
  | .tf => 8
  | .iflag => 9
  | .df => 10
  | .of => 11

/-- The flag at a bit, where R30 names one. -/
def flagAtBit (k : Nat) : Option Flag :=
  if k = 0 then some .cf
  else if k = 2 then some .pf
  else if k = 4 then some .af
  else if k = 6 then some .zf
  else if k = 7 then some .sf
  else if k = 8 then some .tf
  else if k = 9 then some .iflag
  else if k = 10 then some .df
  else if k = 11 then some .of
  else none

/-- The bits of `IOPL`, 13 down to 12 (R30). -/
def ioplLo : Nat := 12

/-- A flag read out of the packed word (R31). -/
def flagOf (f : Flag) (fl : Word) : Bool := fl.getLsbD f.bit

/-- `fl.F <- b`: exactly that bit (R31). -/
def setFlag (f : Flag) (fl : Word) (b : Bool) : Word := writeSlice f.bit 1 fl (if b then 1 else 0)

/-- `fl.IOPL` (R30). -/
def ioplOf (fl : Word) : BitVec 2 := (fl >>> ioplLo).setWidth 2

/-- `fl.IOPL <- v`: exactly its two bits (R31). -/
def setIopl (fl : Word) (v : BitVec 2) : Word := writeSlice ioplLo 2 fl (v.setWidth 32)

end Sys2Proof.Machine
end

