-- ==== Sys2Proof/Machine/Operands.lean ====
section
/-! DEFINITION. Every operand form: the views of the register file and how they are read and written
(spec 10_state.md R22 to R27), the register selector of the command port (30_encoding.md R86), the register names of
the expression language (R80), and the values of literals (R76, R77). -/

namespace Sys2Proof.Machine

/-- A word of the register file. -/
inductive Store where
  | slot (i : Fin 8)
  | pc
  | fl
  deriving DecidableEq, Repr, Inhabited

/-- A view: a slice of one word of the register file (10_state.md R26, R31). -/
structure RegView where
  store : Store
  lo : Nat
  len : Nat
  deriving DecidableEq, Repr, Inhabited

/-- `x[i]` (R22). -/
def view32 (i : Fin 8) : RegView := ⟨.slot i, 0, 32⟩
/-- `x16[i]`, the low half (R23). -/
def view16 (i : Fin 8) : RegView := ⟨.slot i, 0, 16⟩
/-- `x8l[i]`, the low byte (R24). -/
def view8l (i : Fin 8) : RegView := ⟨.slot i, 0, 8⟩
/-- `x8h[i]`, the high byte, bits 15 to 8 (R25, D7); PRESUMED, log 17. -/
def view8h (i : Fin 8) : RegView := ⟨.slot i, 8, 8⟩
/-- `pc` (R29). -/
def viewPc : RegView := ⟨.pc, 0, 32⟩
/-- `fl`, packed (R31). -/
def viewFl : RegView := ⟨.fl, 0, 32⟩
/-- A named flag (R30). -/
def viewFlag (f : Flag) : RegView := ⟨.fl, f.bit, 1⟩
/-- `fl.IOPL` (R30). -/
def viewIopl : RegView := ⟨.fl, ioplLo, 2⟩

/-- The word a view is a slice of. -/
def State.load (s : State) : Store → Word
  | .slot i => s.regs[i]
  | .pc => s.pc
  | .fl => s.fl

/-- That word replaced. -/
def State.save (s : State) (w : Word) : Store → State
  | .slot i => { s with regs := s.regs.set i w }
  | .pc => { s with pc := w }
  | .fl => { s with fl := w }

/-- A view read, widened with zeros to 32 bits (45_host_commands.md R242, 30_encoding.md R80). -/
def State.readView (s : State) (v : RegView) : Word := readSlice v.lo v.len (s.load v.store)

/-- The low bits of `b` written to a view, every bit outside it unchanged (R243). -/
def State.writeView (s : State) (v : RegView) (b : Word) : State :=
  s.save (writeSlice v.lo v.len (s.load v.store) b) v.store

/-- Slot `k` of a group of eight selectors, for `k` below 8. -/
def slotIndex (k : Nat) : Fin 8 := Fin.ofNat 8 k

/-- The register selector (30_encoding.md R86); `none` for every value the table does not list. -/
def selectorView (sel : BitVec 7) : Option RegView :=
  let n := sel.toNat
  if n < 0x08 then some (view32 (slotIndex n))
  else if n < 0x10 then some (view16 (slotIndex (n - 0x08)))
  else if n < 0x18 then some (view8l (slotIndex (n - 0x10)))
  else if n < 0x20 then some (view8h (slotIndex (n - 0x18)))
  else if n = 0x20 then some viewPc
  else if n = 0x21 then some viewFl
  else if n = 0x3C then some viewIopl
  else if n < 0x30 then none
  else (flagAtBit (n - 0x30)).map viewFlag

/-- A name of `REGNAMES`, from its letters. -/
def regName (cs : List Char) : List Byte := cs.map ascii

/-- `REGNAMES` (30_encoding.md R80): twenty-six names. The names and their order are the spec's from general
knowledge (D7, D20); PRESUMED, log 16. -/
def regNames : List (List Byte × RegView) :=
  [ (regName ['e', 'a', 'x'], view32 0), (regName ['e', 'c', 'x'], view32 1),
    (regName ['e', 'd', 'x'], view32 2), (regName ['e', 'b', 'x'], view32 3),
    (regName ['e', 's', 'p'], view32 4), (regName ['e', 'b', 'p'], view32 5),
    (regName ['e', 's', 'i'], view32 6), (regName ['e', 'd', 'i'], view32 7),
    (regName ['a', 'x'], view16 0), (regName ['c', 'x'], view16 1),
    (regName ['d', 'x'], view16 2), (regName ['b', 'x'], view16 3),
    (regName ['s', 'p'], view16 4), (regName ['b', 'p'], view16 5),
    (regName ['s', 'i'], view16 6), (regName ['d', 'i'], view16 7),
    (regName ['a', 'l'], view8l 0), (regName ['c', 'l'], view8l 1),
    (regName ['d', 'l'], view8l 2), (regName ['b', 'l'], view8l 3),
    (regName ['a', 'h'], view8h 0), (regName ['c', 'h'], view8h 1),
    (regName ['d', 'h'], view8h 2), (regName ['b', 'h'], view8h 3),
    (regName ['e', 'i', 'p'], viewPc),
    (regName ['e', 'f', 'l', 'a', 'g', 's'], viewFl) ]

/-- The lookup of a name in a table of names. -/
def lookupName (name : List Byte) : List (List Byte × RegView) → Option RegView
  | [] => none
  | (n, v) :: rest => if n = name then some v else lookupName name rest

/-- The x86 numbering of 8-bit register operands (10_state.md R27): low bytes of slots 0 to 3, then their high
bytes. Orientation for whoever writes an `Exec`; no rule of the block uses it. -/
def byteOperandView (k : Fin 8) : RegView :=
  if k.val < 4 then view8l k else view8h (slotIndex (k.val - 4))

/-! ### Literals -/

/-- The value of a decimal digit. -/
def decDigitValue (b : Byte) : Word := (b - 0x30).setWidth 32

/-- The value of a hex digit of either case (30_encoding.md R77). -/
def hexDigitValue (b : Byte) : Word :=
  if isDecDigit b then (b - 0x30).setWidth 32
  else if decide (0x61 ≤ b) then (b - 0x57).setWidth 32
  else (b - 0x37).setWidth 32

/-- Digits read left to right in a base, modulo 2^32. -/
def digitsValue (base : Word) (digit : Byte → Word) : Word → List Byte → Word
  | acc, [] => acc
  | acc, b :: bs => digitsValue base digit (acc * base + digit b) bs

/-- The value of a `NUM` token's digits, modulo 2^32 (R76). -/
def decValue (digits : List Byte) : Word := digitsValue 10 decDigitValue 0 digits

/-- The value of a `HEX` token's digits (after `0x`), modulo 2^32 (R77). -/
def hexValue (digits : List Byte) : Word := digitsValue 16 hexDigitValue 0 digits

/-- The current content of the view a name stands for, else `Fail(E_UNKNOWN_REG)`
(43_expression_evaluator.md R174). -/
def regValue (s : State) (name : List Byte) : Res Word :=
  match lookupName name regNames with
  | some v => .ok (s.readView v)
  | none => .fail .eUnknownReg

end Sys2Proof.Machine
end

