-- ==== Sys2Proof/Machine/Tokenizer.lean ====
section
/-! DEFINITION. The first half of the Expression Evaluator (spec 42_expression_tokenizer.md): what each token rule
emits, the scan loop `Tokenize` (R145) over the decoder's rule list, and the post-pass `Reclassify` (R163). -/

namespace Sys2Proof.Machine

/-- What a token rule does with its match: the token it emits, if any, and how many bytes it moves past. -/
structure Emission where
  tok : Option Token
  len : Nat
  deriving DecidableEq, Repr, Inhabited

/-- A token with empty text (R72). -/
def plainToken (k : TokenKind) : Option Token := some { kind := k, text := [] }

/-- `T_WS` emits nothing (R147). -/
def emitWs (run : List Byte) : Emission := ⟨none, run.length⟩
/-- `T_EQ` emits `EQ` (R148). -/
def emitEq : Emission := ⟨plainToken .eq, 2⟩
/-- `T_NE` emits `NE` (R149). -/
def emitNe : Emission := ⟨plainToken .ne, 2⟩
/-- `T_AND` emits `AND` (R150). -/
def emitAnd : Emission := ⟨plainToken .and, 2⟩
/-- `T_OR` emits `OR` (R151). -/
def emitOr : Emission := ⟨plainToken .or, 2⟩
/-- `T_NOT` emits `NOT` (R152). -/
def emitNot : Emission := ⟨plainToken .not, 1⟩
/-- `T_PLUS` emits `ADD` (R153). -/
def emitPlus : Emission := ⟨plainToken .add, 1⟩
/-- `T_MINUS` emits `SUB`; the post-pass may make it `NEG` (R154). -/
def emitMinus : Emission := ⟨plainToken .sub, 1⟩
/-- `T_STAR` emits `MUL`; the post-pass may make it `DEREF` (R155). -/
def emitStar : Emission := ⟨plainToken .mul, 1⟩
/-- `T_SLASH` emits `DIV` (R156). -/
def emitSlash : Emission := ⟨plainToken .div, 1⟩
/-- `T_LPAREN` emits `LPAREN` (R157). -/
def emitLparen : Emission := ⟨plainToken .lparen, 1⟩
/-- `T_RPAREN` emits `RPAREN` (R158). -/
def emitRparen : Emission := ⟨plainToken .rparen, 1⟩
/-- `T_HEX` emits `HEX` whose text is the whole match (R159). -/
def emitHex (digits : List Byte) : Emission := ⟨some ⟨.hex, 0x30 :: 0x78 :: digits⟩, digits.length + 2⟩
/-- `T_DEC` emits `NUM` whose text is the match (R160). -/
def emitDec (digits : List Byte) : Emission := ⟨some ⟨.num, digits⟩, digits.length⟩
/-- `T_REG` emits `REG` whose text is the whole match, `$` included (R161, 30_encoding.md R78). -/
def emitReg (name : List Byte) : Emission := ⟨some ⟨.reg, 0x24 :: name⟩, name.length + 1⟩

/-- What the matched rule emits; nothing for an instruction that is no token rule's (the rule list yields none). -/
def emission : Instr → Emission
  | .tWs run => emitWs run
  | .tEq => emitEq
  | .tNe => emitNe
  | .tAnd => emitAnd
  | .tOr => emitOr
  | .tNot => emitNot
  | .tPlus => emitPlus
  | .tMinus => emitMinus
  | .tStar => emitStar
  | .tSlash => emitSlash
  | .tLparen => emitLparen
  | .tRparen => emitRparen
  | .tHex digits => emitHex digits
  | .tDec digits => emitDec digits
  | .tReg name => emitReg name
  | _ => ⟨none, 0⟩

/-- More than the limit, `none` being infinity (R146). -/
def overLimit (n : Nat) : Option Nat → Bool
  | none => false
  | some m => decide (m < n)

/-- Exactly the limit (R145 `length(T) == MAX_TOKENS`). -/
def atLimit (n : Nat) : Option Nat → Bool
  | none => false
  | some m => n == m

/-- The loop of R145 from position `pos` on, with `count` tokens already in the array and `bs` the text from there.
`fuel` bounds the rules applied; every match is non-empty, so the text's length is enough. -/
def tokenizeFrom (P : Params) : Nat → Nat → Nat → List Byte → Except FailCode (List Token)
  | _, _, _, [] => .ok []
  | 0, pos, _, _ :: _ => .error (.eTokenize pos)
  | fuel + 1, pos, count, b :: bs =>
    match decodeToken (b :: bs) with
    | none => .error (.eTokenize pos)
    | some (i, rest) =>
      match (emission i).tok with
      | none => tokenizeFrom P fuel (pos + (emission i).len) count rest
      | some t =>
        if atLimit count P.maxTokens then .error .eLimit
        else
          match tokenizeFrom P fuel (pos + (emission i).len) (count + 1) rest with
          | .ok ts => .ok (t :: ts)
          | .error c => .error c

/-- After one of these a `-` or `*` is binary (R163). -/
def endsOperand : TokenKind → Bool
  | .rparen | .num | .hex | .reg => true
  | _ => false

/-- `SUB` and `MUL` in unary position (R163). -/
def unaryKind : TokenKind → TokenKind
  | .sub => .neg
  | .mul => .deref
  | k => k

/-- The post-pass from some token on; `afterOperand` says whether the previous token ends an operand (false at the
start). -/
def reclassifyFrom : Bool → List Token → List Token
  | _, [] => []
  | afterOperand, t :: ts =>
    (if afterOperand then t else { t with kind := unaryKind t.kind }) :: reclassifyFrom (endsOperand t.kind) ts

/-- `Reclassify(T)` (R163). -/
def reclassify (ts : List Token) : List Token := reclassifyFrom false ts

/-- `Tokenize(s)` (R145). -/
def tokenize (P : Params) (text : List Byte) : Except FailCode (List Token) :=
  if overLimit text.length P.exprMaxLen then .error .eLimit
  else
    match tokenizeFrom P text.length 0 0 text with
    | .ok ts => .ok (reclassify ts)
    | .error c => .error c

end Sys2Proof.Machine
end

