-- ==== Sys2Proof/Machine/Evaluator.lean ====
section
/-! DEFINITION. The second half of the Expression Evaluator (spec 43_expression_evaluator.md): the operators' values
(R181 to R191), `Operand` (R173, R174), `ParenCheck` (R172), `Dominant` (R175), `Apply` (R176, R178), `Eval` (R171) and
`Evaluate` (R170). A token range is the list of its tokens. Nothing here writes state (R194). -/

namespace Sys2Proof.Machine

/-- 1 or 0 (D25). -/
def truth (b : Bool) : Word := if b then 1 else 0

/-- `!` (R181). -/
def notValue (r : Word) : Word := truth (r == 0)
/-- Unary `-` (R182). -/
def negValue (r : Word) : Word := 0 - r
/-- Unary `*` (R183, D23): four bytes at the program address; out of bounds is fatal. -/
def derefValue (P : Params) (m : Memory) (r : Word) : Res Word :=
  match memReadOp P m r .four with
  | .ok v => .ok v
  | .error c => .fatal c
/-- Binary `*` (R184). -/
def mulValue (a b : Word) : Word := a * b
/-- `/` (R185): unsigned floor division; a zero divisor is a failure. -/
def divValue (a b : Word) : Res Word := if b = 0 then .fail .eDivZero else .ok (a / b)
/-- `+` (R186). -/
def addValue (a b : Word) : Word := a + b
/-- Binary `-` (R187). -/
def subValue (a b : Word) : Word := a - b
/-- `==` (R188). -/
def eqValue (a b : Word) : Word := truth (a == b)
/-- `!=` (R189). -/
def neValue (a b : Word) : Word := truth (a != b)
/-- `&&` (R190), logical. -/
def andValue (a b : Word) : Word := truth (a != 0 && b != 0)
/-- `||` (R191), logical. -/
def orValue (a b : Word) : Word := truth (a != 0 || b != 0)

/-- The unary operator kinds. -/
def isUnary : TokenKind → Bool
  | .not | .neg | .deref => true
  | _ => false

/-- The operator kinds, codes 6 to 16 (30_encoding.md R72). -/
def isOperator : TokenKind → Bool
  | .eq | .ne | .and | .or | .not | .add | .sub | .mul | .div | .neg | .deref => true
  | _ => false

/-- The levels of 30_encoding.md R79: a smaller level binds more loosely and is split first. A kind that is no
operator has none; 7 stands there and is never compared. -/
def level : TokenKind → Nat
  | .or => 1
  | .and => 2
  | .eq | .ne => 3
  | .add | .sub => 4
  | .mul | .div => 5
  | .not | .neg | .deref => 6
  | .eoi | .num | .hex | .reg | .lparen | .rparen => 7

/-- `Unary(k, r)` (R176). Only the three unary kinds reach it. -/
def unaryValue (P : Params) (m : Memory) (k : TokenKind) (r : Word) : Res Word :=
  match k with
  | .not => .ok (notValue r)
  | .neg => .ok (negValue r)
  | .deref => derefValue P m r
  | _ => .fail .eInvalid

/-- `Binary(k, a, b)` on two values (R176). Only the eight binary kinds reach it. -/
def binaryValue (k : TokenKind) (a b : Word) : Res Word :=
  match k with
  | .mul => .ok (mulValue a b)
  | .div => divValue a b
  | .add => .ok (addValue a b)
  | .sub => .ok (subValue a b)
  | .eq => .ok (eqValue a b)
  | .ne => .ok (neValue a b)
  | .and => .ok (andValue a b)
  | .or => .ok (orValue a b)
  | _ => .fail .eInvalid

/-- A unary operator on its operand's outcome (R177). -/
def applyUnary (f : Word → Res Word) : Res Word → Res Word
  | .ok r => f r
  | .fail c => .fail c
  | .fatal c => .fatal c

/-- Two operand outcomes combined (R178): the left `Fatal`, else the right `Fatal`, else the left `Fail`, else the
right `Fail`, else the operator. No short-circuit. -/
def combine (f : Word → Word → Res Word) (a b : Res Word) : Res Word :=
  match a with
  | .fatal c => .fatal c
  | .fail c =>
    match b with
    | .fatal d => .fatal d
    | _ => .fail c
  | .ok x =>
    match b with
    | .fatal d => .fatal d
    | .fail d => .fail d
    | .ok y => f x y

/-- `Operand(T[p])` (R173, R174): a literal's value, a register's content, else `Fail(E_INVALID)`. -/
def operandValue (s : State) (t : Token) : Res Word :=
  match t.kind with
  | .num => .ok (decValue t.text)
  | .hex => .ok (hexValue (t.text.drop 2))
  | .reg => regValue s (t.text.drop 1)
  | _ => .fail .eInvalid

/-- The three answers of `ParenCheck` (R172). -/
inductive ParenShape where
  | bad | wrapped | openRange
  deriving DecidableEq, Repr, Inhabited

/-- How a token changes the depth. -/
def depthChange : TokenKind → Int
  | .lparen => 1
  | .rparen => -1
  | _ => 0

/-- The loop of `ParenCheck` (R172): the final depth and whether the depth was 0 before the last token; `none` for
`BAD` inside the loop. -/
def parenScan : Int → Bool → List Token → Option (Int × Bool)
  | depth, closedEarly, [] => some (depth, closedEarly)
  | depth, closedEarly, t :: ts =>
    let d := depth + depthChange t.kind
    if t.kind = .rparen ∧ d < 0 then none
    else parenScan d (closedEarly || (d == 0 && !ts.isEmpty)) ts

/-- `ParenCheck(T, p, q)` (R172). -/
def parenCheck (ts : List Token) : ParenShape :=
  match parenScan 0 false ts with
  | none => .bad
  | some (depth, closedEarly) =>
    if depth ≠ 0 then .bad
    else if (ts.head?.map Token.kind = some .lparen) ∧ (ts.getLast?.map Token.kind = some .rparen) ∧ closedEarly = false
    then .wrapped
    else .openRange

/-- The loop of `Dominant` (R175) at index `i`, with the best operator so far. -/
def dominantFrom : Int → Option (Nat × TokenKind) → Nat → List Token → Option Nat
  | _, best, _, [] => best.map Prod.fst
  | depth, best, i, t :: ts =>
    if t.kind = .lparen then dominantFrom (depth + 1) best (i + 1) ts
    else if t.kind = .rparen then dominantFrom (depth - 1) best (i + 1) ts
    else if depth = 0 ∧ isOperator t.kind then
      match best with
      | none => dominantFrom depth (some (i, t.kind)) (i + 1) ts
      | some (j, k) =>
        if level t.kind < level k ∨ (level t.kind = level k ∧ isUnary t.kind = false)
        then dominantFrom depth (some (i, t.kind)) (i + 1) ts
        else dominantFrom depth (some (j, k)) (i + 1) ts
    else dominantFrom depth best (i + 1) ts

/-- `Dominant(T, p, q)` (R175): the index, within the range, of the operator evaluated last. -/
def dominant (ts : List Token) : Option Nat := dominantFrom 0 none 0 ts

/-- `Apply(T, p, q, op)` (R176), given how a range is evaluated. -/
def applyAt (P : Params) (m : Memory) (evalRange : List Token → Res Word) (ts : List Token) (op : Nat) : Res Word :=
  match ts[op]? with
  | none => .fail .eInvalid
  | some t =>
    if isUnary t.kind then
      if op ≠ 0 then .fail .eInvalid
      else applyUnary (unaryValue P m t.kind) (evalRange (ts.drop 1))
    else combine (binaryValue t.kind) (evalRange (ts.take op)) (evalRange (ts.drop (op + 1)))

/-- `Eval(T, p, q)` (R171) on the tokens of the range. Every recursive call is on a shorter range (R195), so a `fuel`
above the number of tokens is never used up. -/
def evalRange (P : Params) (s : State) : Nat → List Token → Res Word
  | 0, _ => .fail .eInvalid
  | _ + 1, [] => .fail .eEmptyOperand
  | _ + 1, [t] => operandValue s t
  | fuel + 1, t :: u :: ts =>
    match parenCheck (t :: u :: ts) with
    | .bad => .fail .eParen
    | .wrapped => evalRange P s fuel (u :: ts).dropLast
    | .openRange =>
      match dominant (t :: u :: ts) with
      | none => .fail .eInvalid
      | some op => applyAt P s.mem (evalRange P s fuel) (t :: u :: ts) op

/-- `Eval` with enough fuel for its range. -/
def evalTokens (P : Params) (s : State) (ts : List Token) : Res Word := evalRange P s (ts.length + 1) ts

/-- `Evaluate(s)` (R170). -/
def evaluate (P : Params) (s : State) (text : List Byte) : Res Word :=
  match tokenize P text with
  | .error c => .fail c
  | .ok [] => .fail .eInvalid
  | .ok (t :: ts) => evalTokens P s (t :: ts)

end Sys2Proof.Machine
end

