-- ==== Sys2Proof/Machine/Watch.lean ====
section
/-! DEFINITION. The Watchpoint Manager (spec 44_watchpoint_manager.md): create, delete, scan, list. -/

namespace Sys2Proof.Machine

/-- A slot number as a `u32`. -/
def slotWord (k : Fin 32) : Word := BitVec.ofNat 32 k.val

/-- The allocation primitive (R215): the head of the free list; on an empty list fatal, which no operation reaches. -/
def allocSlot (free : List (Fin 32)) : Except FatalCause (Fin 32 × List (Fin 32)) :=
  match free with
  | [] => .error .poolAllocEmpty
  | k :: rest => .ok (k, rest)

/-- A slot's expression and stored value replaced; its id is fixed (10_state.md R39). -/
def State.fillSlot (s : State) (k : Fin 32) (expr : List Byte) (last : Word) : State :=
  { s with slots := s.slots.set k { s.slots[k] with expr := expr, last := last } }

/-- A slot's stored value replaced. -/
def State.storeLast (s : State) (k : Fin 32) (last : Word) : State :=
  { s with slots := s.slots.set k { s.slots[k] with last := last } }

/-- `WpCreate(text)` (R211, R212): exhaustion first, then evaluation, then the slot at the head of the free list. -/
def wpCreate (P : Params) (s : State) (text : List Byte) : Res State :=
  if s.free.isEmpty then .fail .wPoolFull
  else
    match evaluate P s text with
    | .fatal c => .fatal c
    | .fail c => .fail c
    | .ok v =>
      match allocSlot s.free with
      | .error c => .fatal c
      | .ok (k, rest) =>
        .ok (({ s with free := rest, active := k :: s.active }.fillSlot k text v).respond (.value (slotWord k)))

/-- `WpDelete(id)` (R213, R214): fatal on an empty active list, before the search. -/
def wpDelete (s : State) (id : Word) : Res State :=
  if s.active.isEmpty then .fatal .poolDeleteEmpty
  else
    match s.active.find? (fun k => k.val == id.toNat) with
    | none => .fail .wNotFound
    | some k => .ok (State.respond .ok { s with active := s.active.filter (fun j => j != k), free := k :: s.free })

/-- `WpList()` (R219): id, expression, stored value, in list order; nothing is evaluated. -/
def wpList (s : State) : List (Word × List Byte × Word) :=
  s.active.map fun k => (slotWord k, (s.slots[k]).expr, (s.slots[k]).last)

/-- What a scan finds (R216). -/
inductive ScanResult where
  | quiet
  | fired (k : Fin 32) (old new : Word)
  | fatal (c : FatalCause)
  deriving DecidableEq, Repr

/-- The loop of `Scan` (R216, R217): a failing record is skipped, a fatal one kills the block, the first changed one
fires and ends the scan. -/
def scanFrom (P : Params) (s : State) : List (Fin 32) → ScanResult
  | [] => .quiet
  | k :: ks =>
    match evaluate P s (s.slots[k]).expr with
    | .fatal c => .fatal c
    | .fail _ => scanFrom P s ks
    | .ok v => if v ≠ (s.slots[k]).last then .fired k (s.slots[k]).last v else scanFrom P s ks

/-- `Scan()` (R216) over the active list, head first; what it stores is stored where its result is taken
(`State.afterScan` in Machine/Loop.lean). -/
def scan (P : Params) (s : State) : ScanResult := scanFrom P s s.active

end Sys2Proof.Machine
end

