-- ==== Sys2Proof/Machine/Loop.lean ====
section
/-! DEFINITION. The Execution Loop (spec 41_execution_loop.md): the run request, the call of `Exec`, the per-step
protocol after it, and what the block does next (R132, 45_host_commands.md R230). -/

namespace Sys2Proof.Machine

/-! ### The run request -/

/-- The count that means "run without a budget" (R116, D11). -/
def runForever : Word := 0xFFFFFFFF

/-- The budget of a run request for `n` instructions (R116). -/
def budgetOf (n : Word) : Budget := if n = runForever then .inf else .count n

/-- `Run(n)` up to its loop (R116, R117): while `ENDED` only the report is written; else the run begins, and the
steps that follow are its loop (R132). -/
def State.runRequest (P : Params) (n : Word) (s : State) : State :=
  match s.run with
  | .ended => s.endRun P .cannotContinue
  | _ => { s with run := .running, stopPending := false, budget := budgetOf n, resp := .silent }

/-- No instruction may start any more (R116 `budget != 0`). -/
def Budget.isSpent : Budget → Bool
  | .count n => n == 0
  | .inf => false

/-- One instruction's worth taken off (R116); `INF` stays. -/
def Budget.spend : Budget → Budget
  | .count n => .count (n - 1)
  | .inf => .inf

/-! ### `Exec` -/

/-- The outcomes of `Exec` (R118). -/
inductive ExecOutcome where
  | done (req : Option HaltReq) (d : Done)
  | fault
  | fatal (c : FatalCause)
  deriving DecidableEq, Repr

/-- The instruction table's work carried out on a memory: every access through the translator, an out-of-bounds one
ends it `Fatal`, a `Fault` discards what was written (R120 (a), (c)). -/
def runProg (P : Params) : ExecProg → Memory → ExecOutcome
  | .fault, _ => .fault
  | .done len regs pc fl req, m => .done req { len := len, regs := regs, pc := pc, fl := fl, mem := m }
  | .read kind addr w cont, m =>
    match readAt P m kind addr w with
    | .ok v => runProg P (cont v) m
    | .error c => .fatal c
  | .write kind addr w v cont, m =>
    match writeAt P m kind addr w v with
    | .ok m' => runProg P cont m'
    | .error c => .fatal c

/-- The table's whole work on the instruction at `pc`: the fetch, which is a `MemRead` at `pc` like any other
(40_translator_ops.md R107), and what follows it. So a `pc` out of bounds is a fatal fetch (70_reset_and_hazards.md R287). -/
def fetchProg (pc : Word) (f : InsnFetch) : ExecProg := .read .program pc f.width f.decode

/-- `Exec(x, pc, fl, M)` (R118). -/
def execTable (P : Params) (s : State) : ExecOutcome := runProg P (fetchProg s.pc (P.table s.regs s.pc s.fl)) s.mem

/-- The emulated instruction at `pc`, told apart by what `Exec` returns (30_encoding.md R89), or its fatal
condition (R131). -/
def fetchInsn (P : Params) (s : State) : Except FatalCause Instr :=
  match execTable P s with
  | .done none d => .ok (.insnOrdinary d)
  | .done (some req) d => .ok (.insnBpTrap req d)
  | .fault => .ok .insnFaulting
  | .fatal c => .error c

/-! ### The per-step protocol after `Exec` -/

/-- The effects of a `Done` outcome installed, and its state request (R119, R121). -/
def State.install (req : Option HaltReq) (d : Done) (s : State) : State :=
  { s with
    regs := d.regs, pc := d.pc, fl := d.fl, mem := d.mem
    run := match req with
      | none => s.run
      | some .stop => .stopped
      | some .ended => .ended }

/-- Step 3: `pc <- pc +32 len`, from `pc` as `Exec` left it (R124). -/
def State.advance (len : Word) (s : State) : State := { s with pc := s.pc + len }

/-- The poll of the stop request after step 3 (R128). -/
def State.poll (s : State) : State :=
  if s.stopPending then
    { s with stopPending := false, run := match s.run with | .running => .stopped | r => r }
  else s

/-- Why the run ends at step 6 (R121, R129): what `Exec` asked for, else the stop request. -/
def haltReason : Option HaltReq → Reason
  | some .stop => .execStop
  | some .ended => .execEnd
  | none => .stopReq

/-- Step 6 (R129): a run state that is not `RUNNING` ends the run. -/
def State.closeStep (P : Params) (req : Option HaltReq) (s : State) : State :=
  match s.run with
  | .running => s
  | _ => s.endRun P (haltReason req)

/-- A watchpoint fires (R126, R216): its stored value is updated, `run <- STOPPED` whatever it was (D13), the report
says which and the two values, and the run request returns. -/
def State.fire (k : Fin 32) (old new : Word) (s : State) : State :=
  State.respond .ran
    { s.storeLast k new with
      run := .stopped
      report := { reason := .watch, wpId := slotWord k, old := old, new := new } }

/-- Steps 5 and 6, given what the scan found (R121). -/
def State.afterScan (P : Params) (req : Option HaltReq) (s : State) : ScanResult → State
  | .fatal c => s.raiseFatal c
  | .fired k old new => s.fire k old new
  | .quiet => s.closeStep P req

/-- The per-step protocol from a `Done` outcome on (R121): install, advance, poll, scan, close. Step 4, the trace
record, has no effect on state (R125). -/
def State.complete (P : Params) (req : Option HaltReq) (d : Done) (s : State) : State :=
  let t := ((s.install req d).advance d.len).poll
  t.afterScan P req (scan P t)

/-! ### What the block does next -/

/-- The work of one step. -/
inductive Work where
  /-- Run an instruction, from a state. -/
  | run (i : Instr) (s : State)
  /-- A transition that is no instruction's: silence, a spent budget, a fatal condition of `Exec`. -/
  | move (s : State)
  /-- No transition. -/
  | stuck (r : Fault)
  /-- What stands at the port is no operation. -/
  | refuse (r : Refusal)
  deriving DecidableEq, Repr

/-- One turn of the run loop (R132): the budget's end, else one instruction. -/
def loopWork (P : Params) (s : State) : Work :=
  if s.budget.isSpent then .move (s.stopRun P .budget)
  else
    let t := { s with budget := s.budget.spend }
    match fetchInsn P t with
    | .ok i => .run i t
    | .error c => .move (t.raiseFatal c)

/-- While `RUNNING` the block takes the stop request; any other command waits for the run to return (R132,
45_host_commands.md R230, R245; log 6). -/
def runningWork (P : Params) (s : State) : Work :=
  match s.inputs with
  | .command r :: rest =>
    match decodeCommand r with
    | .cmdStopReq => .run .cmdStopReq { s with inputs := rest }
    | _ => loopWork P s
  | .quiet :: rest => loopWork P { s with inputs := rest }
  | [] => loopWork P s

/-- While not `RUNNING` the block takes the host's next operation (R132); silence changes nothing (log 24). -/
def hostWork (s : State) : Work :=
  match s.inputs with
  | .command r :: rest => .run (decodeCommand r) { s with inputs := rest }
  | .quiet :: rest => .move { s with inputs := rest }
  | [] => .move s

/-- While `fatal` is set only reset is enabled (R132, 60_exceptions.md R268; 70_reset_and_hazards.md R285). A moment of
silence is taken, as it is from a live block, so that a reset after it is reached. A record that is not accepted has
no transition (U16), and what stands behind it is not looked at; with no record to come no reset is to come. That
these two stop the step is the model's choice; log 27. -/
def deadWork (s : State) : Work :=
  match s.inputs with
  | .command r :: rest =>
    match decodeCommand r with
    | .cmdReset => .run .cmdReset { s with inputs := rest }
    | _ => .stuck .blockDead
  | .quiet :: rest => .move { s with inputs := rest }
  | [] => .stuck .blockDead

/-- A request at a unit's port; text that no token rule matches is a tokenization failure at its first byte
(42_expression_tokenizer.md R162). -/
def unitWork (s : State) (u : UnitRequest) : Work :=
  match decodeUnit u with
  | .ok i => .run i { s with unitReq := none }
  | .error .noTokenRule => .move (State.raiseFail (.eTokenize 0) { s with unitReq := none })
  | .error _ => .refuse .invalidRequest

/-- What the block does next. -/
def nextWork (P : Params) (s : State) : Work :=
  match s.fatal, s.unitReq, s.run with
  | some _, _, _ => deadWork s
  | none, some u, _ => unitWork s u
  | none, none, .running => runningWork P s
  | none, none, .stopped => hostWork s
  | none, none, .ended => hostWork s

/-! ### Presenting one request -/

/-- `s` made ready to take the request `p` next: the request where the block looks first, and, only where the block
would not take it, the latch or the run that keeps it from being taken put away (log 14). -/
def State.present (s : State) (p : PortWord) : State :=
  match p with
  | .unit u => { s with unitReq := some u, fatal := none }
  | .command r =>
    { s with
      unitReq := none
      fatal := none
      run := match s.run, decodeCommand r with
        | .running, .cmdStopReq => .running
        | .running, _ => .stopped
        | .stopped, _ => .stopped
        | .ended, _ => .ended
      inputs := .command r :: s.inputs }

end Sys2Proof.Machine
end

