-- ==== Sys2Proof/Machine/Command.lean ====
section
/-! DEFINITION. The meanings of the host operations (spec 45_host_commands.md; the stop request
41_execution_loop.md R127; reset 70_reset_and_hazards.md R285). -/

namespace Sys2Proof.Machine

/-- An evaluation's outcome delivered: its value, its failure, or the fatal condition (R233). -/
def State.deliverValue (s : State) : Res Word → State
  | .ok v => s.respond (.value v)
  | .fail c => s.raiseFail c
  | .fatal c => s.raiseFatal c

/-- `N` dwords from `addr` on, the address wrapping modulo 2^32; the first out-of-bounds one is fatal and nothing is
delivered (R235). -/
def examineFrom (P : Params) (m : Memory) : Nat → Word → Except FatalCause (List Word)
  | 0, _ => .ok []
  | n + 1, addr =>
    match memReadOp P m addr .four with
    | .error c => .error c
    | .ok v =>
      match examineFrom P m n (addr + 4) with
      | .error c => .error c
      | .ok vs => .ok (v :: vs)

/-- The dump delivered, or the fatal condition. -/
def State.deliverDump (s : State) : Except FatalCause (List Word) → State
  | .ok vs => s.respond (.values vs)
  | .error c => s.raiseFatal c

/-- The eight 32-bit views in index order, the instruction pointer, the packed flags (R238). -/
def State.registerDump (s : State) : List Word := s.regs.toList ++ [s.pc, s.fl]

/-- The width of a `CMD_MEM_READ`: the byte count (R239). -/
def widthOfCount (n : Word) : Option Width :=
  if n = 1 then some .one else if n = 2 then some .two else if n = 4 then some .four else none

/-- `CMD_CONTINUE` (R231): `Run(RUN_FOREVER)`. -/
def execCmdContinue (s : State) : Result := s.hostOp (State.runRequest Config.machine runForever)

/-- `CMD_STEP` (R232): `Run(N)`. -/
def execCmdStep (n : Word) (s : State) : Result := s.hostOp (State.runRequest Config.machine n)

/-- `CMD_PRINT` (R233). -/
def execCmdPrint (text : List Byte) (s : State) : Result :=
  s.hostOp fun s => s.deliverValue (evaluate Config.machine s text)

/-- `CMD_EXAMINE` (R235). -/
def execCmdExamine (n addr : Word) (s : State) : Result :=
  s.hostOp fun s => s.deliverDump (examineFrom Config.machine s.mem n.toNat addr)

/-- `CMD_WATCH` (R236). -/
def execCmdWatch (text : List Byte) (s : State) : Result :=
  s.hostOp fun s => s.settle (wpCreate Config.machine s text)

/-- `CMD_DELETE` (R237). -/
def execCmdDelete (id : Word) (s : State) : Result := s.hostOp fun s => s.settle (wpDelete s id)

/-- `CMD_INFO_REGISTERS` (R238). -/
def execCmdInfoRegisters (s : State) : Result := s.hostOp fun s => s.respond (.values s.registerDump)

/-- `CMD_INFO_WATCHPOINTS` (R240). -/
def execCmdInfoWatchpoints (s : State) : Result := s.hostOp fun s => s.respond (.listing (wpList s))

/-- `CMD_QUIT` (R241): no state of the block changes. -/
def execCmdQuit (s : State) : Result := s.hostOp fun s => s.respond .ok

/-- `CMD_REG_READ` (R242). -/
def execCmdRegRead (sel : BitVec 7) (s : State) : Result :=
  s.hostOp fun s =>
    match selectorView sel with
    | some v => s.respond (.value (s.readView v))
    | none => s.raiseFail .eBadCommand

/-- `CMD_REG_WRITE` (R243). -/
def execCmdRegWrite (sel : BitVec 7) (b : Word) (s : State) : Result :=
  s.hostOp fun s =>
    match selectorView sel with
    | some v => (s.writeView v b).respond .ok
    | none => s.raiseFail .eBadCommand

/-- `CMD_MEM_READ` (R239). -/
def execCmdMemRead (addr n : Word) (s : State) : Result :=
  s.hostOp fun s =>
    match widthOfCount n with
    | some w => s.deliverRead (memReadOp Config.machine s.mem addr w)
    | none => s.raiseFail .eBadCommand

/-- `CMD_STOP_REQ` (41_execution_loop.md R127): the latch is set while `RUNNING`; else the request is ignored. The
host gets nothing back (R245). -/
def execCmdStopReq (s : State) : Result :=
  s.liveOp fun s =>
    match s.run with
    | .running => { s with stopPending := true }
    | .stopped => s
    | .ended => s

/-- `CMD_RESET` (70_reset_and_hazards.md R285): accepted whenever no operation is in progress, and also when
`fatal = 1`; a run in progress is an operation in progress (R230; log 11). -/
def execCmdReset (s : State) : Result :=
  match s.fatal, s.run with
  | none, .running => .fault .notEnabled
  | none, .stopped => .next (s.restart Config.machine)
  | none, .ended => .next (s.restart Config.machine)
  | some _, _ => .next (s.restart Config.machine)

/-- A reserved operation code (30_encoding.md R85): `Fail(E_BAD_COMMAND)`, no state change. -/
def execCmdReserved (_op : Byte) (s : State) : Result := s.hostOp (State.raiseFail .eBadCommand)

end Sys2Proof.Machine
end

