-- ==== Sys2Proof/Machine/Insn.lean ====
section
/-! DEFINITION. The meanings of the three classes of emulated instruction (spec 41_execution_loop.md R130, R134, R136):
what the loop does with the outcome of `Exec`. -/

namespace Sys2Proof.Machine

/-- `INSN_ORDINARY` (R136): `Done` with no request; the per-step protocol (R121). -/
def execInsnOrdinary (d : Done) (s : State) : Result := s.loopOp (State.complete Config.machine none d)

/-- `INSN_BP_TRAP` (R134): `Done` with a request to leave `RUNNING`, `STOP` of the breakpoint trap or `END` (R119);
its effects and its length are applied all the same. -/
def execInsnBpTrap (req : HaltReq) (d : Done) (s : State) : Result :=
  s.loopOp (State.complete Config.machine (some req) d)

/-- `INSN_FAULTING` (R130): the fault unwind. -/
def execInsnFaulting (s : State) : Result := s.loopOp (State.unwindFault Config.machine)

end Sys2Proof.Machine
end

