-- ==== Sys2Proof/Machine/Operator.lean ====
section
/-! DEFINITION. The meanings of the evaluator's operators and operands (spec 43_expression_evaluator.md R173, R174,
R181 to R191), each on the values of its operand ranges: the result is delivered, no state of the block is written. -/

namespace Sys2Proof.Machine

/-- `XOP_NOT` (R181). -/
def execXopNot (r : Word) (s : State) : Result := s.liveOp fun s => s.respond (.value (notValue r))

/-- `XOP_NEG` (R182). -/
def execXopNeg (r : Word) (s : State) : Result := s.liveOp fun s => s.respond (.value (negValue r))

/-- `XOP_DEREF` (R183). -/
def execXopDeref (r : Word) (s : State) : Result := s.liveOp fun s => s.deliverValue (derefValue Config.machine s.mem r)

/-- `XOP_MUL` (R184). -/
def execXopMul (a b : Word) (s : State) : Result := s.liveOp fun s => s.respond (.value (mulValue a b))

/-- `XOP_DIV` (R185). -/
def execXopDiv (a b : Word) (s : State) : Result := s.liveOp fun s => s.deliverValue (divValue a b)

/-- `XOP_ADD` (R186). -/
def execXopAdd (a b : Word) (s : State) : Result := s.liveOp fun s => s.respond (.value (addValue a b))

/-- `XOP_SUB` (R187). -/
def execXopSub (a b : Word) (s : State) : Result := s.liveOp fun s => s.respond (.value (subValue a b))

/-- `XOP_EQ` (R188). -/
def execXopEq (a b : Word) (s : State) : Result := s.liveOp fun s => s.respond (.value (eqValue a b))

/-- `XOP_NE` (R189). -/
def execXopNe (a b : Word) (s : State) : Result := s.liveOp fun s => s.respond (.value (neValue a b))

/-- `XOP_AND` (R190). -/
def execXopAnd (a b : Word) (s : State) : Result := s.liveOp fun s => s.respond (.value (andValue a b))

/-- `XOP_OR` (R191). -/
def execXopOr (a b : Word) (s : State) : Result := s.liveOp fun s => s.respond (.value (orValue a b))

/-- `OPERAND_NUM` (R173). -/
def execOperandNum (digits : List Byte) (s : State) : Result := s.liveOp fun s => s.respond (.value (decValue digits))

/-- `OPERAND_HEX` (R173). -/
def execOperandHex (digits : List Byte) (s : State) : Result := s.liveOp fun s => s.respond (.value (hexValue digits))

/-- `OPERAND_REG` (R174). -/
def execOperandReg (name : List Byte) (s : State) : Result := s.liveOp fun s => s.deliverValue (regValue s name)

end Sys2Proof.Machine
end

