-- ==== Sys2Proof/Machine/TokenRule.lean ====
section
/-! DEFINITION. The meanings of the token rules (spec 42_expression_tokenizer.md R147 to R161). A rule writes no state
of the block: what it emits and how far it moves is delivered to the tokenizer, which `tokenizeFrom` is. -/

namespace Sys2Proof.Machine

/-- A token rule's result delivered. -/
def State.deliverToken (e : Emission) (s : State) : State := s.respond (.token e.tok e.len)

/-- `T_WS` (R147). -/
def execTWs (run : List Byte) (s : State) : Result := s.liveOp (State.deliverToken (emitWs run))

/-- `T_EQ` (R148). -/
def execTEq (s : State) : Result := s.liveOp (State.deliverToken emitEq)

/-- `T_NE` (R149). -/
def execTNe (s : State) : Result := s.liveOp (State.deliverToken emitNe)

/-- `T_AND` (R150). -/
def execTAnd (s : State) : Result := s.liveOp (State.deliverToken emitAnd)

/-- `T_OR` (R151). -/
def execTOr (s : State) : Result := s.liveOp (State.deliverToken emitOr)

/-- `T_NOT` (R152). -/
def execTNot (s : State) : Result := s.liveOp (State.deliverToken emitNot)

/-- `T_PLUS` (R153). -/
def execTPlus (s : State) : Result := s.liveOp (State.deliverToken emitPlus)

/-- `T_MINUS` (R154). -/
def execTMinus (s : State) : Result := s.liveOp (State.deliverToken emitMinus)

/-- `T_STAR` (R155). -/
def execTStar (s : State) : Result := s.liveOp (State.deliverToken emitStar)

/-- `T_SLASH` (R156). -/
def execTSlash (s : State) : Result := s.liveOp (State.deliverToken emitSlash)

/-- `T_LPAREN` (R157). -/
def execTLparen (s : State) : Result := s.liveOp (State.deliverToken emitLparen)

/-- `T_RPAREN` (R158). -/
def execTRparen (s : State) : Result := s.liveOp (State.deliverToken emitRparen)

/-- `T_HEX` (R159). -/
def execTHex (digits : List Byte) (s : State) : Result := s.liveOp (State.deliverToken (emitHex digits))

/-- `T_DEC` (R160). -/
def execTDec (digits : List Byte) (s : State) : Result := s.liveOp (State.deliverToken (emitDec digits))

/-- `T_REG` (R161). -/
def execTReg (name : List Byte) (s : State) : Result := s.liveOp (State.deliverToken (emitReg name))

end Sys2Proof.Machine
end

