-- ==== Sys2Proof/Machine/Translator.lean ====
section
/-! DEFINITION. The meanings of the translator operations (spec 40_translator_ops.md R100 to R105). -/

namespace Sys2Proof.Machine

/-- `MemRead` (R100). -/
def execMemRead (addr : Word) (w : Width) (s : State) : Result :=
  s.liveOp fun s => s.deliverRead (memReadOp Config.machine s.mem addr w)

/-- `MemWrite` (R101). -/
def execMemWrite (addr : Word) (w : Width) (v : Word) (s : State) : Result :=
  s.liveOp fun s => s.deliverWrite (memWriteOp Config.machine s.mem addr w v)

/-- `LinRead` (R102). -/
def execLinRead (addr : Word) (w : Width) (s : State) : Result :=
  s.liveOp fun s => s.deliverRead (linReadOp Config.machine s.mem addr w)

/-- `LinWrite` (R103). -/
def execLinWrite (addr : Word) (w : Width) (v : Word) (s : State) : Result :=
  s.liveOp fun s => s.deliverWrite (linWriteOp Config.machine s.mem addr w v)

/-- `HostRead` (R104). -/
def execHostRead (addr : Word) (w : Width) (s : State) : Result :=
  s.liveOp fun s => s.deliverRead (hostReadOp Config.machine s.mem addr w)

/-- `HostWrite` (R105). -/
def execHostWrite (addr : Word) (w : Width) (v : Word) (s : State) : Result :=
  s.liveOp fun s => s.deliverWrite (hostWriteOp Config.machine s.mem addr w v)

end Sys2Proof.Machine
end

