-- ==== Sys2Proof/Machine/Dispatch.lean ====
section
/-! DEFINITION. The dispatch: one arm per constructor of `Instr`, each one direct call of its meaning. -/

namespace Sys2Proof.Machine

def exec (i : Instr) (s : State) : Host.Outcome State Fault Refusal :=
  match i with
  | .cmdContinue => Sys2Proof.Machine.execCmdContinue s
  | .cmdStep n => Sys2Proof.Machine.execCmdStep n s
  | .cmdPrint text => Sys2Proof.Machine.execCmdPrint text s
  | .cmdExamine n addr => Sys2Proof.Machine.execCmdExamine n addr s
  | .cmdWatch text => Sys2Proof.Machine.execCmdWatch text s
  | .cmdDelete id => Sys2Proof.Machine.execCmdDelete id s
  | .cmdInfoRegisters => Sys2Proof.Machine.execCmdInfoRegisters s
  | .cmdInfoWatchpoints => Sys2Proof.Machine.execCmdInfoWatchpoints s
  | .cmdQuit => Sys2Proof.Machine.execCmdQuit s
  | .cmdRegRead sel => Sys2Proof.Machine.execCmdRegRead sel s
  | .cmdRegWrite sel v => Sys2Proof.Machine.execCmdRegWrite sel v s
  | .cmdMemRead addr n => Sys2Proof.Machine.execCmdMemRead addr n s
  | .cmdStopReq => Sys2Proof.Machine.execCmdStopReq s
  | .cmdReset => Sys2Proof.Machine.execCmdReset s
  | .cmdReserved op => Sys2Proof.Machine.execCmdReserved op s
  | .tWs run => Sys2Proof.Machine.execTWs run s
  | .tEq => Sys2Proof.Machine.execTEq s
  | .tNe => Sys2Proof.Machine.execTNe s
  | .tAnd => Sys2Proof.Machine.execTAnd s
  | .tOr => Sys2Proof.Machine.execTOr s
  | .tNot => Sys2Proof.Machine.execTNot s
  | .tPlus => Sys2Proof.Machine.execTPlus s
  | .tMinus => Sys2Proof.Machine.execTMinus s
  | .tStar => Sys2Proof.Machine.execTStar s
  | .tSlash => Sys2Proof.Machine.execTSlash s
  | .tLparen => Sys2Proof.Machine.execTLparen s
  | .tRparen => Sys2Proof.Machine.execTRparen s
  | .tHex digits => Sys2Proof.Machine.execTHex digits s
  | .tDec digits => Sys2Proof.Machine.execTDec digits s
  | .tReg name => Sys2Proof.Machine.execTReg name s
  | .xopNot r => Sys2Proof.Machine.execXopNot r s
  | .xopNeg r => Sys2Proof.Machine.execXopNeg r s
  | .xopDeref r => Sys2Proof.Machine.execXopDeref r s
  | .xopMul a b => Sys2Proof.Machine.execXopMul a b s
  | .xopDiv a b => Sys2Proof.Machine.execXopDiv a b s
  | .xopAdd a b => Sys2Proof.Machine.execXopAdd a b s
  | .xopSub a b => Sys2Proof.Machine.execXopSub a b s
  | .xopEq a b => Sys2Proof.Machine.execXopEq a b s
  | .xopNe a b => Sys2Proof.Machine.execXopNe a b s
  | .xopAnd a b => Sys2Proof.Machine.execXopAnd a b s
  | .xopOr a b => Sys2Proof.Machine.execXopOr a b s
  | .operandNum digits => Sys2Proof.Machine.execOperandNum digits s
  | .operandHex digits => Sys2Proof.Machine.execOperandHex digits s
  | .operandReg name => Sys2Proof.Machine.execOperandReg name s
  | .memRead addr w => Sys2Proof.Machine.execMemRead addr w s
  | .memWrite addr w v => Sys2Proof.Machine.execMemWrite addr w v s
  | .linRead addr w => Sys2Proof.Machine.execLinRead addr w s
  | .linWrite addr w v => Sys2Proof.Machine.execLinWrite addr w v s
  | .hostRead addr w => Sys2Proof.Machine.execHostRead addr w s
  | .hostWrite addr w v => Sys2Proof.Machine.execHostWrite addr w v s
  | .insnOrdinary d => Sys2Proof.Machine.execInsnOrdinary d s
  | .insnBpTrap req d => Sys2Proof.Machine.execInsnBpTrap req d s
  | .insnFaulting => Sys2Proof.Machine.execInsnFaulting s

end Sys2Proof.Machine
end

