-- ==== Sys2Proof/Machine/Step.lean ====
section
/-! DEFINITION. One step of the block (spec 41_execution_loop.md R132, 00_scope.md R5): the work that stands next is
chosen in Machine/Loop.lean, an instruction is run by `exec`. -/

namespace Sys2Proof.Machine

/-- Work carried out. -/
def Work.perform : Work → Host.Outcome State Fault Refusal
  | .run i s => exec i s
  | .move s => .next s
  | .stuck r => .fault r
  | .refuse r => .refused r

/-- One step. -/
def step (s : State) : Host.Outcome State Fault Refusal := (nextWork Config.machine s).perform

/-- `s` with the request of an opcode-table word where the next step takes it (log 14, log 15). -/
def State.withFetchWord (s : State) (nbits w : Nat) : State := s.present (tableRequest nbits w)

end Sys2Proof.Machine
end

