-- ==== Sys2Proof/Machine/Grammar.lean ====
section
/-! DEFINITION. The expression language as a grammar (spec 30_encoding.md R81), on tokens after the post-pass, with
its parse trees and their values; and when a token may stand before a text without merging into it (R73, R74). The
normative definition of evaluation is Machine/Evaluator.lean; the statements say that the two agree. With them the
scan of a text as a relation, and the depth of parentheses, which the statements speak of. -/

namespace Sys2Proof.Machine

/-- A parse tree. -/
inductive ExprTree where
  | operand (t : Token)
  | unary (k : TokenKind) (e : ExprTree)
  | binary (k : TokenKind) (l r : ExprTree)
  deriving Repr

/-- The value of a parse tree, by the operators' own rules (43_expression_evaluator.md R173 to R191). -/
def treeValue (P : Params) (s : State) : ExprTree → Res Word
  | .operand t => operandValue s t
  | .unary k e => applyUnary (unaryValue P s.mem k) (treeValue P s e)
  | .binary k l r => combine (binaryValue k) (treeValue P s l) (treeValue P s r)

/-- The grammar of R81. The nonterminals `or`, `and`, `eq`, `add`, `mul`, `unary`, `primary` are the numbers 1 to 7, a
binary operator's own level (R79) being the number of the nonterminal that repeats it. -/
inductive Derives : Nat → List Token → ExprTree → Prop where
  /-- `primary := NUM | HEX | REG`. -/
  | operand (t : Token) (h : t.kind = .num ∨ t.kind = .hex ∨ t.kind = .reg) : Derives 7 [t] (.operand t)
  /-- `primary := "(" expr ")"`. -/
  | paren (o c : Token) (ts : List Token) (e : ExprTree) (ho : o.kind = .lparen) (hc : c.kind = .rparen)
      (h : Derives 1 ts e) : Derives 7 (o :: (ts ++ [c])) e
  /-- `unary := ("!" | "-" | "*") unary`. -/
  | unaryOp (t : Token) (ts : List Token) (e : ExprTree) (ht : isUnary t.kind = true) (h : Derives 6 ts e) :
      Derives 6 (t :: ts) (.unary t.kind e)
  /-- `or := and { "||" and }` and the four like it, associating to the left. -/
  | binaryOp (l : Nat) (t : Token) (as bs : List Token) (a b : ExprTree) (hop : isOperator t.kind = true)
      (hun : isUnary t.kind = false) (hl : level t.kind = l) (ha : Derives l as a) (hb : Derives (l + 1) bs b) :
      Derives l (as ++ t :: bs) (.binary t.kind a b)
  /-- A nonterminal with no repetition of its operator is the next one. -/
  | weaken (l : Nat) (ts : List Token) (e : ExprTree) (h1 : 1 ≤ l) (h7 : l < 7) (h : Derives (l + 1) ts e) :
      Derives l ts e

/-- Whether a text after a token starts with a byte of a class. -/
def startsWith (p : Byte → Bool) : List Byte → Bool
  | [] => false
  | b :: _ => p b

/-- Whether the token of a rule ends where the text `rest` after it begins: no byte of `rest` lengthens the match, and
no rule of a higher priority matches the token and what follows (R73, R74). -/
def endsBefore (i : Instr) (rest : List Byte) : Bool :=
  match i with
  | .tWs _ => !startsWith isBlank rest
  | .tNot => !startsWith (fun b => b == 0x3D) rest
  | .tHex _ => !startsWith isHexDigit rest
  | .tDec digits =>
    !startsWith isDecDigit rest &&
      !(digits == [0x30] && startsWith (fun b => b == 0x78) rest && startsWith isHexDigit (rest.drop 1))
  | .tReg _ => !startsWith isLower rest
  | _ => true

/-- How deep in parentheses the end of a token range stands (43_expression_evaluator.md R172, R175). -/
def nesting (ts : List Token) : Int := (ts.map fun t => depthChange t.kind).sum

/-- The scan of a text by the rule list, as a relation: the instructions of the rules that matched, in order, and what
is left of the text after them (42_expression_tokenizer.md R145). -/
inductive Lexes : List Byte → List Instr → List Byte → Prop where
  | stop (bs : List Byte) : Lexes bs [] bs
  | rule (bs rest last : List Byte) (i : Instr) (is : List Instr) (h : decodeToken bs = some (i, rest))
      (hl : Lexes rest is last) : Lexes bs (i :: is) last

end Sys2Proof.Machine
end

