-- ==== Sys2Proof/Safety.lean ====
section
/-! DEFINITION. What counts as a sound state and a safe run, in the terms the statements use. -/

namespace Sys2Proof.Machine

/-- No fatal condition has been raised (spec 60_exceptions.md R268). -/
def State.Live (s : State) : Prop := s.fatal = none

/-- The block takes the host's operations: live and not `RUNNING` (45_host_commands.md R230). -/
def State.Accepts (s : State) : Prop := s.fatal = none ∧ s.run ≠ .running

/-- The block is in a run: live and `RUNNING` (41_execution_loop.md R132). -/
def State.InRun (s : State) : Prop := s.fatal = none ∧ s.run = .running

/-- No request stands at a unit's port: so it is in every run from reset (log 7). -/
def State.PortQuiet (s : State) : Prop := s.unitReq = none

/-- The next thing the host does is not the stop request (41_execution_loop.md R132). -/
def State.NoStopRequest (s : State) : Prop :=
  ∀ r rest, s.inputs = .command r :: rest → decodeCommand r ≠ .cmdStopReq

/-- `s` with a moment of silence of the host taken, where one stands next (log 6). -/
def State.takeQuiet (s : State) : State :=
  { s with inputs := match s.inputs with
      | .quiet :: rest => rest
      | l => l }

/-- The pool's core invariant (10_state.md R40): `wp.active ++ wp.free` is a permutation of the 32 slots. -/
def State.PoolPartition (s : State) : Prop := (s.active ++ s.free).Perm (List.finRange 32)

/-- Slot `s` has the id `s` (10_state.md R39). -/
def State.SlotIds (s : State) : Prop := ∀ k : Fin 32, (s.slots[k]).id = slotWord k

/-- No stored expression is over `EXPR_MAX_LEN` (10_state.md R39). -/
def State.ExprsFit (P : Params) (s : State) : Prop :=
  ∀ k : Fin 32, overLimit (s.slots[k]).expr.length P.exprMaxLen = false

/-- The expression of every active watchpoint tokenizes (42_expression_tokenizer.md R166). -/
def State.ActiveTokenize (P : Params) (s : State) : Prop :=
  ∀ k ∈ s.active, ∃ ts, tokenize P (s.slots[k]).expr = .ok ts

/-- The sound states of the machine `P`. -/
structure State.SoundFor (P : Params) (s : State) : Prop where
  memory : Memory.wf P s.mem = true
  pool : s.PoolPartition
  ids : s.SlotIds
  exprs : s.ExprsFit P
  tokenize : s.ActiveTokenize P
  port : s.PortQuiet

/-- The sound states of the model's machine. -/
def State.Sound (s : State) : Prop := s.SoundFor Config.machine

end Sys2Proof.Machine
end

