-- ==== Sys2Proof/Certificates/Slice0/Obligations.lean ====
section
/-! DEFINITION. The statements for the provers. Every docstring says which sentence of spec/ a statement formalises and
where it rests on a choice of the model (log <n> is notes/assumptions/<n>.md) or on a decision of the spec
(D<n> of 92_eei_decisions.md). After a fatal condition a statement speaks of the latch alone
(93_implementation_defined.md U7), but that a fatal write changes no byte (R105). Where the spec leaves a value of the
report open (U17) a statement says only that there is one. -/

open Sys2Proof Sys2Proof.Machine

/-! ### What one step runs, and decoding -/

/-- While the block takes host operations, a step runs what the decoder reads from the host's next record, on the
state with that record taken (41_execution_loop.md R132, 45_host_commands.md R230; the host's records to come are a
field of the model, log 6). No request stands at a unit's port: so it is in every run from reset (log 7). -/
def Obligations.StepRunsTheHostsNextOperation : Prop :=
  ∀ (s : State) (r : CmdRecord) (rest : List HostInput), s.Accepts → s.PortQuiet → s.inputs = .command r :: rest →
    ∃ i, decode (.command r) = .ok i ∧ i.wf = true ∧ step s = exec i { s with inputs := rest }

/-- A request at a unit's port is run before anything else; text with no token at its start is a tokenization failure,
and a record that is no operation is refused: of the translator by U15 and 30_encoding.md R87. The model's choice are the
port (log 7), position 0 of that failure (log 25), and what the evaluator's record holds and so which of its kinds and
operand texts are refused (log 20). -/
def Obligations.StepRunsTheUnitRequest : Prop :=
  ∀ (s : State) (u : UnitRequest), s.Live → s.unitReq = some u →
    (∀ i, decode (.unit u) = .ok i → step s = exec i { s with unitReq := none }) ∧
    (decode (.unit u) = .error .noTokenRule →
      step s = .next { s with unitReq := none, resp := .fail (.eTokenize 0) }) ∧
    (∀ e, e ≠ .noTokenRule → decode (.unit u) = .error e → step s = .refused .invalidRequest)

/-- While `RUNNING` with budget left, a step takes one off the budget and runs the instruction that `Exec` finds at
`pc`, told apart by its outcome on the registers, `pc`, the flags and the memory as they stand: done with no request,
done with a request to leave `RUNNING`, or a fault; where `Exec` is fatal the latch is set (41_execution_loop.md R116, R118,
R119, R131, R132, 30_encoding.md R89). It begins with a `MemRead` at `pc`, at a width of its own, so a `pc` outside the store
is a fatal fetch (40_translator_ops.md R107, 10_state.md R29, 70_reset_and_hazards.md R287; that this read comes first is
log 28). -/
def Obligations.StepRunsTheFetchedInstruction : Prop :=
  (∀ (P : Params) (s : State),
    let table := P.table s.regs s.pc s.fl
    let outcome := runProg P (.read .program s.pc table.width table.decode) s.mem
    (∀ d, fetchInsn P s = .ok (.insnOrdinary d) ↔ outcome = .done none d) ∧
    (∀ q d, fetchInsn P s = .ok (.insnBpTrap q d) ↔ outcome = .done (some q) d) ∧
    (fetchInsn P s = .ok .insnFaulting ↔ outcome = .fault) ∧
    (∀ c, fetchInsn P s = .error c ↔ outcome = .fatal c) ∧
    (P.capacity ≤ s.pc.toNat → fetchInsn P s = .error (.oobAccess s.pc table.width false))) ∧
  ∀ s : State, s.InRun → s.PortQuiet → s.NoStopRequest → s.budget.isSpent = false →
    let t : State := { s.takeQuiet with budget := s.budget.spend }
    (∀ i, fetchInsn Config.machine t = .ok i → step s = exec i t) ∧
    (∀ c, fetchInsn Config.machine t = .error c → ∃ u, step s = .next u ∧ u.fatal = some c) ∧
    (Config.machine.capacity ≤ s.pc.toNat →
      ∃ u w, step s = .next u ∧ u.fatal = some (.oobAccess s.pc w false))

/-- A stop request that arrives while `RUNNING` is taken before the next instruction: it sets `stop_pending` and
nothing else (41_execution_loop.md R127, D12; that it arrives between steps is log 21). -/
def Obligations.RunningBlockTakesTheStopRequest : Prop :=
  ∀ (s : State) (r : CmdRecord) (rest : List HostInput), s.InRun → s.PortQuiet → s.inputs = .command r :: rest →
    r.op = 0x0D → step s = .next { s with inputs := rest, stopPending := true }

/-- When the budget is zero and `run` is still `RUNNING`, `run` becomes `STOPPED` with reason `BUDGET`, and no
instruction is run (41_execution_loop.md R129, R132). -/
def Obligations.SpentBudgetEndsTheRun : Prop :=
  ∀ s : State, s.InRun → s.PortQuiet → s.NoStopRequest → s.budget = .count 0 →
    ∃ w o n k, step s = .next
      { s.takeQuiet with run := .stopped, report := ⟨.budget, w, o, n⟩, resp := .ran, freeCount := k }

/-- The dead block (60_exceptions.md R268): once a fatal condition has been raised no operation has an effect, and a
step takes nothing but `CMD_RESET` (D29). A moment of the host's silence passes and leaves the latch as it was; that the
step stops on a record that is not accepted, or with none to come, is the model's choice (log 27). -/
def Obligations.DeadBlockTakesOnlyReset : Prop :=
  ∀ (s : State) (c : FatalCause), s.fatal = some c →
    (∀ i, i ≠ .cmdReset → exec i s = .fault .blockDead) ∧
    (∀ r rest, s.inputs = .command r :: rest → r.op = 0x0E → step s = exec .cmdReset { s with inputs := rest }) ∧
    (∀ rest, s.inputs = .quiet :: rest → ∃ t, step s = .next t ∧ t.fatal = some c ∧ t.inputs = rest) ∧
    ((∀ r rest, s.inputs = .command r :: rest → r.op ≠ 0x0E) → (∀ rest, s.inputs ≠ .quiet :: rest) →
      step s = .fault .blockDead)

/-- An operation that is not accepted has no transition (45_host_commands.md R230, U16): every host operation but the
stop request while `RUNNING` (for `CMD_RESET`, log 11), and an instruction step while not `RUNNING`
(41_execution_loop.md R132). -/
def Obligations.UnacceptedOperationsHaveNoTransition : Prop :=
  (∀ (s : State) (text : List Byte) (a b : Word) (sel : BitVec 7) (op : Byte), s.InRun →
    ∀ i ∈ [Instr.cmdContinue, .cmdStep a, .cmdPrint text, .cmdExamine a b, .cmdWatch text, .cmdDelete a,
      .cmdInfoRegisters, .cmdInfoWatchpoints, .cmdQuit, .cmdRegRead sel, .cmdRegWrite sel b, .cmdMemRead a b,
      .cmdReset, .cmdReserved op], exec i s = .fault .notEnabled) ∧
  (∀ (s : State) (q : HaltReq) (d : Done), s.Accepts →
    ∀ i ∈ [Instr.insnOrdinary d, .insnBpTrap q d, .insnFaulting], exec i s = .fault .notEnabled)

/-- A live block always has a next state: while no request stands at a unit's port, no step of a live block ends in a
stop (00_scope.md R6, 41_execution_loop.md R132; a silent host is log 24). -/
def Obligations.LiveBlockAlwaysSteps : Prop :=
  ∀ s : State, s.Live → s.PortQuiet → ∃ t, step s = .next t

/-- Records and texts written out from the tables of 30_encoding.md (R73, R83, R86, R87, R72) and a few words of the
opcode table decode to the instruction they stand for. Which port a word of the table names is the model's choice (log 15),
and so are the fields of an evaluator's record beside its kind code (log 20). -/
def Obligations.WordsOfTheTablesDecode : Prop :=
  decode (.command ⟨0x02, 3, 0, []⟩) = .ok (.cmdStep 3) ∧
  decode (.command ⟨0x04, 2, 0x100, []⟩) = .ok (.cmdExamine 2 0x100) ∧
  decode (.command ⟨0x0B, 0x10, 0x1FF, []⟩) = .ok (.cmdRegWrite 0x10 0x1FF) ∧
  decode (.command ⟨0xFF, 1, 2, []⟩) = .ok (.cmdReserved 0xFF) ∧
  decode (.unit (.xlat ⟨0, true, 4, 0x20, 0x11223344⟩)) = .ok (.memWrite 0x20 .four 0x11223344) ∧
  decode (.unit (.xlat ⟨1, false, 2, 0x31, 0⟩)) = .ok (.linRead 0x31 .two) ∧
  decode (.unit (.xlat ⟨2, false, 1, 0xFFF, 0⟩)) = .ok (.hostRead 0xFFF .one) ∧
  decode (.unit (.xlat ⟨3, false, 1, 0, 0⟩)) = .error .invalidKind ∧
  decode (.unit (.xlat ⟨0, false, 3, 0, 0⟩)) = .error .invalidWidth ∧
  decode (.unit (.xop ⟨0x0C, 5, 2, []⟩)) = .ok (.xopSub 5 2) ∧
  decode (.unit (.xop ⟨0x10, 0x200, 0, []⟩)) = .ok (.xopDeref 0x200) ∧
  decode (.unit (.text [0x21, 0x3D, 0x31])) = .ok .tNe ∧
  decode (.unit (.text [0x21, 0x20, 0x3D])) = .ok .tNot ∧
  decode (.unit (.text [0x30, 0x78, 0x31, 0x46, 0x67])) = .ok (.tHex [0x31, 0x46]) ∧
  decode (.unit (.text [0x30, 0x78, 0x67])) = .ok (.tDec [0x30]) ∧
  decode (.unit (.text [0x24, 0x65, 0x61, 0x58])) = .ok (.tReg [0x65, 0x61]) ∧
  decode (.unit (.text [0x3D, 0x31])) = .error .noTokenRule ∧
  decodeTableWord 8 0x09 = some .cmdQuit ∧ decodeTableWord 16 0x7C7C = some .tOr ∧
  decodeTableWord 5 0x0A = some (.xopNot 0)

/-- DECODE AND ENCODE AGREE, for every instruction: a well-formed instruction that has words decodes from them to
itself, with every operand at every value (30_encoding.md R72, R73, R82, R83, R85, R86, R87). The classes of emulated
instruction have no words (R88). The fields of an evaluator's record beside its kind code are the model's choice
(log 20). -/
def Obligations.EncodedInstructionsDecodeBack : Prop :=
  ∀ (i : Instr) (p : PortWord), i.wf = true → encode i = some p → decode p = .ok i

/-- What the rule list reads at the start of a text (30_encoding.md R73, R74): the decoder gives the token `i` and
leaves `rest` exactly when the text is the bytes of `i` followed by `rest` and the match cannot go on into `rest`,
neither by a longer run nor by a rule of higher priority. -/
def Obligations.DecodedTokenIsTheFirstLongestMatch : Prop :=
  ∀ (bs : List Byte) (i : Instr) (rest : List Byte),
    decodeToken bs = some (i, rest) ↔
      i.wf = true ∧ encodeToken i ≠ [] ∧ bs = encodeToken i ++ rest ∧ endsBefore i rest = true

/-- A list of tokens written out, each followed by a space, tokenizes to what their rules emit, on every machine whose
limits it keeps (42_expression_tokenizer.md R145 to R163). -/
def Obligations.WrittenTokensTokenizeBack : Prop :=
  ∀ (P : Params) (is : List Instr), (∀ i ∈ is, i.wfFor P = true ∧ (emission i).tok ≠ none) →
    overLimit (is.flatMap fun i => encodeToken i ++ [0x20]).length P.exprMaxLen = false →
    overLimit is.length P.maxTokens = false →
    tokenize P (is.flatMap fun i => encodeToken i ++ [0x20]) = .ok (reclassify (is.filterMap fun i => (emission i).tok))

/-! ### Memory -/

/-- Reads (40_translator_ops.md R104, R102, R100): the little-endian value of the bytes, widened with zeros, and no
state written; fatal when any byte lies at or beyond `CAPACITY`. -/
def Obligations.ReadsDeliverTheLittleEndianValue : Prop :=
  ∀ (s : State) (addr data : Word) (w : Width), s.Live →
    decode (.unit (.xlat ⟨0, false, BitVec.ofNat 3 w.bytes, addr, data⟩)) = .ok (.memRead addr w) ∧
    decode (.unit (.xlat ⟨1, false, BitVec.ofNat 3 w.bytes, addr, data⟩)) = .ok (.linRead addr w) ∧
    decode (.unit (.xlat ⟨2, false, BitVec.ofNat 3 w.bytes, addr, data⟩)) = .ok (.hostRead addr w) ∧
    ∀ i ∈ [Instr.memRead addr w, .linRead addr w, .hostRead addr w],
      (addr.toNat + w.bytes ≤ Config.machine.capacity →
        exec i s = .next { s with resp := .value (BitVec.ofNat 32
          (∑ k ∈ Finset.range w.bytes, (s.byteAt Config.machine (addr.toNat + k)).toNat * 2 ^ (8 * k))) }) ∧
      (Config.machine.capacity < addr.toNat + w.bytes →
        ∃ t, exec i s = .next t ∧ t.fatal = some (.oobAccess addr w false))

/-- Writes (40_translator_ops.md R105, R103, R101): the low `8n` bits of the value, least significant byte first, at the
`n` bytes from the address on, and nothing else; fatal when any byte lies at or beyond `CAPACITY`, and then no byte
changes. The memory is in its canonical form, as in every run from reset. -/
def Obligations.WritesStoreTheLittleEndianBytes : Prop :=
  ∀ (s : State) (addr v : Word) (w : Width), s.Live → Memory.wf Config.machine s.mem = true →
    decode (.unit (.xlat ⟨0, true, BitVec.ofNat 3 w.bytes, addr, v⟩)) = .ok (.memWrite addr w v) ∧
    decode (.unit (.xlat ⟨1, true, BitVec.ofNat 3 w.bytes, addr, v⟩)) = .ok (.linWrite addr w v) ∧
    decode (.unit (.xlat ⟨2, true, BitVec.ofNat 3 w.bytes, addr, v⟩)) = .ok (.hostWrite addr w v) ∧
    ∀ i ∈ [Instr.memWrite addr w v, .linWrite addr w v, .hostWrite addr w v],
      (addr.toNat + w.bytes ≤ Config.machine.capacity →
        ∃ m, exec i s = .next { s with mem := m, resp := .ok } ∧
          ∀ a, Memory.get Config.machine.mem0 m a =
            if addr.toNat ≤ a ∧ a < addr.toNat + w.bytes then v.extractLsb' (8 * (a - addr.toNat)) 8
            else s.byteAt Config.machine a) ∧
      (Config.machine.capacity < addr.toNat + w.bytes →
        ∃ t, exec i s = .next t ∧ t.fatal = some (.oobAccess addr w true) ∧
          ∀ a, t.byteAt Config.machine a = s.byteAt Config.machine a)

/-- The laws of 40_translator_ops.md R106, on every machine and every canonical memory: a read after a write gives the
value's low `8n` bits and no other byte changes; a wide read is its two halves; the three address kinds are
interchangeable. -/
def Obligations.TranslatorLaws : Prop :=
  ∀ (P : Params) (m : Memory) (a v : Word) (w : Width) (j k : AddrKind), Memory.wf P m = true →
    (a.toNat + w.bytes ≤ P.capacity → ∃ m', writeAt P m .program a w v = .ok m' ∧
      readAt P m' .program a w = .ok ((v.setWidth (8 * w.bytes)).setWidth 32) ∧
      ∀ b, b < a.toNat ∨ a.toNat + w.bytes ≤ b → Memory.get P.mem0 m' b = Memory.get P.mem0 m b) ∧
    (a.toNat + 4 ≤ P.capacity → ∃ lo hi, readAt P m .program a .two = .ok lo ∧
      readAt P m .program (a + 2) .two = .ok hi ∧ readAt P m .program a .four = .ok (lo + 2 ^ 16 * hi)) ∧
    (a.toNat + 2 ≤ P.capacity → ∃ lo hi, readAt P m .program a .one = .ok lo ∧
      readAt P m .program (a + 1) .one = .ok hi ∧ readAt P m .program a .two = .ok (lo + 2 ^ 8 * hi)) ∧
    readAt P m j a w = readAt P m k a w ∧ writeAt P m j a w v = writeAt P m k a w v

/-- `Exec` touches memory only through the translator (41_execution_loop.md R120 (a)), whatever its table. A read goes on
with what the translator reads, a write with the memory it leaves, and either, out of bounds, ends `Exec` fatally; the
ends of the table are its outcomes (R118). So where it is done the memory is canonical again and nothing beyond the store
has changed, and it is fatal only for an access that is out of bounds. That `Exec` is a finite tree of accesses is
log 5. -/
def Obligations.ExecReachesMemoryOnlyInBounds : Prop :=
  (∀ (P : Params) (prog : ExecProg) (m : Memory), Memory.wf P m = true →
    (∀ q d, runProg P prog m = .done q d → Memory.wf P d.mem = true ∧
      ∀ a, P.capacity ≤ a → Memory.get P.mem0 d.mem a = Memory.get P.mem0 m a) ∧
    (∀ c, runProg P prog m = .fatal c → ∃ a w b, c = .oobAccess a w b ∧ P.capacity < a.toNat + w.bytes)) ∧
  (∀ (P : Params) (m : Memory) (k : AddrKind) (a v : Word) (w : Width) (f : Word → ExecProg) (p : ExecProg),
    (a.toNat + w.bytes ≤ P.capacity →
      (∃ x, readAt P m k a w = .ok x ∧ runProg P (.read k a w f) m = runProg P (f x) m) ∧
      (∃ m', writeAt P m k a w v = .ok m' ∧ runProg P (.write k a w v p) m = runProg P p m')) ∧
    (P.capacity < a.toNat + w.bytes →
      runProg P (.read k a w f) m = .fatal (.oobAccess a w false) ∧
      runProg P (.write k a w v p) m = .fatal (.oobAccess a w true))) ∧
  ∀ (P : Params) (m : Memory) (len : Word) (regs : Regs) (pc fl : Word) (q : Option HaltReq),
    runProg P (.done len regs pc fl q) m = .done q ⟨len, regs, pc, fl, m⟩ ∧ runProg P .fault m = .fault

/-! ### Registers and flags -/

/-- `CMD_REG_READ` (45_host_commands.md R242 with the selectors of 30_encoding.md R86, D31): the selected view, word, flag
or field widened with zeros, and no state written; every other selector is `Fail(E_BAD_COMMAND)`. The place of the high
byte is R25 and the spec's decision D7 (log 17). -/
def Obligations.RegReadDeliversTheSelectedBits : Prop :=
  (∀ (a b : Word) (text : List Byte), decode (.command ⟨0x0A, a, b, text⟩) = .ok (.cmdRegRead (a.setWidth 7))) ∧
  ∀ (s : State) (sel : BitVec 7), s.Accepts →
    (∀ i : Fin 8,
      (sel.toNat = i → exec (.cmdRegRead sel) s = .next { s with resp := .value s.regs[i] }) ∧
      (sel.toNat = 0x08 + i →
        exec (.cmdRegRead sel) s = .next { s with resp := .value ((s.regs[i].extractLsb' 0 16).setWidth 32) }) ∧
      (sel.toNat = 0x10 + i →
        exec (.cmdRegRead sel) s = .next { s with resp := .value ((s.regs[i].extractLsb' 0 8).setWidth 32) }) ∧
      (sel.toNat = 0x18 + i →
        exec (.cmdRegRead sel) s = .next { s with resp := .value ((s.regs[i].extractLsb' 8 8).setWidth 32) })) ∧
    (sel.toNat = 0x20 → exec (.cmdRegRead sel) s = .next { s with resp := .value s.pc }) ∧
    (sel.toNat = 0x21 → exec (.cmdRegRead sel) s = .next { s with resp := .value s.fl }) ∧
    (∀ k ∈ [0, 2, 4, 6, 7, 8, 9, 10, 11], sel.toNat = 0x30 + k →
      exec (.cmdRegRead sel) s = .next { s with resp := .value ((s.fl.extractLsb' k 1).setWidth 32) }) ∧
    (sel.toNat = 0x3C →
      exec (.cmdRegRead sel) s = .next { s with resp := .value ((s.fl.extractLsb' 12 2).setWidth 32) }) ∧
    (0x22 ≤ sel.toNat → (∀ k ∈ [0, 2, 4, 6, 7, 8, 9, 10, 11, 12], sel.toNat ≠ 0x30 + k) →
      exec (.cmdRegRead sel) s = .next { s with resp := .fail .eBadCommand })

/-- `CMD_REG_WRITE` (45_host_commands.md R243, 10_state.md R22 to R25, R29, R31, with the selectors of 30_encoding.md R86,
D31): the low bits of the value replace exactly the selected bits; every other bit, register, flag and byte is
unchanged; every other selector is `Fail(E_BAD_COMMAND)` with no effect. The place of the high byte is R25 and the
spec's decision D7 (log 17). -/
def Obligations.RegWriteReplacesExactlyTheSelectedBits : Prop :=
  (∀ (a b : Word) (text : List Byte), decode (.command ⟨0x0B, a, b, text⟩) = .ok (.cmdRegWrite (a.setWidth 7) b)) ∧
  ∀ (s : State) (sel : BitVec 7) (b : Word), s.Accepts →
    (∀ i : Fin 8,
      (sel.toNat = i →
        exec (.cmdRegWrite sel b) s = .next { s with regs := s.regs.set i b, resp := .ok }) ∧
      (sel.toNat = 0x08 + i → exec (.cmdRegWrite sel b) s = .next
        { s with regs := s.regs.set i ((s.regs[i] &&& 0xFFFF0000) ||| (b &&& 0x0000FFFF)), resp := .ok }) ∧
      (sel.toNat = 0x10 + i → exec (.cmdRegWrite sel b) s = .next
        { s with regs := s.regs.set i ((s.regs[i] &&& 0xFFFFFF00) ||| (b &&& 0x000000FF)), resp := .ok }) ∧
      (sel.toNat = 0x18 + i → exec (.cmdRegWrite sel b) s = .next
        { s with regs := s.regs.set i ((s.regs[i] &&& 0xFFFF00FF) ||| ((b &&& 0x000000FF) <<< 8)), resp := .ok })) ∧
    (sel.toNat = 0x20 → exec (.cmdRegWrite sel b) s = .next { s with pc := b, resp := .ok }) ∧
    (sel.toNat = 0x21 → exec (.cmdRegWrite sel b) s = .next { s with fl := b, resp := .ok }) ∧
    (∀ k ∈ [0, 2, 4, 6, 7, 8, 9, 10, 11], sel.toNat = 0x30 + k →
      ∃ f : Word, exec (.cmdRegWrite sel b) s = .next { s with fl := f, resp := .ok } ∧
        ∀ j, f.getLsbD j = if j = k then b.getLsbD 0 else s.fl.getLsbD j) ∧
    (sel.toNat = 0x3C → exec (.cmdRegWrite sel b) s = .next
      { s with fl := (s.fl &&& 0xFFFFCFFF) ||| ((b &&& 0x00000003) <<< 12), resp := .ok }) ∧
    (0x22 ≤ sel.toNat → (∀ k ∈ [0, 2, 4, 6, 7, 8, 9, 10, 11, 12], sel.toNat ≠ 0x30 + k) →
      exec (.cmdRegWrite sel b) s = .next { s with resp := .fail .eBadCommand })

/-- The aliasing invariant (10_state.md R26, R22 to R24; the place of the high byte is R25 and the spec's decision D7,
log 17): the four views of a slot are slices of one storage, and a write through one changes exactly the bits it covers,
of that slot alone. -/
def Obligations.ViewsAliasOneStorage : Prop :=
  ∀ (s : State) (i : Fin 8) (b : Word),
    s.readView (view32 i) = s.regs[i] ∧
    s.readView (view16 i) = (s.regs[i].extractLsb' 0 16).setWidth 32 ∧
    s.readView (view8l i) = (s.regs[i].extractLsb' 0 8).setWidth 32 ∧
    s.readView (view8h i) = (s.regs[i].extractLsb' 8 8).setWidth 32 ∧
    ∀ v ∈ [view32 i, view16 i, view8l i, view8h i],
      s.writeView v b = { s with regs := (s.writeView v b).regs } ∧
      ∀ (j : Fin 8) (n : Nat), ((s.writeView v b).regs[j]).getLsbD n =
        if j = i ∧ v.lo ≤ n ∧ n < v.lo + v.len then b.getLsbD (n - v.lo) else (s.regs[j]).getLsbD n

/-! ### Host operations -/

/-- `CMD_PRINT` (45_host_commands.md R233): the evaluation's value or failure and no state written; its fatal condition
is the block's. -/
def Obligations.PrintDeliversTheEvaluation : Prop :=
  ∀ (s : State) (text : List Byte) (a b : Word), s.Accepts →
    decode (.command ⟨0x03, a, b, text⟩) = .ok (.cmdPrint text) ∧
    (∀ v, evaluate Config.machine s text = .ok v → exec (.cmdPrint text) s = .next { s with resp := .value v }) ∧
    (∀ c, evaluate Config.machine s text = .fail c → exec (.cmdPrint text) s = .next { s with resp := .fail c }) ∧
    (∀ c, evaluate Config.machine s text = .fatal c → ∃ t, exec (.cmdPrint text) s = .next t ∧ t.fatal = some c)

/-- `CMD_EXAMINE` (45_host_commands.md R235, D32): `N` dwords from the address on, the address wrapping; the first dword
out of bounds is fatal. No state is written. -/
def Obligations.ExamineDeliversConsecutiveDwords : Prop :=
  ∀ (s : State) (n addr : Word), s.Accepts →
    let at' : Nat → Word := fun k => addr + BitVec.ofNat 32 (4 * k)
    ((∀ k < n.toNat, (at' k).toNat + 4 ≤ Config.machine.capacity) →
      exec (.cmdExamine n addr) s = .next { s with resp := .values ((List.range n.toNat).map fun k =>
        BitVec.ofNat 32 (∑ j ∈ Finset.range 4, (s.byteAt Config.machine ((at' k).toNat + j)).toNat * 2 ^ (8 * j))) }) ∧
    (∀ k < n.toNat, (∀ j < k, (at' j).toNat + 4 ≤ Config.machine.capacity) →
      Config.machine.capacity < (at' k).toNat + 4 →
      ∃ t, exec (.cmdExamine n addr) s = .next t ∧ t.fatal = some (.oobAccess (at' k) .four false))

/-- `CMD_WATCH` is `WpCreate` (45_host_commands.md R236, 44_watchpoint_manager.md R211): exhaustion is tested first; then the
text is evaluated; on success the head of the free list takes text and value and moves to the head of the active list,
and its id is delivered; a failure consumes nothing. -/
def Obligations.WatchTakesTheHeadOfTheFreeList : Prop :=
  ∀ (s : State) (text : List Byte) (a b : Word), s.Accepts →
    decode (.command ⟨0x05, a, b, text⟩) = .ok (.cmdWatch text) ∧
    (s.free = [] → exec (.cmdWatch text) s = .next { s with resp := .fail .wPoolFull }) ∧
    (∀ k rest, s.free = k :: rest →
      (∀ v, evaluate Config.machine s text = .ok v → exec (.cmdWatch text) s = .next
        { s with
          free := rest
          active := k :: s.active
          slots := s.slots.set k { id := (s.slots[k]).id, expr := text, last := v }
          resp := .value (BitVec.ofNat 32 k) }) ∧
      (∀ c, evaluate Config.machine s text = .fail c → exec (.cmdWatch text) s = .next { s with resp := .fail c }) ∧
      (∀ c, evaluate Config.machine s text = .fatal c → ∃ t, exec (.cmdWatch text) s = .next t ∧ t.fatal = some c))

/-- `CMD_DELETE` is `WpDelete` (45_host_commands.md R237, 44_watchpoint_manager.md R213, R214): fatal on an empty active list,
else not found with no change, else the slot leaves the active list, the order of the others kept, for the head of the
free list. -/
def Obligations.DeleteReturnsTheSlotToTheFreeList : Prop :=
  ∀ (s : State) (id b : Word) (text : List Byte), s.Accepts →
    decode (.command ⟨0x06, id, b, text⟩) = .ok (.cmdDelete id) ∧
    (s.active = [] → ∃ t, exec (.cmdDelete id) s = .next t ∧ t.fatal = some .poolDeleteEmpty) ∧
    (s.active ≠ [] → (∀ k ∈ s.active, k.val ≠ id.toNat) →
      exec (.cmdDelete id) s = .next { s with resp := .fail .wNotFound }) ∧
    (∀ k ∈ s.active, k.val = id.toNat → exec (.cmdDelete id) s = .next
      { s with active := s.active.filter (fun j => decide (j ≠ k)), free := k :: s.free, resp := .ok })

/-- `CMD_INFO_WATCHPOINTS` is `WpList` (45_host_commands.md R240, 44_watchpoint_manager.md R219): the active records in list
order, each with the stored value; nothing is evaluated and no state is written. -/
def Obligations.ListingShowsTheActiveRecordsInOrder : Prop :=
  ∀ (s : State) (a b : Word) (text : List Byte), s.Accepts →
    decode (.command ⟨0x08, a, b, text⟩) = .ok .cmdInfoWatchpoints ∧
    exec .cmdInfoWatchpoints s = .next
      { s with
        resp := .listing (s.active.map fun k : Fin 32 => (BitVec.ofNat 32 k, (s.slots[k]).expr, (s.slots[k]).last)) }

/-- `CMD_INFO_REGISTERS`, `CMD_QUIT` and the reserved codes write no state of the block (45_host_commands.md R238, R241,
D32; 30_encoding.md R85, D31): ten values in a fixed order; nothing; `Fail(E_BAD_COMMAND)`. -/
def Obligations.DumpQuitAndReservedCodesChangeNothing : Prop :=
  ∀ (s : State) (op : Byte) (a b : Word) (text : List Byte), s.Accepts →
    exec .cmdInfoRegisters s = .next { s with resp := .values [s.regs[0], s.regs[1], s.regs[2], s.regs[3], s.regs[4],
                                                               s.regs[5], s.regs[6], s.regs[7], s.pc, s.fl] } ∧
    exec .cmdQuit s = .next { s with resp := .ok } ∧
    (op = 0 ∨ 0x0F ≤ op → decode (.command ⟨op, a, b, text⟩) = .ok (.cmdReserved op) ∧
      exec (.cmdReserved op) s = .next { s with resp := .fail .eBadCommand })

/-- `CMD_MEM_READ` (45_host_commands.md R239): one program-address read of 1, 2 or 4 bytes; another count is
`Fail(E_BAD_COMMAND)` with no effect; out of bounds is fatal. -/
def Obligations.MemReadDeliversOneAccess : Prop :=
  ∀ (s : State) (addr n : Word) (text : List Byte), s.Accepts →
    decode (.command ⟨0x0C, addr, n, text⟩) = .ok (.cmdMemRead addr n) ∧
    (∀ w : Width, n.toNat = w.bytes →
      (addr.toNat + w.bytes ≤ Config.machine.capacity →
        exec (.cmdMemRead addr n) s = .next { s with resp := .value (BitVec.ofNat 32
          (∑ k ∈ Finset.range w.bytes, (s.byteAt Config.machine (addr.toNat + k)).toNat * 2 ^ (8 * k))) }) ∧
      (Config.machine.capacity < addr.toNat + w.bytes →
        ∃ t, exec (.cmdMemRead addr n) s = .next t ∧ t.fatal = some (.oobAccess addr w false))) ∧
    ((∀ w : Width, n.toNat ≠ w.bytes) → exec (.cmdMemRead addr n) s = .next { s with resp := .fail .eBadCommand })

/-- `CMD_STOP_REQ` (41_execution_loop.md R127, D12): the latch is set while `RUNNING`, and otherwise the request changes
nothing. -/
def Obligations.StopRequestSetsTheLatchOnlyWhileRunning : Prop :=
  ∀ s : State, s.Live →
    (s.run = .running → exec .cmdStopReq s = .next { s with stopPending := true }) ∧
    (s.run ≠ .running → exec .cmdStopReq s = .next s)

/-- `CMD_RESET` (70_reset_and_hazards.md R285, 10_state.md R45, D5): from every state in which no run is in progress, the
dead one too, every piece of the block's state takes its reset value. The model's choice are that the host's input to come
stays (log 12), that `Ok` is delivered (log 8), and that a malformed image, with which R285 and D33 have reset end dead,
is never found (log 18). -/
def Obligations.ResetRestoresEveryPieceOfState : Prop :=
  ∀ s : State, (s.Accepts ∨ s.fatal ≠ none) →
    exec .cmdReset s = .next { State.reset with inputs := s.inputs, resp := .ok }

/-- The state after reset (70_reset_and_hazards.md R286): registers, `pc`, `fl` and memory at their parameters, `STOPPED`, no
watchpoint active, the free list in order, and budget, latches and report clear. -/
def Obligations.ResetValues : Prop :=
  (∀ i : Fin 8, State.reset.regs[i] = Config.resetGpr i) ∧
  State.reset.pc = Config.entry ∧ State.reset.fl = Config.resetEflags ∧
  (∀ a, State.reset.byteAt Config.machine a = Config.mem0 a) ∧
  State.reset.run = .stopped ∧ State.reset.active = [] ∧ State.reset.free = List.finRange 32 ∧
  State.reset.budget = .count 0 ∧ State.reset.stopPending = false ∧ State.reset.fatal = none ∧
  State.reset.report = ⟨.none, 0, 0, 0⟩ ∧
  ∀ k : Fin 32, State.reset.slots[k] = { id := BitVec.ofNat 32 k, expr := [], last := 0 }

/-- A run request while `STOPPED` (41_execution_loop.md R116, D11; 45_host_commands.md R231, R232): `RUNNING`, the latch
cleared, the budget written, `0xFFFFFFFF` meaning none; nothing else changes. The steps that follow are its loop, and
nothing is delivered until it returns (R132, log 13). -/
def Obligations.RunRequestStartsARun : Prop :=
  ∀ (s : State) (n : Word), s.Live → s.run = .stopped →
    exec .cmdContinue s = .next { s with run := .running, stopPending := false, budget := .inf, resp := .silent } ∧
    exec (.cmdStep 0xFFFFFFFF) s =
      .next { s with run := .running, stopPending := false, budget := .inf, resp := .silent } ∧
    (n ≠ 0xFFFFFFFF → exec (.cmdStep n) s =
      .next { s with run := .running, stopPending := false, budget := .count n, resp := .silent })

/-- A run request while `ENDED` (41_execution_loop.md R117): only the report is written, with reason `CANNOT_CONTINUE`, and
`ENDED` is left only by reset. -/
def Obligations.EndedOnlyReportsAndIsLeftOnlyByReset : Prop :=
  (∀ (s : State) (n : Word), s.Live → s.run = .ended → ∀ i ∈ [Instr.cmdContinue, .cmdStep n],
    ∃ w o v k, exec i s = .next { s with report := ⟨.cannotContinue, w, o, v⟩, resp := .ran, freeCount := k }) ∧
  (∀ s t : State, s.Live → s.run = .ended → step s = .next t → t.run ≠ .ended →
    s.unitReq = none ∧ ∃ r rest, s.inputs = .command r :: rest ∧ r.op = 0x0E)

/-! ### Token rules, operators and operands -/

/-- What each token rule emits and how far it moves (42_expression_tokenizer.md R147 to R161), and that it writes no state
of the block; what is delivered, in the model's response register, is the model's choice (log 8, log 25). -/
def Obligations.TokenRulesDeliverWhatTheyEmit : Prop :=
  ∀ (s : State) (run digits name : List Byte), s.Live →
    exec (.tWs run) s = .next { s with resp := .token none run.length } ∧
    exec .tEq s = .next { s with resp := .token (some ⟨.eq, []⟩) 2 } ∧
    exec .tNe s = .next { s with resp := .token (some ⟨.ne, []⟩) 2 } ∧
    exec .tAnd s = .next { s with resp := .token (some ⟨.and, []⟩) 2 } ∧
    exec .tOr s = .next { s with resp := .token (some ⟨.or, []⟩) 2 } ∧
    exec .tNot s = .next { s with resp := .token (some ⟨.not, []⟩) 1 } ∧
    exec .tPlus s = .next { s with resp := .token (some ⟨.add, []⟩) 1 } ∧
    exec .tMinus s = .next { s with resp := .token (some ⟨.sub, []⟩) 1 } ∧
    exec .tStar s = .next { s with resp := .token (some ⟨.mul, []⟩) 1 } ∧
    exec .tSlash s = .next { s with resp := .token (some ⟨.div, []⟩) 1 } ∧
    exec .tLparen s = .next { s with resp := .token (some ⟨.lparen, []⟩) 1 } ∧
    exec .tRparen s = .next { s with resp := .token (some ⟨.rparen, []⟩) 1 } ∧
    exec (.tHex digits) s =
      .next { s with resp := .token (some ⟨.hex, [0x30, 0x78] ++ digits⟩) (digits.length + 2) } ∧
    exec (.tDec digits) s = .next { s with resp := .token (some ⟨.num, digits⟩) digits.length } ∧
    exec (.tReg name) s = .next { s with resp := .token (some ⟨.reg, [0x24] ++ name⟩) (name.length + 1) }

/-- The loop of `Tokenize` (42_expression_tokenizer.md R145, R162): over the length limit it fails; else the rule list is
applied again and again, the tokens emitted are collected, one too many fails, and a place where no rule matches fails
with its offset. -/
def Obligations.TokenizeAppliesTheRuleListInTurn : Prop :=
  ∀ (P : Params) (text : List Byte),
    (overLimit text.length P.exprMaxLen = true → tokenize P text = .error .eLimit) ∧
    (overLimit text.length P.exprMaxLen = false → ∀ is rest, Lexes text is rest →
      let toks := is.filterMap fun i => (emission i).tok
      (overLimit toks.length P.maxTokens = true → tokenize P text = .error .eLimit) ∧
      (overLimit toks.length P.maxTokens = false → rest = [] → tokenize P text = .ok (reclassify toks)) ∧
      (overLimit toks.length P.maxTokens = false → rest ≠ [] → decodeToken rest = none →
        tokenize P text = .error (.eTokenize (text.length - rest.length))))

/-- `Reclassify` (42_expression_tokenizer.md R163): a `-` or `*` is unary at the start and where the token before it is no
closing parenthesis, number, hex literal or register; nothing else changes. -/
def Obligations.ReclassifyLooksAtThePreviousToken : Prop :=
  ∀ (ts : List Token), (reclassify ts).length = ts.length ∧
    ∀ (i : Nat) (t : Token), ts[i]? = some t →
      let inUnaryPlace := i = 0 ∨ ∃ p, ts[i - 1]? = some p ∧ p.kind ∉ [TokenKind.rparen, .num, .hex, .reg]
      (inUnaryPlace → t.kind = .sub → (reclassify ts)[i]? = some { t with kind := .neg }) ∧
      (inUnaryPlace → t.kind = .mul → (reclassify ts)[i]? = some { t with kind := .deref }) ∧
      (¬ inUnaryPlace → (reclassify ts)[i]? = some t) ∧
      (t.kind ≠ .sub → t.kind ≠ .mul → (reclassify ts)[i]? = some t)

/-- `-`, `*`, `+` and binary `-` are the ring operations modulo 2^32 (43_expression_evaluator.md R182, R184, R186, R187), by
their kind codes, at their levels; they never fail and write no state. The fields of an evaluator's record beside its kind
code, and which of them an operator uses, are the model's choice (log 20). -/
def Obligations.ArithmeticOperatorsWrapModulo32Bits : Prop :=
  ∀ (s : State) (a b : Word) (text : List Byte), s.Live →
    decode (.unit (.xop ⟨15, a, b, text⟩)) = .ok (.xopNeg a) ∧ level .neg = 6 ∧
    exec (.xopNeg a) s = .next { s with resp := .value (BitVec.ofNat 32 (2 ^ 32 - a.toNat)) } ∧
    decode (.unit (.xop ⟨13, a, b, text⟩)) = .ok (.xopMul a b) ∧ level .mul = 5 ∧
    exec (.xopMul a b) s = .next { s with resp := .value (BitVec.ofNat 32 (a.toNat * b.toNat)) } ∧
    decode (.unit (.xop ⟨11, a, b, text⟩)) = .ok (.xopAdd a b) ∧ level .add = 4 ∧
    exec (.xopAdd a b) s = .next { s with resp := .value (BitVec.ofNat 32 (a.toNat + b.toNat)) } ∧
    decode (.unit (.xop ⟨12, a, b, text⟩)) = .ok (.xopSub a b) ∧ level .sub = 4 ∧
    exec (.xopSub a b) s = .next { s with resp := .value (BitVec.ofInt 32 (a.toNat - b.toNat)) }

/-- `!`, `==`, `!=`, `&&` and `||` yield exactly 1 or 0, on whole words and logically (43_expression_evaluator.md R181, R188,
R189, R190, R191, D25), and write no state. -/
def Obligations.ComparisonAndLogicYieldOneOrZero : Prop :=
  ∀ (s : State) (a b : Word), s.Live →
    exec (.xopNot a) s = .next { s with resp := .value (if a = 0 then 1 else 0) } ∧
    exec (.xopEq a b) s = .next { s with resp := .value (if a = b then 1 else 0) } ∧
    exec (.xopNe a b) s = .next { s with resp := .value (if a = b then 0 else 1) } ∧
    exec (.xopAnd a b) s = .next { s with resp := .value (if a ≠ 0 ∧ b ≠ 0 then 1 else 0) } ∧
    exec (.xopOr a b) s = .next { s with resp := .value (if a ≠ 0 ∨ b ≠ 0 then 1 else 0) }

/-- `/` is unsigned division rounded down, and a zero divisor is a failure with no value (43_expression_evaluator.md R185,
D35); no state is written. -/
def Obligations.DivisionIsUnsignedAndFailsOnZero : Prop :=
  ∀ (s : State) (a b : Word), s.Live →
    (b ≠ 0 → exec (.xopDiv a b) s = .next { s with resp := .value (BitVec.ofNat 32 (a.toNat / b.toNat)) }) ∧
    (b = 0 → exec (.xopDiv a b) s = .next { s with resp := .fail .eDivZero })

/-- Unary `*` reads four bytes at its operand as a program address (43_expression_evaluator.md R183, D23), and is fatal, not a
failure, out of bounds. -/
def Obligations.DerefReadsFourBytes : Prop :=
  ∀ (s : State) (r : Word), s.Live →
    (r.toNat + 4 ≤ Config.machine.capacity → exec (.xopDeref r) s = .next { s with resp := .value (BitVec.ofNat 32
      (∑ k ∈ Finset.range 4, (s.byteAt Config.machine (r.toNat + k)).toNat * 2 ^ (8 * k))) }) ∧
    (Config.machine.capacity < r.toNat + 4 →
      ∃ t, exec (.xopDeref r) s = .next t ∧ t.fatal = some (.oobAccess r .four false))

/-- A literal's value is its digits' value in its base modulo 2^32, digits above nine in either case
(30_encoding.md R76, R77, D18; 43_expression_evaluator.md R173); no state is written. -/
def Obligations.LiteralsAreTheirDigitsModulo32Bits : Prop :=
  (∀ (s : State) (digits : List Byte), s.Live → isRunOf isDecDigit digits = true →
    exec (.operandNum digits) s = .next { s with resp := .value (BitVec.ofNat 32
      (Nat.ofDigits 10 (digits.reverse.map fun b => b.toNat - 0x30))) }) ∧
  (∀ (s : State) (digits : List Byte), s.Live → isRunOf isHexDigit digits = true →
    exec (.operandHex digits) s = .next { s with resp := .value (BitVec.ofNat 32
      (Nat.ofDigits 16 (digits.reverse.map fun b =>
        if b.toNat ≤ 0x39 then b.toNat - 0x30
        else if b.toNat ≤ 0x46 then b.toNat - 0x41 + 10
        else b.toNat - 0x61 + 10))) })

/-- `$name` is the current content of the view the name stands for, widened with zeros; a name outside the twenty-six is
`Fail(E_UNKNOWN_REG)` (43_expression_evaluator.md R174; the table is 30_encoding.md R80, D20, log 16; the high byte's
place is D7, log 17). No state is written. -/
def Obligations.RegisterNamesReadTheirViews : Prop :=
  ∀ s : State, s.Live →
    let half : Fin 8 → Word := fun i => (s.regs[i].extractLsb' 0 16).setWidth 32
    let low : Fin 8 → Word := fun i => (s.regs[i].extractLsb' 0 8).setWidth 32
    let high : Fin 8 → Word := fun i => (s.regs[i].extractLsb' 8 8).setWidth 32
    let names : List (String × Word) :=
      [("eax", s.regs[0]), ("ecx", s.regs[1]), ("edx", s.regs[2]), ("ebx", s.regs[3]), ("esp", s.regs[4]),
       ("ebp", s.regs[5]), ("esi", s.regs[6]), ("edi", s.regs[7]), ("ax", half 0), ("cx", half 1), ("dx", half 2),
       ("bx", half 3), ("sp", half 4), ("bp", half 5), ("si", half 6), ("di", half 7), ("al", low 0), ("cl", low 1),
       ("dl", low 2), ("bl", low 3), ("ah", high 0), ("ch", high 1), ("dh", high 2), ("bh", high 3), ("eip", s.pc),
       ("eflags", s.fl)]
    (∀ p ∈ names, exec (.operandReg (asciiText p.1)) s = .next { s with resp := .value p.2 }) ∧
    ∀ name, (∀ p ∈ names, name ≠ asciiText p.1) →
      exec (.operandReg name) s = .next { s with resp := .fail .eUnknownReg }

/-! ### The evaluator -/

/-- `Eval` (43_expression_evaluator.md R171): the empty range, a range of one token, and a longer one by `ParenCheck`,
`Dominant` and `Apply`, the recursion on ranges going through `Eval` itself. -/
def Obligations.EvalFollowsItsRecursion : Prop :=
  ∀ (P : Params) (s : State),
    evalTokens P s [] = .fail .eEmptyOperand ∧
    (∀ t, evalTokens P s [t] = operandValue s t) ∧
    ∀ ts : List Token, 2 ≤ ts.length →
      (parenCheck ts = .bad → evalTokens P s ts = .fail .eParen) ∧
      (parenCheck ts = .wrapped → evalTokens P s ts = evalTokens P s ts.tail.dropLast) ∧
      (parenCheck ts = .openRange → dominant ts = none → evalTokens P s ts = .fail .eInvalid) ∧
      (∀ op, parenCheck ts = .openRange → dominant ts = some op →
        evalTokens P s ts = applyAt P s.mem (evalTokens P s) ts op)

/-- `ParenCheck` (43_expression_evaluator.md R172, D22): bad exactly when some prefix closes more than it opens or the whole
does not balance, a `(` opening one and a `)` closing one; wrapped exactly when it is not bad, starts with `(`, ends with `)`, and no proper prefix balances. -/
def Obligations.ParenCheckIsTheDepthCriterion : Prop :=
  ∀ ts : List Token,
    (∀ k, depthChange k = if k = .lparen then 1 else if k = .rparen then -1 else 0) ∧
    (parenCheck ts = .bad ↔ nesting ts ≠ 0 ∨ ∃ n ≤ ts.length, nesting (ts.take n) < 0) ∧
    (parenCheck ts = .wrapped ↔ parenCheck ts ≠ .bad ∧ ts.head?.map Token.kind = some .lparen ∧
      ts.getLast?.map Token.kind = some .rparen ∧ ∀ n, 0 < n → n < ts.length → nesting (ts.take n) ≠ 0)

/-- `Dominant` (43_expression_evaluator.md R175, D21): of the operators outside parentheses one of the lowest level, the last
of them when they are binary and the first when they are unary; none when there is none. The operators, their levels and
which of them are unary are those of 30_encoding.md R72 and R79. -/
def Obligations.DominantIsTheLoosestOperator : Prop :=
  ([TokenKind.or, .and, .eq, .ne, .add, .sub, .mul, .div, .not, .neg, .deref].map level =
    [1, 2, 3, 3, 4, 4, 5, 5, 6, 6, 6]) ∧
  (∀ k, (isOperator k = false ↔ k ∈ [TokenKind.eoi, .num, .hex, .reg, .lparen, .rparen]) ∧
    (isUnary k = true ↔ k ∈ [TokenKind.not, .neg, .deref])) ∧
  ∀ ts : List Token,
    let outside : Nat → Token → Prop := fun j u =>
      ts[j]? = some u ∧ isOperator u.kind = true ∧ nesting (ts.take j) = 0
    (∀ i, dominant ts = some i → ∃ t, outside i t ∧ ∀ j u, outside j u →
      level t.kind ≤ level u.kind ∧
        (level u.kind = level t.kind → if isUnary t.kind then i ≤ j else j ≤ i)) ∧
    (dominant ts = none ↔ ∀ j u, ¬ outside j u)

/-- The grammar and the algorithm agree, one half (30_encoding.md R81): a token string that the grammar derives with a parse
tree is evaluated with that tree. -/
def Obligations.DerivedStringsEvaluateToTheirTrees : Prop :=
  ∀ (P : Params) (s : State) (ts : List Token) (e : ExprTree), Derives 1 ts e →
    evalTokens P s ts = treeValue P s e

/-- The other half (30_encoding.md R81): a token string that evaluates to a value is one the grammar derives, so one it does
not derive never gives a value. -/
def Obligations.ValuesComeOnlyFromDerivableStrings : Prop :=
  ∀ (P : Params) (s : State) (ts : List Token) (v : Word), evalTokens P s ts = .ok v →
    ∃ e, Derives 1 ts e ∧ treeValue P s e = .ok v

/-- The worked examples of the source document for the evaluator (95_test_vectors.md E2 to E7), on every machine without
limits and in every state. -/
def Obligations.WorkedExamplesOfTheSource : Prop :=
  ∀ (P : Params) (s : State), P.exprMaxLen = none → P.maxTokens = none →
    evaluate P s (asciiText "0xFFFFFFFF + 1") = .ok 0 ∧
    evaluate P s (asciiText "2 + 3 * 4") = .ok 14 ∧
    evaluate P s (asciiText "(2 + 3) * 4") = .ok 20 ∧
    evaluate P s (asciiText "-3 + 5") = .ok 2 ∧
    evaluate P s (asciiText "4 - -3") = .ok 7 ∧
    evaluate P s (asciiText "5 / 0") = .fail .eDivZero

/-- Evaluation depends on the registers, the instruction pointer, the flags and the memory, and on nothing else of the
state (43_expression_evaluator.md R194, 10_state.md R28, 20_memory.md R66). -/
def Obligations.EvaluationSeesOnlyRegistersAndMemory : Prop :=
  ∀ (P : Params) (s s' : State) (text : List Byte),
    s.regs = s'.regs → s.pc = s'.pc → s.fl = s'.fl → s.mem = s'.mem → evaluate P s text = evaluate P s' text

/-- The one way an evaluation can be fatal (43_expression_evaluator.md R180, R183): an out-of-bounds four-byte read. -/
def Obligations.EvaluationIsFatalOnlyOutOfBounds : Prop :=
  ∀ (P : Params) (s : State) (text : List Byte) (c : FatalCause), evaluate P s text = .fatal c →
    ∃ a, c = .oobAccess a .four false ∧ P.capacity < a.toNat + 4

/-! ### The watchpoint scan and the pool -/

/-- `Scan` (44_watchpoint_manager.md R216, R217): in list order, a record that fails or has not changed is passed over; the
first other one decides: it fires with its old and its new value, and the new one is stored, or it is fatal; else nothing
fires and nothing is stored. The store is made where the step takes the scan's result (`afterScan`). -/
def Obligations.ScanReportsTheFirstChangedRecord : Prop :=
  ∀ (P : Params) (s : State),
    let passed : Fin 32 → Prop := fun k =>
      (∃ c, evaluate P s (s.slots[k]).expr = .fail c) ∨ evaluate P s (s.slots[k]).expr = .ok (s.slots[k]).last
    (scan P s = .quiet ↔ ∀ k ∈ s.active, passed k) ∧
    (∀ k old new, scan P s = .fired k old new ↔ ∃ before after, s.active = before ++ k :: after ∧
      (∀ j ∈ before, passed j) ∧ evaluate P s (s.slots[k]).expr = .ok new ∧ new ≠ (s.slots[k]).last ∧
      old = (s.slots[k]).last) ∧
    (∀ c, scan P s = .fatal c ↔ ∃ before k after, s.active = before ++ k :: after ∧
      (∀ j ∈ before, passed j) ∧ evaluate P s (s.slots[k]).expr = .fatal c) ∧
    ∀ q : Option HaltReq, (scan P s = .quiet → (s.afterScan P q (scan P s)).slots = s.slots) ∧
      ∀ k old new, scan P s = .fired k old new →
        (s.afterScan P q (scan P s)).slots = s.slots.set k { s.slots[k] with last := new }

/-- The lifecycle of the pool (44_watchpoint_manager.md R212, D26, R221): a creation on a full pool fails whatever the text,
and the slot deleted last is the one the next creation takes. -/
def Obligations.DeletedSlotIsTheNextCreated : Prop :=
  ∀ (P : Params) (s t : State) (id v : Word) (text : List Byte),
    (s.free = [] → wpCreate P s text = .fail .wPoolFull) ∧
    (wpDelete s id = .ok t → evaluate P t text = .ok v →
      ∃ u k, wpCreate P t text = .ok u ∧ k ∈ s.active ∧ k.val = id.toNat ∧ u.resp = .value id ∧
        u.active = k :: t.active ∧ u.free = s.free ∧ u.slots[k] = { s.slots[k] with expr := text, last := v })

/-- A watchpoint on `$eax` alone in the pool (44_watchpoint_manager.md R222): after an instruction that changes `eax` it is
the one reported and the run stops; after one that does not the run goes on. On every machine whose limits admit the
text. -/
def Obligations.WatchedEaxStopsTheRunWhenItChanges : Prop :=
  ∀ (P : Params) (s : State) (d : Done) (k : Fin 32), s.InRun → s.stopPending = false →
    overLimit 4 P.exprMaxLen = false → overLimit 1 P.maxTokens = false →
    s.active = [k] → (s.slots[k]).expr = asciiText "$eax" → (s.slots[k]).last = s.regs[0] →
    (d.regs[0] ≠ s.regs[0] →
      (s.complete P none d).run = .stopped ∧
      (s.complete P none d).report = ⟨.watch, BitVec.ofNat 32 k, s.regs[0], d.regs[0]⟩ ∧
      (s.complete P none d).resp = .ran ∧ ((s.complete P none d).slots[k]).last = d.regs[0]) ∧
    (d.regs[0] = s.regs[0] → (s.complete P none d).InRun)

/-! ### The per-step protocol -/

/-- An ordinary instruction (41_execution_loop.md R121, R124, D8, R126, R128, D12, R136): its effects are installed, `pc`
moves past it from where `Exec` left it, a pending stop request is polled, the watchpoints are scanned on that state, and
the run goes on, or ends with `STOP_REQ`, or with `WATCH` and the record updated; a fatal scan kills the block.What the
budget holds once the run has ended is the model's choice (U17, log 26). -/
def Obligations.OrdinaryInstructionFollowsTheProtocol : Prop :=
  ∀ (s : State) (d : Done), s.InRun →
    let u : State := { s with
      regs := d.regs, pc := d.pc + d.len, fl := d.fl, mem := d.mem, stopPending := false
      run := if s.stopPending then .stopped else .running }
    (scan Config.machine u = .quiet → s.stopPending = false → exec (.insnOrdinary d) s = .next u) ∧
    (scan Config.machine u = .quiet → s.stopPending = true → ∃ w o n k, exec (.insnOrdinary d) s =
      .next { u with report := ⟨.stopReq, w, o, n⟩, resp := .ran, freeCount := k }) ∧
    (∀ k old new, scan Config.machine u = .fired k old new → exec (.insnOrdinary d) s = .next
      { u with
        slots := u.slots.set k { u.slots[k] with last := new }
        run := .stopped
        report := ⟨.watch, BitVec.ofNat 32 k, old, new⟩
        resp := .ran }) ∧
    (∀ c, scan Config.machine u = .fatal c → ∃ t, exec (.insnOrdinary d) s = .next t ∧ t.fatal = some c)

/-- An instruction that asks to leave `RUNNING` (41_execution_loop.md R134, R119, D10, R126, D13, R133, D14): the
breakpoint trap with `STOP`, the extension point with `END`. It completes and `pc` moves past it; the run ends with
`EXEC_STOP` or `EXEC_END`, over a stop request of the same step, and a watchpoint that fires wins over both and leaves
`STOPPED`.What the budget holds once the run has ended is the model's choice (U17, log 26). -/
def Obligations.TrapAndEndRequestsEndTheRun : Prop :=
  ∀ (s : State) (d : Done) (q : HaltReq), s.InRun →
    let u : State := { s with
      regs := d.regs, pc := d.pc + d.len, fl := d.fl, mem := d.mem, stopPending := false
      run := match q with
        | .stop => .stopped
        | .ended => .ended }
    (scan Config.machine u = .quiet → ∃ w o n k, exec (.insnBpTrap q d) s = .next
      { u with
        report := ⟨match q with
          | .stop => .execStop
          | .ended => .execEnd, w, o, n⟩
        resp := .ran
        freeCount := k }) ∧
    (∀ k old new, scan Config.machine u = .fired k old new → exec (.insnBpTrap q d) s = .next
      { u with
        slots := u.slots.set k { u.slots[k] with last := new }
        run := .stopped
        report := ⟨.watch, BitVec.ofNat 32 k, old, new⟩
        resp := .ran }) ∧
    (∀ c, scan Config.machine u = .fatal c → ∃ t, exec (.insnBpTrap q d) s = .next t ∧ t.fatal = some c)

/-- The fault unwind (41_execution_loop.md R130): no effect of the instruction, `pc` still at it, no scan, `STOPPED`, reason
`FAULT`, and the run request returns; the instruction found there afterwards is the one found before. A pending stop
request stays pending (60_exceptions.md R263). -/
def Obligations.FaultUnwindIsPrecise : Prop :=
  ∀ s : State, s.InRun → ∃ b w o n k, exec .insnFaulting s = .next
      { s with run := .stopped, budget := b, report := ⟨.fault, w, o, n⟩, resp := .faulted, freeCount := k } ∧
    ∀ t, exec .insnFaulting s = .next t → fetchInsn Config.machine t = fetchInsn Config.machine s

/-! ### The whole machine -/

/-- The state after reset is sound (10_state.md R39, R40, R45). -/
def Obligations.ResetIsSound : Prop := State.reset.Sound

/-- AN INVARIANT THAT EVERY STEP KEEPS: while the block is live its memory is in canonical form, `wp.active ++ wp.free` is a
permutation of the 32 slots, slot `s` has id `s`, every stored expression is within its limit, every active one
tokenizes, and no request stands at a unit's port (10_state.md R39, R40; 42_expression_tokenizer.md R166;
44_watchpoint_manager.md R220; the port, log 7). Of a dead block nothing is said (U7). -/
def Obligations.EveryStepKeepsTheStateSound : Prop :=
  ∀ s t : State, (s.Live → s.Sound) → step s = .next t → (t.Live → t.Sound)

/-- Of the fatal causes only two are ever raised by a step: an access out of bounds, and a deletion on an empty active list.
In particular no operation allocates from an empty free list (44_watchpoint_manager.md R215), and no image is found bad
(60_exceptions.md R256, R269, D33; log 18). -/
def Obligations.StepsRaiseOnlyTheReachableFatalCauses : Prop :=
  ∀ (s t : State) (c : FatalCause), s.Live → step s = .next t → t.fatal = some c →
    (∃ a w b, c = .oobAccess a w b ∧ Config.machine.capacity < a.toNat + w.bytes) ∨
    (c = .poolDeleteEmpty ∧ s.active = [])

/-- The budget bounds a run (41_execution_loop.md R116, R129; 10_state.md R35): a run with a budget of `n`, undisturbed by the
host, is still running after `k` steps only if `k` is at most `n`, with `n - k` left; and the step after the `n`th ends it
with reason `BUDGET`. -/
def Obligations.BudgetBoundsTheRun : Prop :=
  ∀ (s t : State) (n : Word) (k : Nat), s.InRun → s.PortQuiet → s.inputs = [] → s.budget = .count n →
    Sys2Proof.core.run k s = .next t → t.InRun →
    k ≤ n.toNat ∧ t.budget = .count (n - BitVec.ofNat 32 k) ∧
    (k = n.toNat → ∃ u, step t = .next u ∧ u.run = .stopped ∧ u.report.reason = .budget ∧
      u.regs = t.regs ∧ u.pc = t.pc ∧ u.fl = t.fl ∧ u.mem = t.mem)

/-- What a host operation other than reset can write (45_host_commands.md R244; 10_state.md R28): never memory; registers
only by `CMD_REG_WRITE`; run state, budget, stop latch and report only by a run request; a watchpoint's record only by
`CMD_WATCH`, and the two lists only by it and `CMD_DELETE`. -/
def Obligations.HostOperationsWriteOnlyTheirOwnState : Prop :=
  ∀ (s t : State) (r : CmdRecord) (rest : List HostInput), s.Accepts → s.PortQuiet →
    s.inputs = .command r :: rest → r.op ≠ 0x0E → step s = .next t → t.Live →
    t.mem = s.mem ∧ t.inputs = rest ∧
    (r.op ≠ 0x0B → t.regs = s.regs ∧ t.pc = s.pc ∧ t.fl = s.fl) ∧
    (r.op ≠ 0x01 → r.op ≠ 0x02 →
      t.run = s.run ∧ t.budget = s.budget ∧ t.stopPending = s.stopPending ∧ t.report = s.report) ∧
    (r.op ≠ 0x05 → t.slots = s.slots) ∧
    (r.op ≠ 0x05 → r.op ≠ 0x06 → t.active = s.active ∧ t.free = s.free)

/-- `Evaluate`, `Operand` and `Apply` (43_expression_evaluator.md R170, R173, R174, R176, R178, D22, D24, and the operators'
rules R181 to R191). A tokenizer's failure is the failure, an empty token array is `E_INVALID`, and else the tokens are
evaluated as one range. A literal is its digits' value, a register its content, any other token alone `E_INVALID`. A unary
operator must come first and is applied to what follows it; of a binary one both sides are evaluated, whatever the left one
gives, and the outcome is the left fatal condition, else the right one, else the left failure, else the right one, else the
operator's. -/
def Obligations.EvaluateAndApplyFollowTheirRules : Prop :=
  ∀ (P : Params) (s : State),
    (∀ text, (∀ c, tokenize P text = .error c → evaluate P s text = .fail c) ∧
      (tokenize P text = .ok [] → evaluate P s text = .fail .eInvalid) ∧
      ∀ ts, tokenize P text = .ok ts → ts ≠ [] → evaluate P s text = evalTokens P s ts) ∧
    (∀ body, operandValue s ⟨.num, body⟩ = .ok (decValue body) ∧
      operandValue s ⟨.hex, [0x30, 0x78] ++ body⟩ = .ok (hexValue body) ∧
      operandValue s ⟨.reg, [0x24] ++ body⟩ = regValue s body ∧
      ∀ k ∉ [TokenKind.num, .hex, .reg], operandValue s ⟨k, body⟩ = .fail .eInvalid) ∧
    (∀ (ts : List Token) (op : Nat) (t : Token), ts[op]? = some t → isUnary t.kind = true →
      let r := evalTokens P s (ts.drop 1)
      let result := applyAt P s.mem (evalTokens P s) ts op
      (op ≠ 0 → result = .fail .eInvalid) ∧
      (op = 0 → (∀ x, r = .ok x → result = unaryValue P s.mem t.kind x) ∧ (∀ c, r = .fail c → result = .fail c) ∧
        ∀ c, r = .fatal c → result = .fatal c)) ∧
    (∀ (ts : List Token) (op : Nat) (t : Token), ts[op]? = some t → isUnary t.kind = false →
      let a := evalTokens P s (ts.take op)
      let b := evalTokens P s (ts.drop (op + 1))
      let result := applyAt P s.mem (evalTokens P s) ts op
      (∀ c, a = .fatal c → result = .fatal c) ∧
      (∀ c, b = .fatal c → (∀ d, a ≠ .fatal d) → result = .fatal c) ∧
      (∀ c, a = .fail c → (∀ d, b ≠ .fatal d) → result = .fail c) ∧
      (∀ x c, a = .ok x → b = .fail c → result = .fail c) ∧
      ∀ x y, a = .ok x → b = .ok y → result = binaryValue t.kind x y) ∧
    ∀ x y : Word,
      unaryValue P s.mem .not x = .ok (if x = 0 then 1 else 0) ∧
      unaryValue P s.mem .neg x = .ok (BitVec.ofNat 32 (2 ^ 32 - x.toNat)) ∧
      (∀ v, readAt P s.mem .program x .four = .ok v → unaryValue P s.mem .deref x = .ok v) ∧
      (∀ c, readAt P s.mem .program x .four = .error c → unaryValue P s.mem .deref x = .fatal c) ∧
      binaryValue .mul x y = .ok (BitVec.ofNat 32 (x.toNat * y.toNat)) ∧
      (y ≠ 0 → binaryValue .div x y = .ok (BitVec.ofNat 32 (x.toNat / y.toNat))) ∧
      (y = 0 → binaryValue .div x y = .fail .eDivZero) ∧
      binaryValue .add x y = .ok (BitVec.ofNat 32 (x.toNat + y.toNat)) ∧
      binaryValue .sub x y = .ok (BitVec.ofInt 32 (x.toNat - y.toNat)) ∧
      binaryValue .eq x y = .ok (if x = y then 1 else 0) ∧
      binaryValue .ne x y = .ok (if x = y then 0 else 1) ∧
      binaryValue .and x y = .ok (if x ≠ 0 ∧ y ≠ 0 then 1 else 0) ∧
      binaryValue .or x y = .ok (if x ≠ 0 ∨ y ≠ 0 then 1 else 0)
end

