-- ==== Sys2Proof/Laws/Decode.lean ====
section
/-! SUPPORT. What the pieces of the decoder do: a fixed pattern, a greedy run, a record (spec 30_encoding.md R73, R87). -/

namespace Sys2Proof

theorem matchFixed_self (pat : List Byte) (i : Instr) (rest : List Byte) :
    matchFixed pat i (pat ++ rest) = some (i, rest) := by
  simp [matchFixed]

/-- A run that fills the whole text is matched whole. -/
theorem matchRun_whole {p : Byte → Bool} {mk : List Byte → Instr} {bs : List Byte} (h : isRunOf p bs = true) :
    matchRun p mk bs = some (mk bs, []) := by
  simp only [isRunOf, Bool.and_eq_true, Bool.not_eq_true', List.all_eq_true] at h
  have h1 : bs.takeWhile p = bs := List.takeWhile_eq_self_iff.2 h.2
  have h2 : bs.dropWhile p = [] := List.dropWhile_eq_nil_iff.2 h.2
  simp [matchRun, h1, h2, h.1]

/-- A run cannot start on a byte outside its class. -/
theorem matchRun_none {p : Byte → Bool} {mk : List Byte → Instr} {b : Byte} {bs : List Byte} (h : p b = false) :
    matchRun p mk (b :: bs) = none := by
  simp [matchRun, h]

theorem decodeWidth_bytes (w : Width) : decodeWidth (BitVec.ofNat 3 w.bytes) = some w := by cases w <;> rfl

/-- A non-empty run has a first byte, and it is of the class. -/
theorem isRunOf_cons {p : Byte → Bool} {bs : List Byte} (h : isRunOf p bs = true) :
    ∃ b tl, bs = b :: tl ∧ p b = true ∧ tl.all p = true := by
  cases bs with
  | nil => simp [isRunOf] at h
  | cons b tl => exact ⟨b, tl, rfl, by simp_all [isRunOf], by simp_all [isRunOf]⟩

/-- No fixed pattern, and no `0x` or `$`, starts with a blank, and none with a decimal digit but `0x`. -/
theorem isBlank_cases {b : Byte} (h : isBlank b = true) : b = 0x20 ∨ b = 0x09 := by
  simpa [isBlank] using h

/-- On a text that starts with a decimal digit only the two literal rules can match. -/
theorem decodeToken_of_digit {b : Byte} (h : isDecDigit b = true) (tl : List Byte) :
    decodeToken (b :: tl) = (matchHex (b :: tl)).or (matchDec (b :: tl)) := by
  have hb : isBlank b = false ∧ (b == 0x3D) = false ∧ (b == 0x21) = false ∧ (b == 0x26) = false ∧ (b == 0x7C) = false
      ∧ (b == 0x2B) = false ∧ (b == 0x2D) = false ∧ (b == 0x2A) = false ∧ (b == 0x2F) = false ∧ (b == 0x28) = false
      ∧ (b == 0x29) = false ∧ (b == 0x24) = false := by
    revert b; decide
  obtain ⟨h1, h2, h3, h4, h5, h6, h7, h8, h9, h10, h11, h12⟩ := hb
  have e : ∀ c : Byte, (b == c) = false → (c == b) = false := by
    intro c hc
    rw [Bool.eq_false_iff] at hc ⊢
    intro hh
    exact hc (by simpa using (by simpa using hh : c = b).symm)
  have hws : matchWs (b :: tl) = none := matchRun_none h1
  have hreg : matchReg (b :: tl) = none := by
    unfold matchReg
    rw [if_neg]
    simpa [List.isPrefixOf] using e _ h12
  simp only [decodeToken, tokenRules, List.findSome?, hws, hreg, matchEq, matchNe, matchAnd, matchOr, matchNot,
    matchPlus, matchMinus, matchStar, matchSlash, matchLparen, matchRparen, matchFixed, List.isPrefixOf, e _ h2, e _ h3,
    e _ h4, e _ h5, e _ h6, e _ h7, e _ h8, e _ h9, e _ h10, e _ h11, Bool.false_and]
  cases matchHex (b :: tl) <;> cases matchDec (b :: tl) <;> rfl

/-- On a text that starts with `$` only the register rule can match. -/
theorem decodeToken_of_dollar (tl : List Byte) : decodeToken (0x24 :: tl) = matchReg (0x24 :: tl) := by
  have hws : matchWs (0x24 :: tl) = none := matchRun_none (by decide)
  have hdec : matchDec (0x24 :: tl) = none := matchRun_none (by decide)
  simp only [decodeToken, tokenRules, List.findSome?, hws, hdec]
  cases matchReg (0x24 :: tl) <;> rfl

/-- A text that starts with a blank is read by the white space rule. -/
theorem decodeToken_of_blank {b : Byte} (h : isBlank b = true) (tl : List Byte) :
    decodeToken (b :: tl) = matchWs (b :: tl) := by
  have hws : ∃ r, matchWs (b :: tl) = some r := by simp [matchWs, matchRun, h]
  obtain ⟨r, hr⟩ := hws
  simp [decodeToken, tokenRules, hr]

/-- Every record is one of the fifteen host operations. -/
theorem decodeCommand_cases (r : CmdRecord) :
    (r.op = 0x01 ∧ decodeCommand r = .cmdContinue) ∨ (r.op = 0x02 ∧ decodeCommand r = .cmdStep r.a) ∨
    (r.op = 0x03 ∧ decodeCommand r = .cmdPrint r.text) ∨ (r.op = 0x04 ∧ decodeCommand r = .cmdExamine r.a r.b) ∨
    (r.op = 0x05 ∧ decodeCommand r = .cmdWatch r.text) ∨ (r.op = 0x06 ∧ decodeCommand r = .cmdDelete r.a) ∨
    (r.op = 0x07 ∧ decodeCommand r = .cmdInfoRegisters) ∨ (r.op = 0x08 ∧ decodeCommand r = .cmdInfoWatchpoints) ∨
    (r.op = 0x09 ∧ decodeCommand r = .cmdQuit) ∨ (r.op = 0x0A ∧ decodeCommand r = .cmdRegRead (r.a.setWidth 7)) ∨
    (r.op = 0x0B ∧ decodeCommand r = .cmdRegWrite (r.a.setWidth 7) r.b) ∨
    (r.op = 0x0C ∧ decodeCommand r = .cmdMemRead r.a r.b) ∨ (r.op = 0x0D ∧ decodeCommand r = .cmdStopReq) ∨
    (r.op = 0x0E ∧ decodeCommand r = .cmdReset) ∨
    (isReservedOp r.op = true ∧ decodeCommand r = .cmdReserved r.op) := by
  obtain ⟨op, a, b, text⟩ := r
  have hop : ∀ op : Byte, op = 1 ∨ op = 2 ∨ op = 3 ∨ op = 4 ∨ op = 5 ∨ op = 6 ∨ op = 7 ∨ op = 8 ∨ op = 9 ∨ op = 10 ∨
      op = 11 ∨ op = 12 ∨ op = 13 ∨ op = 14 ∨ (isReservedOp op = true ∧ op ≠ 1 ∧ op ≠ 2 ∧ op ≠ 3 ∧ op ≠ 4 ∧ op ≠ 5 ∧
      op ≠ 6 ∧ op ≠ 7 ∧ op ≠ 8 ∧ op ≠ 9 ∧ op ≠ 10 ∧ op ≠ 11 ∧ op ≠ 12 ∧ op ≠ 13 ∧ op ≠ 14) := by decide
  rcases hop op with rfl | rfl | rfl | rfl | rfl | rfl | rfl | rfl | rfl | rfl | rfl | rfl | rfl | rfl |
    ⟨hr, h1, h2, h3, h4, h5, h6, h7, h8, h9, h10, h11, h12, h13, h14⟩ <;> simp only [decodeCommand]
  all_goals first
    | exact .inl ⟨rfl, rfl⟩
    | (simp only [if_neg h1, if_neg h2, if_neg h3, if_neg h4, if_neg h5, if_neg h6, if_neg h7, if_neg h8, if_neg h9,
        if_neg h10, if_neg h11, if_neg h12, if_neg h13, if_neg h14, hr, and_self, or_true])
    | simp

theorem decodeCommand_eq_stopReq_iff (r : CmdRecord) : decodeCommand r = .cmdStopReq ↔ r.op = 0x0D := by
  rcases decodeCommand_cases r with h | h | h | h | h | h | h | h | h | h | h | h | h | h | h <;> rw [h.2]
  all_goals first
    | (rw [h.1]; decide)
    | (constructor
       · intro hh; cases hh
       · intro hh; rw [hh] at h; exact absurd h.1 (by decide))

theorem decodeCommand_eq_reset_iff (r : CmdRecord) : decodeCommand r = .cmdReset ↔ r.op = 0x0E := by
  rcases decodeCommand_cases r with h | h | h | h | h | h | h | h | h | h | h | h | h | h | h <;> rw [h.2]
  all_goals first
    | (rw [h.1]; decide)
    | (constructor
       · intro hh; cases hh
       · intro hh; rw [hh] at h; exact absurd h.1 (by decide))

/-- Every record decodes to a well-formed host operation. -/
theorem decodeCommand_wf (r : CmdRecord) : (decodeCommand r).wf = true := by
  rcases decodeCommand_cases r with h | h | h | h | h | h | h | h | h | h | h | h | h | h | h <;> rw [h.2]
  all_goals first | rfl | exact h.1

end Sys2Proof
end

