-- ==== Sys2Proof/Laws/Memory.lean ====
section
/-! SUPPORT. The backing store: every write keeps the canonical form, and a read after a write gives what was written
and nothing else changes (spec 20_memory.md R53, R58). -/

namespace Sys2Proof

theorem Memory.wfFrom_mono {m0 : Nat → Byte} {cap lo lo' : Nat} {m : Memory} (h : Memory.wfFrom m0 cap lo m = true)
    (hl : lo' ≤ lo) : Memory.wfFrom m0 cap lo' m = true := by
  cases m with
  | nil => rfl
  | cons c rest =>
    obtain ⟨a, v⟩ := c
    simp only [Memory.wfFrom, Bool.and_eq_true, decide_eq_true_eq] at h ⊢
    exact ⟨⟨⟨by omega, h.1.1.2⟩, h.1.2⟩, h.2⟩

/-- Below its first address a canonical memory reads as `MEM0`. -/
theorem Memory.get_below {m0 : Nat → Byte} {cap lo : Nat} {m : Memory} (h : Memory.wfFrom m0 cap lo m = true) {a : Nat}
    (ha : a < lo) : Memory.get m0 m a = m0 a := by
  induction m generalizing lo with
  | nil => rfl
  | cons c rest ih =>
    obtain ⟨b, v⟩ := c
    simp only [Memory.wfFrom, Bool.and_eq_true, decide_eq_true_eq] at h
    have hne : a ≠ b := by omega
    simp only [Memory.get, if_neg hne]
    exact ih h.2 (by omega)

/-- Writing one byte keeps the canonical form. -/
theorem Memory.put_wf {m0 : Nat → Byte} {cap lo a : Nat} {v : Byte} {m : Memory} (h : Memory.wfFrom m0 cap lo m = true)
    (hlo : lo ≤ a) (hcap : a < cap) : Memory.wfFrom m0 cap lo (Memory.put m0 a v m) = true := by
  induction m generalizing lo with
  | nil =>
    unfold Memory.put
    split <;> simp_all [Memory.wfFrom]
  | cons c rest ih =>
    obtain ⟨b, w⟩ := c
    have hc := h
    simp only [Memory.wfFrom, Bool.and_eq_true, decide_eq_true_eq] at h
    obtain ⟨⟨⟨h1, h2⟩, h3⟩, h4⟩ := h
    unfold Memory.put
    split
    · split
      · exact hc
      · have : Memory.wfFrom m0 cap (a + 1) ((b, w) :: rest) = true := by
          simp only [Memory.wfFrom, Bool.and_eq_true, decide_eq_true_eq]
          exact ⟨⟨⟨by omega, h2⟩, h3⟩, h4⟩
        rw [Memory.wfFrom]
        simp only [Bool.and_eq_true, decide_eq_true_eq]
        exact ⟨⟨⟨hlo, hcap⟩, ‹_›⟩, this⟩
    · split
      · subst_vars
        split
        · exact Memory.wfFrom_mono h4 (by omega)
        · simp only [Memory.wfFrom, Bool.and_eq_true, decide_eq_true_eq]
          exact ⟨⟨⟨h1, h2⟩, ‹_›⟩, h4⟩
      · simp only [Memory.wfFrom, Bool.and_eq_true, decide_eq_true_eq]
        exact ⟨⟨⟨h1, h2⟩, h3⟩, ih h4 (by omega)⟩

/-- One byte read after one byte written, in a canonical memory. -/
theorem Memory.get_put {m0 : Nat → Byte} {cap lo a : Nat} {v : Byte} {m : Memory} (h : Memory.wfFrom m0 cap lo m = true)
    (b : Nat) : Memory.get m0 (Memory.put m0 a v m) b = if b = a then v else Memory.get m0 m b := by
  induction m generalizing lo with
  | nil =>
    unfold Memory.put
    split <;> by_cases hb : b = a <;> simp_all [Memory.get]
  | cons c rest ih =>
    obtain ⟨e, w⟩ := c
    have hc := h
    simp only [Memory.wfFrom, Bool.and_eq_true, decide_eq_true_eq] at h
    obtain ⟨⟨⟨h1, h2⟩, h3⟩, h4⟩ := h
    unfold Memory.put
    split
    · have hbelow : Memory.get m0 ((e, w) :: rest) a = m0 a := by
        have hne : a ≠ e := by omega
        simp only [Memory.get, if_neg hne]
        exact Memory.get_below h4 (by omega)
      split
      · by_cases hb : b = a
        · subst hb; simp_all
        · simp [hb]
      · by_cases hb : b = a <;> simp [Memory.get, hb]
    · split
      · subst_vars
        have hbelow : Memory.get m0 rest e = m0 e := Memory.get_below h4 (by omega)
        split
        · by_cases hb : b = e
          · subst hb; simp_all
          · simp [Memory.get, hb]
        · by_cases hb : b = e <;> simp [Memory.get, hb]
      · have hne : a ≠ e := by omega
        by_cases hbe : b = e
        · subst hbe; simp [Memory.get, Ne.symm hne]
        · simp only [Memory.get, if_neg hbe]; exact ih h4

/-- Writing `n` bytes inside the store keeps the canonical form. -/
theorem Memory.putLE_wf {m0 : Nat → Byte} {cap a n v : Nat} {m : Memory} (h : Memory.wfFrom m0 cap 0 m = true)
    (hcap : a + n ≤ cap) : Memory.wfFrom m0 cap 0 (Memory.putLE m0 a n v m) = true := by
  induction n generalizing a v m with
  | zero => exact h
  | succ n ih => exact ih (Memory.put_wf h (by omega) (by omega)) (by omega)

/-- Every byte after `n` bytes were written at `a`: byte `b - a` of the value inside, the old one outside. -/
theorem Memory.get_putLE {m0 : Nat → Byte} {cap a n v : Nat} {m : Memory} (h : Memory.wfFrom m0 cap 0 m = true)
    (hcap : a + n ≤ cap) (b : Nat) :
    Memory.get m0 (Memory.putLE m0 a n v m) b =
      if a ≤ b ∧ b < a + n then BitVec.ofNat 8 (v / 256 ^ (b - a)) else Memory.get m0 m b := by
  induction n generalizing a v m with
  | zero => rw [if_neg (by omega)]; rfl
  | succ n ih =>
    have h' := Memory.put_wf (a := a) (v := BitVec.ofNat 8 v) h (by omega) (by omega)
    rw [Memory.putLE, ih h' (by omega), Memory.get_put h]
    by_cases h1 : b = a
    · subst h1
      rw [if_neg (by omega), if_pos rfl, if_pos (by omega)]
      simp
    · by_cases h2 : a + 1 ≤ b ∧ b < a + 1 + n
      · rw [if_pos h2, if_pos (by omega), Nat.div_div_eq_div_mul]
        congr 2
        rw [show b - a = (b - (a + 1)) + 1 by omega, pow_succ, Nat.mul_comm]
      · rw [if_neg h2, if_neg h1, if_neg (by omega)]

/-- The little-endian value as a sum over the bytes (R104). -/
theorem Memory.getLE_eq_sum (m0 : Nat → Byte) (m : Memory) (a n : Nat) :
    Memory.getLE m0 m a n = ∑ k ∈ Finset.range n, (Memory.get m0 m (a + k)).toNat * 256 ^ k := by
  induction n generalizing a with
  | zero => rfl
  | succ n ih =>
    rw [Memory.getLE, ih, Finset.sum_range_succ', Finset.mul_sum]
    simp only [Nat.add_zero, pow_zero, Nat.mul_one]
    rw [Nat.add_comm]
    congr 1
    apply Finset.sum_congr rfl
    intro k _
    rw [show a + 1 + k = a + (k + 1) by omega, pow_succ]
    ring

theorem Memory.getLE_lt (m0 : Nat → Byte) (m : Memory) (a n : Nat) : Memory.getLE m0 m a n < 256 ^ n := by
  induction n generalizing a with
  | zero => simp [Memory.getLE]
  | succ n ih =>
    have h1 := (Memory.get m0 m a).isLt
    have h2 := ih (a + 1)
    rw [Memory.getLE, pow_succ]
    omega

end Sys2Proof
end

