-- ==== Sys2Proof/Laws/State.lean ====
section
/-! SUPPORT. For every update of a state, each field after it: true by computation, so that no later proof unfolds an
update. -/

namespace Sys2Proof.Machine.State

variable (s : State)

/-! ### After delivering a response -/

@[simp] theorem respond_regs (r : Response) : (s.respond r).regs = s.regs := rfl
@[simp] theorem respond_pc (r : Response) : (s.respond r).pc = s.pc := rfl
@[simp] theorem respond_fl (r : Response) : (s.respond r).fl = s.fl := rfl
@[simp] theorem respond_mem (r : Response) : (s.respond r).mem = s.mem := rfl
@[simp] theorem respond_run (r : Response) : (s.respond r).run = s.run := rfl
@[simp] theorem respond_budget (r : Response) : (s.respond r).budget = s.budget := rfl
@[simp] theorem respond_stopPending (r : Response) : (s.respond r).stopPending = s.stopPending := rfl
@[simp] theorem respond_fatal (r : Response) : (s.respond r).fatal = s.fatal := rfl
@[simp] theorem respond_report (r : Response) : (s.respond r).report = s.report := rfl
@[simp] theorem respond_slots (r : Response) : (s.respond r).slots = s.slots := rfl
@[simp] theorem respond_active (r : Response) : (s.respond r).active = s.active := rfl
@[simp] theorem respond_free (r : Response) : (s.respond r).free = s.free := rfl
@[simp] theorem respond_inputs (r : Response) : (s.respond r).inputs = s.inputs := rfl
@[simp] theorem respond_unitReq (r : Response) : (s.respond r).unitReq = s.unitReq := rfl
@[simp] theorem respond_resp (r : Response) : (s.respond r).resp = r := rfl
@[simp] theorem respond_freeCount (r : Response) : (s.respond r).freeCount = s.freeCount := rfl

/-! ### After a fatal condition -/

@[simp] theorem raiseFatal_regs (c : FatalCause) : (s.raiseFatal c).regs = s.regs := rfl
@[simp] theorem raiseFatal_pc (c : FatalCause) : (s.raiseFatal c).pc = s.pc := rfl
@[simp] theorem raiseFatal_fl (c : FatalCause) : (s.raiseFatal c).fl = s.fl := rfl
@[simp] theorem raiseFatal_mem (c : FatalCause) : (s.raiseFatal c).mem = s.mem := rfl
@[simp] theorem raiseFatal_run (c : FatalCause) : (s.raiseFatal c).run = s.run := rfl
@[simp] theorem raiseFatal_budget (c : FatalCause) : (s.raiseFatal c).budget = s.budget := rfl
@[simp] theorem raiseFatal_stopPending (c : FatalCause) : (s.raiseFatal c).stopPending = s.stopPending := rfl
@[simp] theorem raiseFatal_fatal (c : FatalCause) : (s.raiseFatal c).fatal = some c := rfl
@[simp] theorem raiseFatal_report (c : FatalCause) : (s.raiseFatal c).report = s.report := rfl
@[simp] theorem raiseFatal_slots (c : FatalCause) : (s.raiseFatal c).slots = s.slots := rfl
@[simp] theorem raiseFatal_active (c : FatalCause) : (s.raiseFatal c).active = s.active := rfl
@[simp] theorem raiseFatal_free (c : FatalCause) : (s.raiseFatal c).free = s.free := rfl
@[simp] theorem raiseFatal_inputs (c : FatalCause) : (s.raiseFatal c).inputs = s.inputs := rfl
@[simp] theorem raiseFatal_unitReq (c : FatalCause) : (s.raiseFatal c).unitReq = s.unitReq := rfl
@[simp] theorem raiseFatal_resp (c : FatalCause) : (s.raiseFatal c).resp = .silent := rfl
@[simp] theorem raiseFatal_freeCount (c : FatalCause) : (s.raiseFatal c).freeCount = s.freeCount := rfl

/-! ### After a recoverable failure -/

@[simp] theorem raiseFail_regs (c : FailCode) : (s.raiseFail c).regs = s.regs := rfl
@[simp] theorem raiseFail_pc (c : FailCode) : (s.raiseFail c).pc = s.pc := rfl
@[simp] theorem raiseFail_fl (c : FailCode) : (s.raiseFail c).fl = s.fl := rfl
@[simp] theorem raiseFail_mem (c : FailCode) : (s.raiseFail c).mem = s.mem := rfl
@[simp] theorem raiseFail_run (c : FailCode) : (s.raiseFail c).run = s.run := rfl
@[simp] theorem raiseFail_budget (c : FailCode) : (s.raiseFail c).budget = s.budget := rfl
@[simp] theorem raiseFail_stopPending (c : FailCode) : (s.raiseFail c).stopPending = s.stopPending := rfl
@[simp] theorem raiseFail_fatal (c : FailCode) : (s.raiseFail c).fatal = s.fatal := rfl
@[simp] theorem raiseFail_report (c : FailCode) : (s.raiseFail c).report = s.report := rfl
@[simp] theorem raiseFail_slots (c : FailCode) : (s.raiseFail c).slots = s.slots := rfl
@[simp] theorem raiseFail_active (c : FailCode) : (s.raiseFail c).active = s.active := rfl
@[simp] theorem raiseFail_free (c : FailCode) : (s.raiseFail c).free = s.free := rfl
@[simp] theorem raiseFail_inputs (c : FailCode) : (s.raiseFail c).inputs = s.inputs := rfl
@[simp] theorem raiseFail_unitReq (c : FailCode) : (s.raiseFail c).unitReq = s.unitReq := rfl
@[simp] theorem raiseFail_resp (c : FailCode) : (s.raiseFail c).resp = .fail c := rfl
@[simp] theorem raiseFail_freeCount (c : FailCode) : (s.raiseFail c).freeCount = s.freeCount := rfl

/-! ### After writing the report -/

@[simp] theorem reportOf_regs (P : Params) (q : Reason) : (s.reportOf P q).regs = s.regs := rfl
@[simp] theorem reportOf_pc (P : Params) (q : Reason) : (s.reportOf P q).pc = s.pc := rfl
@[simp] theorem reportOf_fl (P : Params) (q : Reason) : (s.reportOf P q).fl = s.fl := rfl
@[simp] theorem reportOf_mem (P : Params) (q : Reason) : (s.reportOf P q).mem = s.mem := rfl
@[simp] theorem reportOf_run (P : Params) (q : Reason) : (s.reportOf P q).run = s.run := rfl
@[simp] theorem reportOf_budget (P : Params) (q : Reason) : (s.reportOf P q).budget = s.budget := rfl
@[simp] theorem reportOf_stopPending (P : Params) (q : Reason) : (s.reportOf P q).stopPending = s.stopPending := rfl
@[simp] theorem reportOf_fatal (P : Params) (q : Reason) : (s.reportOf P q).fatal = s.fatal := rfl
@[simp] theorem reportOf_report (P : Params) (q : Reason) : (s.reportOf P q).report = ⟨q, P.freeWord s.freeCount, P.freeWord (s.freeCount + 1), P.freeWord (s.freeCount + 2)⟩ := rfl
@[simp] theorem reportOf_slots (P : Params) (q : Reason) : (s.reportOf P q).slots = s.slots := rfl
@[simp] theorem reportOf_active (P : Params) (q : Reason) : (s.reportOf P q).active = s.active := rfl
@[simp] theorem reportOf_free (P : Params) (q : Reason) : (s.reportOf P q).free = s.free := rfl
@[simp] theorem reportOf_inputs (P : Params) (q : Reason) : (s.reportOf P q).inputs = s.inputs := rfl
@[simp] theorem reportOf_unitReq (P : Params) (q : Reason) : (s.reportOf P q).unitReq = s.unitReq := rfl
@[simp] theorem reportOf_resp (P : Params) (q : Reason) : (s.reportOf P q).resp = s.resp := rfl
@[simp] theorem reportOf_freeCount (P : Params) (q : Reason) : (s.reportOf P q).freeCount = s.freeCount + 3 := rfl

/-! ### After the return of a run request -/

@[simp] theorem endRun_regs (P : Params) (q : Reason) : (s.endRun P q).regs = s.regs := rfl
@[simp] theorem endRun_pc (P : Params) (q : Reason) : (s.endRun P q).pc = s.pc := rfl
@[simp] theorem endRun_fl (P : Params) (q : Reason) : (s.endRun P q).fl = s.fl := rfl
@[simp] theorem endRun_mem (P : Params) (q : Reason) : (s.endRun P q).mem = s.mem := rfl
@[simp] theorem endRun_run (P : Params) (q : Reason) : (s.endRun P q).run = s.run := rfl
@[simp] theorem endRun_budget (P : Params) (q : Reason) : (s.endRun P q).budget = s.budget := rfl
@[simp] theorem endRun_stopPending (P : Params) (q : Reason) : (s.endRun P q).stopPending = s.stopPending := rfl
@[simp] theorem endRun_fatal (P : Params) (q : Reason) : (s.endRun P q).fatal = s.fatal := rfl
@[simp] theorem endRun_report (P : Params) (q : Reason) : (s.endRun P q).report = ⟨q, P.freeWord s.freeCount, P.freeWord (s.freeCount + 1), P.freeWord (s.freeCount + 2)⟩ := rfl
@[simp] theorem endRun_slots (P : Params) (q : Reason) : (s.endRun P q).slots = s.slots := rfl
@[simp] theorem endRun_active (P : Params) (q : Reason) : (s.endRun P q).active = s.active := rfl
@[simp] theorem endRun_free (P : Params) (q : Reason) : (s.endRun P q).free = s.free := rfl
@[simp] theorem endRun_inputs (P : Params) (q : Reason) : (s.endRun P q).inputs = s.inputs := rfl
@[simp] theorem endRun_unitReq (P : Params) (q : Reason) : (s.endRun P q).unitReq = s.unitReq := rfl
@[simp] theorem endRun_resp (P : Params) (q : Reason) : (s.endRun P q).resp = .ran := rfl
@[simp] theorem endRun_freeCount (P : Params) (q : Reason) : (s.endRun P q).freeCount = s.freeCount + 3 := rfl

/-! ### After a run stopping -/

@[simp] theorem stopRun_regs (P : Params) (q : Reason) : (s.stopRun P q).regs = s.regs := rfl
@[simp] theorem stopRun_pc (P : Params) (q : Reason) : (s.stopRun P q).pc = s.pc := rfl
@[simp] theorem stopRun_fl (P : Params) (q : Reason) : (s.stopRun P q).fl = s.fl := rfl
@[simp] theorem stopRun_mem (P : Params) (q : Reason) : (s.stopRun P q).mem = s.mem := rfl
@[simp] theorem stopRun_run (P : Params) (q : Reason) : (s.stopRun P q).run = .stopped := rfl
@[simp] theorem stopRun_budget (P : Params) (q : Reason) : (s.stopRun P q).budget = s.budget := rfl
@[simp] theorem stopRun_stopPending (P : Params) (q : Reason) : (s.stopRun P q).stopPending = s.stopPending := rfl
@[simp] theorem stopRun_fatal (P : Params) (q : Reason) : (s.stopRun P q).fatal = s.fatal := rfl
@[simp] theorem stopRun_report (P : Params) (q : Reason) : (s.stopRun P q).report = ⟨q, P.freeWord s.freeCount, P.freeWord (s.freeCount + 1), P.freeWord (s.freeCount + 2)⟩ := rfl
@[simp] theorem stopRun_slots (P : Params) (q : Reason) : (s.stopRun P q).slots = s.slots := rfl
@[simp] theorem stopRun_active (P : Params) (q : Reason) : (s.stopRun P q).active = s.active := rfl
@[simp] theorem stopRun_free (P : Params) (q : Reason) : (s.stopRun P q).free = s.free := rfl
@[simp] theorem stopRun_inputs (P : Params) (q : Reason) : (s.stopRun P q).inputs = s.inputs := rfl
@[simp] theorem stopRun_unitReq (P : Params) (q : Reason) : (s.stopRun P q).unitReq = s.unitReq := rfl
@[simp] theorem stopRun_resp (P : Params) (q : Reason) : (s.stopRun P q).resp = .ran := rfl
@[simp] theorem stopRun_freeCount (P : Params) (q : Reason) : (s.stopRun P q).freeCount = s.freeCount + 3 := rfl

/-! ### After the fault unwind -/

@[simp] theorem unwindFault_regs (P : Params) : (s.unwindFault P).regs = s.regs := rfl
@[simp] theorem unwindFault_pc (P : Params) : (s.unwindFault P).pc = s.pc := rfl
@[simp] theorem unwindFault_fl (P : Params) : (s.unwindFault P).fl = s.fl := rfl
@[simp] theorem unwindFault_mem (P : Params) : (s.unwindFault P).mem = s.mem := rfl
@[simp] theorem unwindFault_run (P : Params) : (s.unwindFault P).run = .stopped := rfl
@[simp] theorem unwindFault_budget (P : Params) : (s.unwindFault P).budget = s.budget := rfl
@[simp] theorem unwindFault_stopPending (P : Params) : (s.unwindFault P).stopPending = s.stopPending := rfl
@[simp] theorem unwindFault_fatal (P : Params) : (s.unwindFault P).fatal = s.fatal := rfl
@[simp] theorem unwindFault_report (P : Params) : (s.unwindFault P).report = ⟨.fault, P.freeWord s.freeCount, P.freeWord (s.freeCount + 1), P.freeWord (s.freeCount + 2)⟩ := rfl
@[simp] theorem unwindFault_slots (P : Params) : (s.unwindFault P).slots = s.slots := rfl
@[simp] theorem unwindFault_active (P : Params) : (s.unwindFault P).active = s.active := rfl
@[simp] theorem unwindFault_free (P : Params) : (s.unwindFault P).free = s.free := rfl
@[simp] theorem unwindFault_inputs (P : Params) : (s.unwindFault P).inputs = s.inputs := rfl
@[simp] theorem unwindFault_unitReq (P : Params) : (s.unwindFault P).unitReq = s.unitReq := rfl
@[simp] theorem unwindFault_resp (P : Params) : (s.unwindFault P).resp = .faulted := rfl
@[simp] theorem unwindFault_freeCount (P : Params) : (s.unwindFault P).freeCount = s.freeCount + 3 := rfl

/-! ### After filling a slot -/

@[simp] theorem fillSlot_regs (k : Fin 32) (e : List Byte) (w : Word) : (s.fillSlot k e w).regs = s.regs := rfl
@[simp] theorem fillSlot_pc (k : Fin 32) (e : List Byte) (w : Word) : (s.fillSlot k e w).pc = s.pc := rfl
@[simp] theorem fillSlot_fl (k : Fin 32) (e : List Byte) (w : Word) : (s.fillSlot k e w).fl = s.fl := rfl
@[simp] theorem fillSlot_mem (k : Fin 32) (e : List Byte) (w : Word) : (s.fillSlot k e w).mem = s.mem := rfl
@[simp] theorem fillSlot_run (k : Fin 32) (e : List Byte) (w : Word) : (s.fillSlot k e w).run = s.run := rfl
@[simp] theorem fillSlot_budget (k : Fin 32) (e : List Byte) (w : Word) : (s.fillSlot k e w).budget = s.budget := rfl
@[simp] theorem fillSlot_stopPending (k : Fin 32) (e : List Byte) (w : Word) : (s.fillSlot k e w).stopPending = s.stopPending := rfl
@[simp] theorem fillSlot_fatal (k : Fin 32) (e : List Byte) (w : Word) : (s.fillSlot k e w).fatal = s.fatal := rfl
@[simp] theorem fillSlot_report (k : Fin 32) (e : List Byte) (w : Word) : (s.fillSlot k e w).report = s.report := rfl
@[simp] theorem fillSlot_slots (k : Fin 32) (e : List Byte) (w : Word) : (s.fillSlot k e w).slots = s.slots.set k ⟨(s.slots[k]).id, e, w⟩ := rfl
@[simp] theorem fillSlot_active (k : Fin 32) (e : List Byte) (w : Word) : (s.fillSlot k e w).active = s.active := rfl
@[simp] theorem fillSlot_free (k : Fin 32) (e : List Byte) (w : Word) : (s.fillSlot k e w).free = s.free := rfl
@[simp] theorem fillSlot_inputs (k : Fin 32) (e : List Byte) (w : Word) : (s.fillSlot k e w).inputs = s.inputs := rfl
@[simp] theorem fillSlot_unitReq (k : Fin 32) (e : List Byte) (w : Word) : (s.fillSlot k e w).unitReq = s.unitReq := rfl
@[simp] theorem fillSlot_resp (k : Fin 32) (e : List Byte) (w : Word) : (s.fillSlot k e w).resp = s.resp := rfl
@[simp] theorem fillSlot_freeCount (k : Fin 32) (e : List Byte) (w : Word) : (s.fillSlot k e w).freeCount = s.freeCount := rfl

/-! ### After storing a watched value -/

@[simp] theorem storeLast_regs (k : Fin 32) (w : Word) : (s.storeLast k w).regs = s.regs := rfl
@[simp] theorem storeLast_pc (k : Fin 32) (w : Word) : (s.storeLast k w).pc = s.pc := rfl
@[simp] theorem storeLast_fl (k : Fin 32) (w : Word) : (s.storeLast k w).fl = s.fl := rfl
@[simp] theorem storeLast_mem (k : Fin 32) (w : Word) : (s.storeLast k w).mem = s.mem := rfl
@[simp] theorem storeLast_run (k : Fin 32) (w : Word) : (s.storeLast k w).run = s.run := rfl
@[simp] theorem storeLast_budget (k : Fin 32) (w : Word) : (s.storeLast k w).budget = s.budget := rfl
@[simp] theorem storeLast_stopPending (k : Fin 32) (w : Word) : (s.storeLast k w).stopPending = s.stopPending := rfl
@[simp] theorem storeLast_fatal (k : Fin 32) (w : Word) : (s.storeLast k w).fatal = s.fatal := rfl
@[simp] theorem storeLast_report (k : Fin 32) (w : Word) : (s.storeLast k w).report = s.report := rfl
@[simp] theorem storeLast_slots (k : Fin 32) (w : Word) : (s.storeLast k w).slots = s.slots.set k ⟨(s.slots[k]).id, (s.slots[k]).expr, w⟩ := rfl
@[simp] theorem storeLast_active (k : Fin 32) (w : Word) : (s.storeLast k w).active = s.active := rfl
@[simp] theorem storeLast_free (k : Fin 32) (w : Word) : (s.storeLast k w).free = s.free := rfl
@[simp] theorem storeLast_inputs (k : Fin 32) (w : Word) : (s.storeLast k w).inputs = s.inputs := rfl
@[simp] theorem storeLast_unitReq (k : Fin 32) (w : Word) : (s.storeLast k w).unitReq = s.unitReq := rfl
@[simp] theorem storeLast_resp (k : Fin 32) (w : Word) : (s.storeLast k w).resp = s.resp := rfl
@[simp] theorem storeLast_freeCount (k : Fin 32) (w : Word) : (s.storeLast k w).freeCount = s.freeCount := rfl

/-! ### After the advance -/

@[simp] theorem advance_regs (n : Word) : (s.advance n).regs = s.regs := rfl
@[simp] theorem advance_pc (n : Word) : (s.advance n).pc = s.pc + n := rfl
@[simp] theorem advance_fl (n : Word) : (s.advance n).fl = s.fl := rfl
@[simp] theorem advance_mem (n : Word) : (s.advance n).mem = s.mem := rfl
@[simp] theorem advance_run (n : Word) : (s.advance n).run = s.run := rfl
@[simp] theorem advance_budget (n : Word) : (s.advance n).budget = s.budget := rfl
@[simp] theorem advance_stopPending (n : Word) : (s.advance n).stopPending = s.stopPending := rfl
@[simp] theorem advance_fatal (n : Word) : (s.advance n).fatal = s.fatal := rfl
@[simp] theorem advance_report (n : Word) : (s.advance n).report = s.report := rfl
@[simp] theorem advance_slots (n : Word) : (s.advance n).slots = s.slots := rfl
@[simp] theorem advance_active (n : Word) : (s.advance n).active = s.active := rfl
@[simp] theorem advance_free (n : Word) : (s.advance n).free = s.free := rfl
@[simp] theorem advance_inputs (n : Word) : (s.advance n).inputs = s.inputs := rfl
@[simp] theorem advance_unitReq (n : Word) : (s.advance n).unitReq = s.unitReq := rfl
@[simp] theorem advance_resp (n : Word) : (s.advance n).resp = s.resp := rfl
@[simp] theorem advance_freeCount (n : Word) : (s.advance n).freeCount = s.freeCount := rfl

/-! ### After a firing -/

@[simp] theorem fire_regs (k : Fin 32) (o n : Word) : (s.fire k o n).regs = s.regs := rfl
@[simp] theorem fire_pc (k : Fin 32) (o n : Word) : (s.fire k o n).pc = s.pc := rfl
@[simp] theorem fire_fl (k : Fin 32) (o n : Word) : (s.fire k o n).fl = s.fl := rfl
@[simp] theorem fire_mem (k : Fin 32) (o n : Word) : (s.fire k o n).mem = s.mem := rfl
@[simp] theorem fire_run (k : Fin 32) (o n : Word) : (s.fire k o n).run = .stopped := rfl
@[simp] theorem fire_budget (k : Fin 32) (o n : Word) : (s.fire k o n).budget = s.budget := rfl
@[simp] theorem fire_stopPending (k : Fin 32) (o n : Word) : (s.fire k o n).stopPending = s.stopPending := rfl
@[simp] theorem fire_fatal (k : Fin 32) (o n : Word) : (s.fire k o n).fatal = s.fatal := rfl
@[simp] theorem fire_report (k : Fin 32) (o n : Word) : (s.fire k o n).report = ⟨.watch, slotWord k, o, n⟩ := rfl
@[simp] theorem fire_slots (k : Fin 32) (o n : Word) : (s.fire k o n).slots = s.slots.set k ⟨(s.slots[k]).id, (s.slots[k]).expr, n⟩ := rfl
@[simp] theorem fire_active (k : Fin 32) (o n : Word) : (s.fire k o n).active = s.active := rfl
@[simp] theorem fire_free (k : Fin 32) (o n : Word) : (s.fire k o n).free = s.free := rfl
@[simp] theorem fire_inputs (k : Fin 32) (o n : Word) : (s.fire k o n).inputs = s.inputs := rfl
@[simp] theorem fire_unitReq (k : Fin 32) (o n : Word) : (s.fire k o n).unitReq = s.unitReq := rfl
@[simp] theorem fire_resp (k : Fin 32) (o n : Word) : (s.fire k o n).resp = .ran := rfl
@[simp] theorem fire_freeCount (k : Fin 32) (o n : Word) : (s.fire k o n).freeCount = s.freeCount := rfl

/-! ### After an instruction's effects are installed -/

@[simp] theorem install_regs (q : Option HaltReq) (d : Done) : (s.install q d).regs = d.regs := rfl
@[simp] theorem install_pc (q : Option HaltReq) (d : Done) : (s.install q d).pc = d.pc := rfl
@[simp] theorem install_fl (q : Option HaltReq) (d : Done) : (s.install q d).fl = d.fl := rfl
@[simp] theorem install_mem (q : Option HaltReq) (d : Done) : (s.install q d).mem = d.mem := rfl
@[simp] theorem install_run_none (d : Done) : (s.install none d).run = s.run := rfl
@[simp] theorem install_run_stop (d : Done) : (s.install (some .stop) d).run = .stopped := rfl
@[simp] theorem install_run_ended (d : Done) : (s.install (some .ended) d).run = .ended := rfl
@[simp] theorem install_budget (q : Option HaltReq) (d : Done) : (s.install q d).budget = s.budget := rfl
@[simp] theorem install_stopPending (q : Option HaltReq) (d : Done) : (s.install q d).stopPending = s.stopPending := rfl
@[simp] theorem install_fatal (q : Option HaltReq) (d : Done) : (s.install q d).fatal = s.fatal := rfl
@[simp] theorem install_report (q : Option HaltReq) (d : Done) : (s.install q d).report = s.report := rfl
@[simp] theorem install_slots (q : Option HaltReq) (d : Done) : (s.install q d).slots = s.slots := rfl
@[simp] theorem install_active (q : Option HaltReq) (d : Done) : (s.install q d).active = s.active := rfl
@[simp] theorem install_free (q : Option HaltReq) (d : Done) : (s.install q d).free = s.free := rfl
@[simp] theorem install_inputs (q : Option HaltReq) (d : Done) : (s.install q d).inputs = s.inputs := rfl
@[simp] theorem install_unitReq (q : Option HaltReq) (d : Done) : (s.install q d).unitReq = s.unitReq := rfl
@[simp] theorem install_resp (q : Option HaltReq) (d : Done) : (s.install q d).resp = s.resp := rfl
@[simp] theorem install_freeCount (q : Option HaltReq) (d : Done) : (s.install q d).freeCount = s.freeCount := rfl

/-! ### After the poll, which can change only the latch and `run` -/

@[simp] theorem poll_regs : (s.poll).regs = s.regs := by unfold poll; split <;> rfl
@[simp] theorem poll_pc : (s.poll).pc = s.pc := by unfold poll; split <;> rfl
@[simp] theorem poll_fl : (s.poll).fl = s.fl := by unfold poll; split <;> rfl
@[simp] theorem poll_mem : (s.poll).mem = s.mem := by unfold poll; split <;> rfl
@[simp] theorem poll_budget : (s.poll).budget = s.budget := by unfold poll; split <;> rfl
@[simp] theorem poll_fatal : (s.poll).fatal = s.fatal := by unfold poll; split <;> rfl
@[simp] theorem poll_report : (s.poll).report = s.report := by unfold poll; split <;> rfl
@[simp] theorem poll_slots : (s.poll).slots = s.slots := by unfold poll; split <;> rfl
@[simp] theorem poll_active : (s.poll).active = s.active := by unfold poll; split <;> rfl
@[simp] theorem poll_free : (s.poll).free = s.free := by unfold poll; split <;> rfl
@[simp] theorem poll_inputs : (s.poll).inputs = s.inputs := by unfold poll; split <;> rfl
@[simp] theorem poll_unitReq : (s.poll).unitReq = s.unitReq := by unfold poll; split <;> rfl
@[simp] theorem poll_resp : (s.poll).resp = s.resp := by unfold poll; split <;> rfl
@[simp] theorem poll_freeCount : (s.poll).freeCount = s.freeCount := by unfold poll; split <;> rfl
@[simp] theorem poll_stopPending : (s.poll).stopPending = false := by
  unfold poll
  split
  · rfl
  · simpa using ‹¬ s.stopPending = true›
theorem poll_of_not_pending (h : s.stopPending = false) : s.poll = s := by simp [poll, h]
theorem poll_run_of_running (hp : s.stopPending = true) (hr : s.run = .running) : (s.poll).run = .stopped := by
  simp [poll, hp, hr]
theorem poll_run_of_not_running (hr : s.run ≠ .running) : (s.poll).run = s.run := by
  unfold poll
  split
  · cases h : s.run <;> simp_all
  · rfl

/-! ### After a word of the register file is saved -/

@[simp] theorem save_mem (w : Word) (t : Store) : (s.save w t).mem = s.mem := by cases t <;> rfl
@[simp] theorem writeView_mem (v : RegView) (b : Word) : (s.writeView v b).mem = s.mem := save_mem ..
@[simp] theorem save_run (w : Word) (t : Store) : (s.save w t).run = s.run := by cases t <;> rfl
@[simp] theorem writeView_run (v : RegView) (b : Word) : (s.writeView v b).run = s.run := save_run ..
@[simp] theorem save_budget (w : Word) (t : Store) : (s.save w t).budget = s.budget := by cases t <;> rfl
@[simp] theorem writeView_budget (v : RegView) (b : Word) : (s.writeView v b).budget = s.budget := save_budget ..
@[simp] theorem save_stopPending (w : Word) (t : Store) : (s.save w t).stopPending = s.stopPending := by cases t <;> rfl
@[simp] theorem writeView_stopPending (v : RegView) (b : Word) : (s.writeView v b).stopPending = s.stopPending := save_stopPending ..
@[simp] theorem save_fatal (w : Word) (t : Store) : (s.save w t).fatal = s.fatal := by cases t <;> rfl
@[simp] theorem writeView_fatal (v : RegView) (b : Word) : (s.writeView v b).fatal = s.fatal := save_fatal ..
@[simp] theorem save_report (w : Word) (t : Store) : (s.save w t).report = s.report := by cases t <;> rfl
@[simp] theorem writeView_report (v : RegView) (b : Word) : (s.writeView v b).report = s.report := save_report ..
@[simp] theorem save_slots (w : Word) (t : Store) : (s.save w t).slots = s.slots := by cases t <;> rfl
@[simp] theorem writeView_slots (v : RegView) (b : Word) : (s.writeView v b).slots = s.slots := save_slots ..
@[simp] theorem save_active (w : Word) (t : Store) : (s.save w t).active = s.active := by cases t <;> rfl
@[simp] theorem writeView_active (v : RegView) (b : Word) : (s.writeView v b).active = s.active := save_active ..
@[simp] theorem save_free (w : Word) (t : Store) : (s.save w t).free = s.free := by cases t <;> rfl
@[simp] theorem writeView_free (v : RegView) (b : Word) : (s.writeView v b).free = s.free := save_free ..
@[simp] theorem save_inputs (w : Word) (t : Store) : (s.save w t).inputs = s.inputs := by cases t <;> rfl
@[simp] theorem writeView_inputs (v : RegView) (b : Word) : (s.writeView v b).inputs = s.inputs := save_inputs ..
@[simp] theorem save_unitReq (w : Word) (t : Store) : (s.save w t).unitReq = s.unitReq := by cases t <;> rfl
@[simp] theorem writeView_unitReq (v : RegView) (b : Word) : (s.writeView v b).unitReq = s.unitReq := save_unitReq ..
@[simp] theorem save_resp (w : Word) (t : Store) : (s.save w t).resp = s.resp := by cases t <;> rfl
@[simp] theorem writeView_resp (v : RegView) (b : Word) : (s.writeView v b).resp = s.resp := save_resp ..
@[simp] theorem save_freeCount (w : Word) (t : Store) : (s.save w t).freeCount = s.freeCount := by cases t <;> rfl
@[simp] theorem writeView_freeCount (v : RegView) (b : Word) : (s.writeView v b).freeCount = s.freeCount := save_freeCount ..
@[simp] theorem save_slot_regs (w : Word) (i : Fin 8) : (s.save w (.slot i)).regs = s.regs.set i w := rfl
@[simp] theorem save_slot_pc (w : Word) (i : Fin 8) : (s.save w (.slot i)).pc = s.pc := rfl
@[simp] theorem save_slot_fl (w : Word) (i : Fin 8) : (s.save w (.slot i)).fl = s.fl := rfl
@[simp] theorem save_pc_regs (w : Word) : (s.save w .pc).regs = s.regs := rfl
@[simp] theorem save_pc_pc (w : Word) : (s.save w .pc).pc = w := rfl
@[simp] theorem save_pc_fl (w : Word) : (s.save w .pc).fl = s.fl := rfl
@[simp] theorem save_fl_regs (w : Word) : (s.save w .fl).regs = s.regs := rfl
@[simp] theorem save_fl_pc (w : Word) : (s.save w .fl).pc = s.pc := rfl
@[simp] theorem save_fl_fl (w : Word) : (s.save w .fl).fl = w := rfl

/-! ### After reset -/

@[simp] theorem restart_regs (P : Params) : (s.restart P).regs = (State.resetOf P).regs := rfl
@[simp] theorem restart_pc (P : Params) : (s.restart P).pc = P.entry := rfl
@[simp] theorem restart_fl (P : Params) : (s.restart P).fl = P.resetEflags := rfl
@[simp] theorem restart_mem (P : Params) : (s.restart P).mem = [] := rfl
@[simp] theorem restart_run (P : Params) : (s.restart P).run = .stopped := rfl
@[simp] theorem restart_budget (P : Params) : (s.restart P).budget = .count 0 := rfl
@[simp] theorem restart_stopPending (P : Params) : (s.restart P).stopPending = false := rfl
@[simp] theorem restart_fatal (P : Params) : (s.restart P).fatal = none := rfl
@[simp] theorem restart_report (P : Params) : (s.restart P).report = ⟨.none, 0, 0, 0⟩ := rfl
@[simp] theorem restart_slots (P : Params) : (s.restart P).slots = resetSlots := rfl
@[simp] theorem restart_active (P : Params) : (s.restart P).active = [] := rfl
@[simp] theorem restart_free (P : Params) : (s.restart P).free = List.finRange 32 := rfl
@[simp] theorem restart_inputs (P : Params) : (s.restart P).inputs = s.inputs := rfl
@[simp] theorem restart_unitReq (P : Params) : (s.restart P).unitReq = none := rfl
@[simp] theorem restart_resp (P : Params) : (s.restart P).resp = .ok := rfl
@[simp] theorem restart_freeCount (P : Params) : (s.restart P).freeCount = 0 := rfl

end Sys2Proof.Machine.State
end

