-- ==== Sys2Proof/Laws/Ops.lean ====
section
/-! SUPPORT. For each shared operation of Machine/Ops.lean, Flags.lean and Operands.lean, what it can do, once:
acceptance, the translator, bit slices, views. -/

namespace Sys2Proof.Machine

/-! ### Acceptance -/

/-- A host operation answers exactly when the block is live and not `RUNNING`. -/
theorem hostOp_next_iff {s t : State} {f : State → State} :
    s.hostOp f = .next t ↔ s.fatal = none ∧ s.run ≠ .running ∧ t = f s := by
  unfold State.hostOp
  cases s.fatal <;> cases s.run <;> simp [eq_comm]

theorem hostOp_live {s : State} {f : State → State} (hf : s.fatal = none) (hr : s.run ≠ .running) :
    s.hostOp f = .next (f s) := hostOp_next_iff.2 ⟨hf, hr, rfl⟩

theorem hostOp_dead {s : State} {f : State → State} {c : FatalCause} (hf : s.fatal = some c) :
    s.hostOp f = .fault .blockDead := by simp [State.hostOp, hf]

theorem hostOp_running {s : State} {f : State → State} (hf : s.fatal = none) (hr : s.run = .running) :
    s.hostOp f = .fault .notEnabled := by simp [State.hostOp, hf, hr]

/-- A unit's operation answers exactly when the block is live. -/
theorem liveOp_next_iff {s t : State} {f : State → State} : s.liveOp f = .next t ↔ s.fatal = none ∧ t = f s := by
  unfold State.liveOp
  split <;> simp_all [eq_comm]

theorem liveOp_live {s : State} {f : State → State} (hf : s.fatal = none) : s.liveOp f = .next (f s) :=
  liveOp_next_iff.2 ⟨hf, rfl⟩

theorem liveOp_dead {s : State} {f : State → State} {c : FatalCause} (hf : s.fatal = some c) :
    s.liveOp f = .fault .blockDead := by simp [State.liveOp, hf]

/-- An instruction step's operation answers exactly when the block is live and `RUNNING`. -/
theorem loopOp_next_iff {s t : State} {f : State → State} :
    s.loopOp f = .next t ↔ s.fatal = none ∧ s.run = .running ∧ t = f s := by
  unfold State.loopOp
  cases s.fatal <;> cases s.run <;> simp [eq_comm]

theorem loopOp_live {s : State} {f : State → State} (hf : s.fatal = none) (hr : s.run = .running) :
    s.loopOp f = .next (f s) := loopOp_next_iff.2 ⟨hf, hr, rfl⟩

theorem loopOp_dead {s : State} {f : State → State} {c : FatalCause} (hf : s.fatal = some c) :
    s.loopOp f = .fault .blockDead := by simp [State.loopOp, hf]

/-! ### The translator -/

theorem hostReadOp_ok {P : Params} {m : Memory} {a : Word} {w : Width} (h : a.toNat + w.bytes ≤ P.capacity) :
    hostReadOp P m a w = .ok (BitVec.ofNat 32 (Memory.getLE P.mem0 m a.toNat w.bytes)) := by
  simp [hostReadOp, inBounds, h]

theorem hostReadOp_error {P : Params} {m : Memory} {a : Word} {w : Width} (h : P.capacity < a.toNat + w.bytes) :
    hostReadOp P m a w = .error (.oobAccess a w false) := by
  simp [hostReadOp, inBounds, Nat.not_le.2 h]

theorem hostWriteOp_ok {P : Params} {m : Memory} {a : Word} {w : Width} {v : Word}
    (h : a.toNat + w.bytes ≤ P.capacity) :
    hostWriteOp P m a w v = .ok (Memory.putLE P.mem0 a.toNat w.bytes v.toNat m) := by
  simp [hostWriteOp, inBounds, h]

theorem hostWriteOp_error {P : Params} {m : Memory} {a : Word} {w : Width} {v : Word}
    (h : P.capacity < a.toNat + w.bytes) : hostWriteOp P m a w v = .error (.oobAccess a w true) := by
  simp [hostWriteOp, inBounds, Nat.not_le.2 h]

/-- A write that succeeds was in bounds, and keeps the canonical form. -/
theorem hostWriteOp_wf {P : Params} {m m' : Memory} {a : Word} {w : Width} {v : Word} (hm : Memory.wf P m = true)
    (h : hostWriteOp P m a w v = .ok m') : Memory.wf P m' = true := by
  unfold hostWriteOp at h
  split at h
  · cases h
    exact Memory.putLE_wf hm (by simpa [inBounds] using ‹inBounds P a w = true›)
  · cases h

/-- A write at any address kind is the host-backing write (20_memory.md R52). -/
@[simp] theorem writeAt_eq_host (P : Params) (m : Memory) (k : AddrKind) (a : Word) (w : Width) (v : Word) :
    writeAt P m k a w v = hostWriteOp P m a w v := by cases k <;> rfl

/-- A read at any address kind is the host-backing read. -/
@[simp] theorem readAt_eq_host (P : Params) (m : Memory) (k : AddrKind) (a : Word) (w : Width) :
    readAt P m k a w = hostReadOp P m a w := by cases k <;> rfl

theorem memReadOp_eq_host (P : Params) (m : Memory) (a : Word) (w : Width) :
    memReadOp P m a w = hostReadOp P m a w := rfl
theorem linReadOp_eq_host (P : Params) (m : Memory) (a : Word) (w : Width) :
    linReadOp P m a w = hostReadOp P m a w := rfl
theorem memWriteOp_eq_host (P : Params) (m : Memory) (a : Word) (w : Width) (v : Word) :
    memWriteOp P m a w v = hostWriteOp P m a w v := rfl
theorem linWriteOp_eq_host (P : Params) (m : Memory) (a : Word) (w : Width) (v : Word) :
    linWriteOp P m a w v = hostWriteOp P m a w v := rfl

/-! ### Bit slices -/

theorem sliceMask_getLsbD (lo len i : Nat) :
    (sliceMask lo len).getLsbD i = (decide (i < 32) && (decide (lo ≤ i) && decide (i < lo + len))) := by
  unfold sliceMask
  rw [BitVec.getLsbD_ofNat, Nat.testBit_mul_two_pow, Nat.testBit_two_pow_sub_one]
  by_cases h : lo ≤ i
  · have : i - lo < len ↔ i < lo + len := by omega
    simp [h, this]
  · simp [h]

/-- A bit of a slice written: the value's inside the slice, the old one outside. -/
theorem writeSlice_getLsbD {lo len : Nat} (hl : lo + len ≤ 32) (x v : Word) (i : Nat) :
    (writeSlice lo len x v).getLsbD i = if lo ≤ i ∧ i < lo + len then v.getLsbD (i - lo) else x.getLsbD i := by
  unfold writeSlice
  simp only [BitVec.getLsbD_or, BitVec.getLsbD_and, BitVec.getLsbD_not, BitVec.getLsbD_shiftLeft, sliceMask_getLsbD]
  by_cases hi : i < 32
  · by_cases h : lo ≤ i ∧ i < lo + len
    · simp [hi, h.1, h.2, Nat.not_lt.2 h.1]
    · rw [if_neg h]
      have : (decide (lo ≤ i) && decide (i < lo + len)) = false := by
        simpa only [Bool.and_eq_false_iff, decide_eq_false_iff_not, not_and_or] using h
      simp [hi, this]
  · have h : ¬ (lo ≤ i ∧ i < lo + len) := by omega
    rw [if_neg h]
    simp [hi, BitVec.getLsbD_of_ge x i (by omega)]

/-- A bit of a slice read. -/
theorem readSlice_getLsbD (lo len : Nat) (x : Word) (i : Nat) :
    (readSlice lo len x).getLsbD i = (decide (i < 32) && decide (i < len) && x.getLsbD (lo + i)) := by
  unfold readSlice
  simp only [BitVec.getLsbD_and, BitVec.getLsbD_ushiftRight, sliceMask_getLsbD]
  simp [Bool.and_comm, Bool.and_left_comm]

/-- The slice just written reads as the low bits of the value (10_state.md R26). -/
theorem readSlice_writeSlice {lo len : Nat} (hl : lo + len ≤ 32) (x v : Word) :
    readSlice lo len (writeSlice lo len x v) = readSlice 0 len v := by
  apply BitVec.eq_of_getLsbD_eq
  intro i hi
  rw [readSlice_getLsbD, readSlice_getLsbD, writeSlice_getLsbD hl]
  by_cases h : i < len
  · rw [if_pos (by omega)]; simp
  · simp [h]

@[simp] theorem writeSlice_whole (x v : Word) : writeSlice 0 32 x v = v := by
  apply BitVec.eq_of_getLsbD_eq
  intro i hi
  rw [writeSlice_getLsbD (by omega), if_pos (by omega), Nat.sub_zero]

@[simp] theorem readSlice_whole (x : Word) : readSlice 0 32 x = x := by
  apply BitVec.eq_of_getLsbD_eq
  intro i hi
  rw [readSlice_getLsbD]
  simp [hi]

/-! ### Views -/

@[simp] theorem load_save_self (s : State) (w : Word) (t : Store) : (s.save w t).load t = w := by
  cases t <;> simp [State.save, State.load]

/-- Saving one word of the register file leaves every other one as it was. -/
theorem load_save_of_ne (s : State) (w : Word) {t u : Store} (h : u ≠ t) : (s.save w t).load u = s.load u := by
  cases t <;> cases u <;> simp_all [State.save, State.load]
  rename_i i j
  rw [Vector.getElem_set_ne]
  intro he
  exact h (Fin.ext he.symm)

/-- A view inside its word reads back what was written to it. -/
theorem readView_writeView (s : State) (v : RegView) (hv : v.lo + v.len ≤ 32) (b : Word) :
    (s.writeView v b).readView v = readSlice 0 v.len b := by
  simp [State.readView, State.writeView, readSlice_writeSlice hv]

/-- Every view a selector names lies inside its word. -/
theorem selectorView_inside {sel : BitVec 7} {v : RegView} (h : selectorView sel = some v) : v.lo + v.len ≤ 32 := by
  revert v
  revert sel
  decide

end Sys2Proof.Machine
end

