-- ==== Sys2Proof/Laws/Exec.lean ====
section
/-! SUPPORT. For every instruction, what `exec` runs: when it is accepted (`hostOp`, `liveOp`, `loopOp`) and what it then
does to the state. No later proof unfolds the dispatch or a meaning. -/

namespace Sys2Proof.Machine

theorem exec_cmdContinue (s : State) :
    exec .cmdContinue s = s.hostOp (State.runRequest Config.machine runForever) := rfl
theorem exec_cmdStep (n : Word) (s : State) :
    exec (.cmdStep n) s = s.hostOp (State.runRequest Config.machine n) := rfl
theorem exec_cmdPrint (text : List Byte) (s : State) :
    exec (.cmdPrint text) s = s.hostOp (fun s => s.deliverValue (evaluate Config.machine s text)) := rfl
theorem exec_cmdExamine (n addr : Word) (s : State) :
    exec (.cmdExamine n addr) s = s.hostOp (fun s => s.deliverDump (examineFrom Config.machine s.mem n.toNat addr)) := rfl
theorem exec_cmdWatch (text : List Byte) (s : State) :
    exec (.cmdWatch text) s = s.hostOp (fun s => s.settle (wpCreate Config.machine s text)) := rfl
theorem exec_cmdDelete (id : Word) (s : State) :
    exec (.cmdDelete id) s = s.hostOp (fun s => s.settle (wpDelete s id)) := rfl
theorem exec_cmdInfoRegisters (s : State) :
    exec .cmdInfoRegisters s = s.hostOp (fun s => s.respond (.values s.registerDump)) := rfl
theorem exec_cmdInfoWatchpoints (s : State) :
    exec .cmdInfoWatchpoints s = s.hostOp (fun s => s.respond (.listing (wpList s))) := rfl
theorem exec_cmdQuit (s : State) : exec .cmdQuit s = s.hostOp (fun s => s.respond .ok) := rfl
theorem exec_cmdRegRead (sel : BitVec 7) (s : State) :
    exec (.cmdRegRead sel) s = s.hostOp (fun s =>
    match selectorView sel with
    | some v => s.respond (.value (s.readView v))
    | none => s.raiseFail .eBadCommand) := rfl
theorem exec_cmdRegWrite (sel : BitVec 7) (b : Word) (s : State) :
    exec (.cmdRegWrite sel b) s = s.hostOp (fun s =>
    match selectorView sel with
    | some v => (s.writeView v b).respond .ok
    | none => s.raiseFail .eBadCommand) := rfl
theorem exec_cmdMemRead (addr n : Word) (s : State) :
    exec (.cmdMemRead addr n) s = s.hostOp (fun s =>
    match widthOfCount n with
    | some w => s.deliverRead (memReadOp Config.machine s.mem addr w)
    | none => s.raiseFail .eBadCommand) := rfl
theorem exec_cmdStopReq (s : State) :
    exec .cmdStopReq s = s.liveOp (fun s =>
    match s.run with
    | .running => { s with stopPending := true }
    | .stopped => s
    | .ended => s) := rfl
theorem exec_cmdReserved (op : Byte) (s : State) :
    exec (.cmdReserved op) s = s.hostOp (State.raiseFail .eBadCommand) := rfl

theorem exec_tWs (run : List Byte) (s : State) : exec (.tWs run) s = s.liveOp (State.deliverToken (emitWs run)) := rfl
theorem exec_tEq (s : State) : exec .tEq s = s.liveOp (State.deliverToken emitEq) := rfl
theorem exec_tNe (s : State) : exec .tNe s = s.liveOp (State.deliverToken emitNe) := rfl
theorem exec_tAnd (s : State) : exec .tAnd s = s.liveOp (State.deliverToken emitAnd) := rfl
theorem exec_tOr (s : State) : exec .tOr s = s.liveOp (State.deliverToken emitOr) := rfl
theorem exec_tNot (s : State) : exec .tNot s = s.liveOp (State.deliverToken emitNot) := rfl
theorem exec_tPlus (s : State) : exec .tPlus s = s.liveOp (State.deliverToken emitPlus) := rfl
theorem exec_tMinus (s : State) : exec .tMinus s = s.liveOp (State.deliverToken emitMinus) := rfl
theorem exec_tStar (s : State) : exec .tStar s = s.liveOp (State.deliverToken emitStar) := rfl
theorem exec_tSlash (s : State) : exec .tSlash s = s.liveOp (State.deliverToken emitSlash) := rfl
theorem exec_tLparen (s : State) : exec .tLparen s = s.liveOp (State.deliverToken emitLparen) := rfl
theorem exec_tRparen (s : State) : exec .tRparen s = s.liveOp (State.deliverToken emitRparen) := rfl
theorem exec_tHex (digits : List Byte) (s : State) :
    exec (.tHex digits) s = s.liveOp (State.deliverToken (emitHex digits)) := rfl
theorem exec_tDec (digits : List Byte) (s : State) :
    exec (.tDec digits) s = s.liveOp (State.deliverToken (emitDec digits)) := rfl
theorem exec_tReg (name : List Byte) (s : State) :
    exec (.tReg name) s = s.liveOp (State.deliverToken (emitReg name)) := rfl

theorem exec_xopNot (r : Word) (s : State) :
    exec (.xopNot r) s = s.liveOp (fun s => s.respond (.value (notValue r))) := rfl
theorem exec_xopNeg (r : Word) (s : State) :
    exec (.xopNeg r) s = s.liveOp (fun s => s.respond (.value (negValue r))) := rfl
theorem exec_xopDeref (r : Word) (s : State) :
    exec (.xopDeref r) s = s.liveOp (fun s => s.deliverValue (derefValue Config.machine s.mem r)) := rfl
theorem exec_xopMul (a b : Word) (s : State) :
    exec (.xopMul a b) s = s.liveOp (fun s => s.respond (.value (mulValue a b))) := rfl
theorem exec_xopDiv (a b : Word) (s : State) :
    exec (.xopDiv a b) s = s.liveOp (fun s => s.deliverValue (divValue a b)) := rfl
theorem exec_xopAdd (a b : Word) (s : State) :
    exec (.xopAdd a b) s = s.liveOp (fun s => s.respond (.value (addValue a b))) := rfl
theorem exec_xopSub (a b : Word) (s : State) :
    exec (.xopSub a b) s = s.liveOp (fun s => s.respond (.value (subValue a b))) := rfl
theorem exec_xopEq (a b : Word) (s : State) :
    exec (.xopEq a b) s = s.liveOp (fun s => s.respond (.value (eqValue a b))) := rfl
theorem exec_xopNe (a b : Word) (s : State) :
    exec (.xopNe a b) s = s.liveOp (fun s => s.respond (.value (neValue a b))) := rfl
theorem exec_xopAnd (a b : Word) (s : State) :
    exec (.xopAnd a b) s = s.liveOp (fun s => s.respond (.value (andValue a b))) := rfl
theorem exec_xopOr (a b : Word) (s : State) :
    exec (.xopOr a b) s = s.liveOp (fun s => s.respond (.value (orValue a b))) := rfl
theorem exec_operandNum (digits : List Byte) (s : State) :
    exec (.operandNum digits) s = s.liveOp (fun s => s.respond (.value (decValue digits))) := rfl
theorem exec_operandHex (digits : List Byte) (s : State) :
    exec (.operandHex digits) s = s.liveOp (fun s => s.respond (.value (hexValue digits))) := rfl
theorem exec_operandReg (name : List Byte) (s : State) :
    exec (.operandReg name) s = s.liveOp (fun s => s.deliverValue (regValue s name)) := rfl

theorem exec_memRead (addr : Word) (w : Width) (s : State) :
    exec (.memRead addr w) s = s.liveOp (fun s => s.deliverRead (memReadOp Config.machine s.mem addr w)) := rfl
theorem exec_memWrite (addr : Word) (w : Width) (v : Word) (s : State) :
    exec (.memWrite addr w v) s = s.liveOp (fun s => s.deliverWrite (memWriteOp Config.machine s.mem addr w v)) := rfl
theorem exec_linRead (addr : Word) (w : Width) (s : State) :
    exec (.linRead addr w) s = s.liveOp (fun s => s.deliverRead (linReadOp Config.machine s.mem addr w)) := rfl
theorem exec_linWrite (addr : Word) (w : Width) (v : Word) (s : State) :
    exec (.linWrite addr w v) s = s.liveOp (fun s => s.deliverWrite (linWriteOp Config.machine s.mem addr w v)) := rfl
theorem exec_hostRead (addr : Word) (w : Width) (s : State) :
    exec (.hostRead addr w) s = s.liveOp (fun s => s.deliverRead (hostReadOp Config.machine s.mem addr w)) := rfl
theorem exec_hostWrite (addr : Word) (w : Width) (v : Word) (s : State) :
    exec (.hostWrite addr w v) s = s.liveOp (fun s => s.deliverWrite (hostWriteOp Config.machine s.mem addr w v)) := rfl

theorem exec_insnOrdinary (d : Done) (s : State) :
    exec (.insnOrdinary d) s = s.loopOp (State.complete Config.machine none d) := rfl
theorem exec_insnBpTrap (req : HaltReq) (d : Done) (s : State) :
    exec (.insnBpTrap req d) s = s.loopOp (State.complete Config.machine (some req) d) := rfl
theorem exec_insnFaulting (s : State) : exec .insnFaulting s = s.loopOp (State.unwindFault Config.machine) := rfl

theorem exec_cmdReset (s : State) (h : s.fatal ≠ none ∨ s.run ≠ .running) :
    exec .cmdReset s = .next (s.restart Config.machine) := by
  simp only [exec, execCmdReset]
  cases hf : s.fatal <;> cases hr : s.run <;> simp_all

/-- Every instruction but reset is an operation of the host, of a unit, or of an instruction step. -/
theorem exec_form (i : Instr) :
    i = .cmdReset ∨ (∃ f, ∀ s, exec i s = s.hostOp f) ∨ (∃ f, ∀ s, exec i s = s.liveOp f) ∨
      (∃ f, ∀ s, exec i s = s.loopOp f) := by
  cases i
  case cmdReset => exact .inl rfl
  case cmdContinue => exact .inr (.inl ⟨_, exec_cmdContinue⟩)
  case cmdStep => exact .inr (.inl ⟨_, exec_cmdStep _⟩)
  case cmdPrint => exact .inr (.inl ⟨_, exec_cmdPrint _⟩)
  case cmdExamine => exact .inr (.inl ⟨_, exec_cmdExamine _ _⟩)
  case cmdWatch => exact .inr (.inl ⟨_, exec_cmdWatch _⟩)
  case cmdDelete => exact .inr (.inl ⟨_, exec_cmdDelete _⟩)
  case cmdInfoRegisters => exact .inr (.inl ⟨_, exec_cmdInfoRegisters⟩)
  case cmdInfoWatchpoints => exact .inr (.inl ⟨_, exec_cmdInfoWatchpoints⟩)
  case cmdQuit => exact .inr (.inl ⟨_, exec_cmdQuit⟩)
  case cmdRegRead => exact .inr (.inl ⟨_, exec_cmdRegRead _⟩)
  case cmdRegWrite => exact .inr (.inl ⟨_, exec_cmdRegWrite _ _⟩)
  case cmdMemRead => exact .inr (.inl ⟨_, exec_cmdMemRead _ _⟩)
  case cmdReserved => exact .inr (.inl ⟨_, exec_cmdReserved _⟩)
  case insnOrdinary => exact .inr (.inr (.inr ⟨_, exec_insnOrdinary _⟩))
  case insnBpTrap => exact .inr (.inr (.inr ⟨_, exec_insnBpTrap _ _⟩))
  case insnFaulting => exact .inr (.inr (.inr ⟨_, exec_insnFaulting⟩))
  case cmdStopReq => exact .inr (.inr (.inl ⟨_, exec_cmdStopReq⟩))
  case tWs => exact .inr (.inr (.inl ⟨_, exec_tWs _⟩))
  case tEq => exact .inr (.inr (.inl ⟨_, exec_tEq⟩))
  case tNe => exact .inr (.inr (.inl ⟨_, exec_tNe⟩))
  case tAnd => exact .inr (.inr (.inl ⟨_, exec_tAnd⟩))
  case tOr => exact .inr (.inr (.inl ⟨_, exec_tOr⟩))
  case tNot => exact .inr (.inr (.inl ⟨_, exec_tNot⟩))
  case tPlus => exact .inr (.inr (.inl ⟨_, exec_tPlus⟩))
  case tMinus => exact .inr (.inr (.inl ⟨_, exec_tMinus⟩))
  case tStar => exact .inr (.inr (.inl ⟨_, exec_tStar⟩))
  case tSlash => exact .inr (.inr (.inl ⟨_, exec_tSlash⟩))
  case tLparen => exact .inr (.inr (.inl ⟨_, exec_tLparen⟩))
  case tRparen => exact .inr (.inr (.inl ⟨_, exec_tRparen⟩))
  case tHex => exact .inr (.inr (.inl ⟨_, exec_tHex _⟩))
  case tDec => exact .inr (.inr (.inl ⟨_, exec_tDec _⟩))
  case tReg => exact .inr (.inr (.inl ⟨_, exec_tReg _⟩))
  case xopNot => exact .inr (.inr (.inl ⟨_, exec_xopNot _⟩))
  case xopNeg => exact .inr (.inr (.inl ⟨_, exec_xopNeg _⟩))
  case xopDeref => exact .inr (.inr (.inl ⟨_, exec_xopDeref _⟩))
  case xopMul => exact .inr (.inr (.inl ⟨_, exec_xopMul _ _⟩))
  case xopDiv => exact .inr (.inr (.inl ⟨_, exec_xopDiv _ _⟩))
  case xopAdd => exact .inr (.inr (.inl ⟨_, exec_xopAdd _ _⟩))
  case xopSub => exact .inr (.inr (.inl ⟨_, exec_xopSub _ _⟩))
  case xopEq => exact .inr (.inr (.inl ⟨_, exec_xopEq _ _⟩))
  case xopNe => exact .inr (.inr (.inl ⟨_, exec_xopNe _ _⟩))
  case xopAnd => exact .inr (.inr (.inl ⟨_, exec_xopAnd _ _⟩))
  case xopOr => exact .inr (.inr (.inl ⟨_, exec_xopOr _ _⟩))
  case operandNum => exact .inr (.inr (.inl ⟨_, exec_operandNum _⟩))
  case operandHex => exact .inr (.inr (.inl ⟨_, exec_operandHex _⟩))
  case operandReg => exact .inr (.inr (.inl ⟨_, exec_operandReg _⟩))
  case memRead => exact .inr (.inr (.inl ⟨_, exec_memRead _ _⟩))
  case memWrite => exact .inr (.inr (.inl ⟨_, exec_memWrite _ _ _⟩))
  case linRead => exact .inr (.inr (.inl ⟨_, exec_linRead _ _⟩))
  case linWrite => exact .inr (.inr (.inl ⟨_, exec_linWrite _ _ _⟩))
  case hostRead => exact .inr (.inr (.inl ⟨_, exec_hostRead _ _⟩))
  case hostWrite => exact .inr (.inr (.inl ⟨_, exec_hostWrite _ _ _⟩))

end Sys2Proof.Machine
end

