-- ==== Sys2Proof/Laws/Loop.lean ====
section
/-! SUPPORT. What the Execution Loop's operations can do, once each (spec 41_execution_loop.md). -/

namespace Sys2Proof.Machine

/-- `Exec` leaves a canonical memory: it writes only through the translator (R120 (a)). -/
theorem runProg_wf {P : Params} {p : ExecProg} {m : Memory} {q : Option HaltReq} {d : Done}
    (hm : Memory.wf P m = true) (h : runProg P p m = .done q d) : Memory.wf P d.mem = true := by
  induction p generalizing m with
  | fault => cases h
  | done len regs pc fl req => cases h; exact hm
  | read k a w cont ih =>
    simp only [runProg] at h
    split at h
    · exact ih _ hm h
    · cases h
  | write k a w v cont ih =>
    simp only [runProg, writeAt_eq_host] at h
    split at h
    · exact ih (hostWriteOp_wf hm ‹_›) h
    · cases h

/-- What `Exec` can do: a fetch out of bounds is fatal, else it goes on with what it fetched (40_translator_ops.md R107). -/
theorem execTable_cases (P : Params) (s : State) :
    (P.capacity < s.pc.toNat + (P.table s.regs s.pc s.fl).width.bytes ∧
      execTable P s = .fatal (.oobAccess s.pc (P.table s.regs s.pc s.fl).width false)) ∨
    ∃ v, memReadOp P s.mem s.pc (P.table s.regs s.pc s.fl).width = .ok v ∧
      execTable P s = runProg P ((P.table s.regs s.pc s.fl).decode v) s.mem := by
  by_cases h : s.pc.toNat + (P.table s.regs s.pc s.fl).width.bytes ≤ P.capacity
  · refine .inr ⟨_, by rw [memReadOp_eq_host, hostReadOp_ok h], ?_⟩
    simp only [execTable, fetchProg, runProg, readAt_eq_host, hostReadOp_ok h]
  · have h := Nat.lt_of_not_le h
    exact .inl ⟨h, by simp only [execTable, fetchProg, runProg, readAt_eq_host, hostReadOp_error h]⟩

/-- The instruction at `pc`: its class, and a canonical memory where it is done. -/
theorem fetchInsn_ok {P : Params} {s : State} {i : Instr} (h : fetchInsn P s = .ok i) :
    (∃ d, i = .insnOrdinary d ∧ execTable P s = .done none d) ∨
    (∃ q d, i = .insnBpTrap q d ∧ execTable P s = .done (some q) d) ∨
    (i = .insnFaulting ∧ execTable P s = .fault) := by
  unfold fetchInsn at h
  split at h
  · exact .inl ⟨_, by simpa using h.symm, ‹_›⟩
  · exact .inr (.inl ⟨_, _, by simpa using h.symm, ‹_›⟩)
  · exact .inr (.inr ⟨by simpa using h.symm, ‹_›⟩)
  · cases h

/-- One turn of the run loop: the budget's end, an instruction, or a fatal fetch. -/
theorem loopWork_cases (P : Params) (s : State) :
    (s.budget.isSpent = true ∧ loopWork P s = .move (s.stopRun P .budget)) ∨
    (s.budget.isSpent = false ∧ ∃ i, fetchInsn P { s with budget := s.budget.spend } = .ok i ∧
      loopWork P s = .run i { s with budget := s.budget.spend }) ∨
    (s.budget.isSpent = false ∧ ∃ c, fetchInsn P { s with budget := s.budget.spend } = .error c ∧
      loopWork P s = .move (State.raiseFatal c { s with budget := s.budget.spend })) := by
  unfold loopWork
  cases hb : s.budget.isSpent with
  | true => exact .inl ⟨rfl, by simp⟩
  | false =>
    cases hf : fetchInsn P { s with budget := s.budget.spend } with
    | ok i => exact .inr (.inl ⟨rfl, i, rfl, by simp [hf]⟩)
    | error c => exact .inr (.inr ⟨rfl, c, rfl, by simp [hf]⟩)

/-- What a dead block does next: reset, a moment of silence taken, or nothing (R268). -/
theorem deadWork_cases (s : State) :
    (∃ r rest, s.inputs = .command r :: rest ∧ decodeCommand r = .cmdReset ∧
      deadWork s = .run .cmdReset { s with inputs := rest }) ∨
    (∃ rest, s.inputs = .quiet :: rest ∧ deadWork s = .move { s with inputs := rest }) ∨
    deadWork s = .stuck .blockDead := by
  unfold deadWork
  split
  · split
    · exact .inl ⟨_, _, ‹_›, ‹_›, rfl⟩
    · exact .inr (.inr rfl)
  · exact .inr (.inl ⟨_, ‹_›, rfl⟩)
  · exact .inr (.inr rfl)

/-- The state the scan of an instruction step sees: after the effects, the advance and the poll (R126). -/
def scanned (q : Option HaltReq) (d : Done) (s : State) : State := ((s.install q d).advance d.len).poll

/-- How an instruction step ends, by what its scan found (R121). -/
theorem complete_eq (P : Params) (q : Option HaltReq) (d : Done) (s : State) :
    s.complete P q d = (scanned q d s).afterScan P q (scan P (scanned q d s)) := rfl

theorem scanned_eq_of_not_pending {q : Option HaltReq} {d : Done} {s : State} (h : s.stopPending = false) :
    scanned q d s = (s.install q d).advance d.len := State.poll_of_not_pending _ h

end Sys2Proof.Machine
end

