-- ==== Sys2Proof/Laws/PerInstr.lean ====
section
/-! SUPPORT. Statements made per instruction. `EncodeDecode`: a well-formed instruction that has an encoding decodes
from it to itself (spec 30_encoding.md R73, R83, R85, R87, R72). The three classes of emulated instruction have no
encoding (R88). -/

namespace Sys2Proof.Laws

/-- Decoding the words of a well-formed instruction gives it back. -/
def EncodeDecode.Statement (i : Instr) : Prop := i.wf = true → ∀ p, encode i = some p → decode p = .ok i

theorem EncodeDecode.cmdContinue : EncodeDecode.Statement (.cmdContinue) := by
  rintro - p ⟨⟩; rfl
theorem EncodeDecode.cmdStep (n : Word) : EncodeDecode.Statement (.cmdStep n) := by
  rintro - p ⟨⟩; rfl
theorem EncodeDecode.cmdPrint (text : List Byte) : EncodeDecode.Statement (.cmdPrint text) := by
  rintro - p ⟨⟩; rfl
theorem EncodeDecode.cmdExamine (n : Word) (addr : Word) : EncodeDecode.Statement (.cmdExamine n addr) := by
  rintro - p ⟨⟩; rfl
theorem EncodeDecode.cmdWatch (text : List Byte) : EncodeDecode.Statement (.cmdWatch text) := by
  rintro - p ⟨⟩; rfl
theorem EncodeDecode.cmdDelete (id : Word) : EncodeDecode.Statement (.cmdDelete id) := by
  rintro - p ⟨⟩; rfl
theorem EncodeDecode.cmdInfoRegisters : EncodeDecode.Statement (.cmdInfoRegisters) := by
  rintro - p ⟨⟩; rfl
theorem EncodeDecode.cmdInfoWatchpoints : EncodeDecode.Statement (.cmdInfoWatchpoints) := by
  rintro - p ⟨⟩; rfl
theorem EncodeDecode.cmdQuit : EncodeDecode.Statement (.cmdQuit) := by
  rintro - p ⟨⟩; rfl
theorem EncodeDecode.cmdRegRead (sel : BitVec 7) : EncodeDecode.Statement (.cmdRegRead sel) := by
  rintro - p ⟨⟩
  simp [decode, decodeCommand, commandWord]
theorem EncodeDecode.cmdRegWrite (sel : BitVec 7) (v : Word) : EncodeDecode.Statement (.cmdRegWrite sel v) := by
  rintro - p ⟨⟩
  simp [decode, decodeCommand, commandWord]
theorem EncodeDecode.cmdMemRead (addr : Word) (n : Word) : EncodeDecode.Statement (.cmdMemRead addr n) := by
  rintro - p ⟨⟩; rfl
theorem EncodeDecode.cmdStopReq : EncodeDecode.Statement (.cmdStopReq) := by
  rintro - p ⟨⟩; rfl
theorem EncodeDecode.cmdReset : EncodeDecode.Statement (.cmdReset) := by
  rintro - p ⟨⟩; rfl
theorem EncodeDecode.cmdReserved (op : Byte) : EncodeDecode.Statement (.cmdReserved op) := by
  rintro h p ⟨⟩
  have h' : isReservedOp op = true := h
  have : ∀ op : Byte, isReservedOp op = true → decodeCommand ⟨op, 0, 0, []⟩ = .cmdReserved op := by decide
  exact congrArg Except.ok (this op h')
theorem EncodeDecode.tWs (run : List Byte) : EncodeDecode.Statement (.tWs run) := by
  rintro h p ⟨⟩
  obtain ⟨b, tl, rfl, hb, -⟩ := isRunOf_cons (show isRunOf isBlank run = true from h)
  simp only [decode, textWord, encodeToken, decodeUnit, decodeToken_of_blank hb, matchWs, matchRun_whole (show isRunOf isBlank (b :: tl) = true from h)]
theorem EncodeDecode.tEq : EncodeDecode.Statement (.tEq) := by
  rintro - p ⟨⟩; rfl
theorem EncodeDecode.tNe : EncodeDecode.Statement (.tNe) := by
  rintro - p ⟨⟩; rfl
theorem EncodeDecode.tAnd : EncodeDecode.Statement (.tAnd) := by
  rintro - p ⟨⟩; rfl
theorem EncodeDecode.tOr : EncodeDecode.Statement (.tOr) := by
  rintro - p ⟨⟩; rfl
theorem EncodeDecode.tNot : EncodeDecode.Statement (.tNot) := by
  rintro - p ⟨⟩; rfl
theorem EncodeDecode.tPlus : EncodeDecode.Statement (.tPlus) := by
  rintro - p ⟨⟩; rfl
theorem EncodeDecode.tMinus : EncodeDecode.Statement (.tMinus) := by
  rintro - p ⟨⟩; rfl
theorem EncodeDecode.tStar : EncodeDecode.Statement (.tStar) := by
  rintro - p ⟨⟩; rfl
theorem EncodeDecode.tSlash : EncodeDecode.Statement (.tSlash) := by
  rintro - p ⟨⟩; rfl
theorem EncodeDecode.tLparen : EncodeDecode.Statement (.tLparen) := by
  rintro - p ⟨⟩; rfl
theorem EncodeDecode.tRparen : EncodeDecode.Statement (.tRparen) := by
  rintro - p ⟨⟩; rfl
theorem EncodeDecode.tHex (digits : List Byte) : EncodeDecode.Statement (.tHex digits) := by
  rintro h p ⟨⟩
  have hr : isRunOf isHexDigit digits = true := h
  have hm : matchHex (0x30 :: 0x78 :: digits) = some (.tHex digits, []) := by
    simp [matchHex, List.isPrefixOf, matchRun_whole hr]
  simp only [decode, textWord, encodeToken, decodeUnit, decodeToken_of_digit (show isDecDigit 0x30 = true by decide), hm, Option.some_or]
theorem EncodeDecode.tDec (digits : List Byte) : EncodeDecode.Statement (.tDec digits) := by
  rintro h p ⟨⟩
  have hr : isRunOf isDecDigit digits = true := h
  obtain ⟨b, tl, rfl, hb, htl⟩ := isRunOf_cons hr
  have hhex : matchHex (b :: tl) = none := by
    cases tl with
    | nil => simp [matchHex, List.isPrefixOf]
    | cons c tl =>
      have hc : isDecDigit c = true := by simp_all
      have : c ≠ 0x78 := by rintro rfl; revert hc; decide
      unfold matchHex
      rw [if_neg]
      simpa [List.isPrefixOf] using fun _ => Ne.symm this
  simp only [decode, textWord, encodeToken, decodeUnit, decodeToken_of_digit hb, hhex, Option.none_or, matchDec, matchRun_whole hr]
theorem EncodeDecode.tReg (name : List Byte) : EncodeDecode.Statement (.tReg name) := by
  rintro h p ⟨⟩
  have hr : isRunOf isLower name = true := h
  have hm : matchReg (0x24 :: name) = some (.tReg name, []) := matchRun_whole hr
  simp only [decode, textWord, encodeToken, decodeUnit, decodeToken_of_dollar, hm]
theorem EncodeDecode.xopNot (r : Word) : EncodeDecode.Statement (.xopNot r) := by
  rintro - p ⟨⟩; rfl
theorem EncodeDecode.xopNeg (r : Word) : EncodeDecode.Statement (.xopNeg r) := by
  rintro - p ⟨⟩; rfl
theorem EncodeDecode.xopDeref (r : Word) : EncodeDecode.Statement (.xopDeref r) := by
  rintro - p ⟨⟩; rfl
theorem EncodeDecode.xopMul (a : Word) (b : Word) : EncodeDecode.Statement (.xopMul a b) := by
  rintro - p ⟨⟩; rfl
theorem EncodeDecode.xopDiv (a : Word) (b : Word) : EncodeDecode.Statement (.xopDiv a b) := by
  rintro - p ⟨⟩; rfl
theorem EncodeDecode.xopAdd (a : Word) (b : Word) : EncodeDecode.Statement (.xopAdd a b) := by
  rintro - p ⟨⟩; rfl
theorem EncodeDecode.xopSub (a : Word) (b : Word) : EncodeDecode.Statement (.xopSub a b) := by
  rintro - p ⟨⟩; rfl
theorem EncodeDecode.xopEq (a : Word) (b : Word) : EncodeDecode.Statement (.xopEq a b) := by
  rintro - p ⟨⟩; rfl
theorem EncodeDecode.xopNe (a : Word) (b : Word) : EncodeDecode.Statement (.xopNe a b) := by
  rintro - p ⟨⟩; rfl
theorem EncodeDecode.xopAnd (a : Word) (b : Word) : EncodeDecode.Statement (.xopAnd a b) := by
  rintro - p ⟨⟩; rfl
theorem EncodeDecode.xopOr (a : Word) (b : Word) : EncodeDecode.Statement (.xopOr a b) := by
  rintro - p ⟨⟩; rfl
theorem EncodeDecode.operandNum (digits : List Byte) : EncodeDecode.Statement (.operandNum digits) := by
  rintro h p ⟨⟩
  have hr : isRunOf isDecDigit digits = true := h
  simp [decode, decodeUnit, decodeXop, xopWord, hr]
theorem EncodeDecode.operandHex (digits : List Byte) : EncodeDecode.Statement (.operandHex digits) := by
  rintro h p ⟨⟩
  have hr : isRunOf isHexDigit digits = true := h
  simp [decode, decodeUnit, decodeXop, xopWord, hr]
theorem EncodeDecode.operandReg (name : List Byte) : EncodeDecode.Statement (.operandReg name) := by
  rintro h p ⟨⟩
  have hr : isRunOf isLower name = true := h
  simp [decode, decodeUnit, decodeXop, xopWord, hr]
theorem EncodeDecode.memRead (addr : Word) (w : Width) : EncodeDecode.Statement (.memRead addr w) := by
  rintro - p ⟨⟩
  simp [decode, decodeUnit, decodeXlat, xlatWord, decodeWidth_bytes]
theorem EncodeDecode.memWrite (addr : Word) (w : Width) (v : Word) : EncodeDecode.Statement (.memWrite addr w v) := by
  rintro - p ⟨⟩
  simp [decode, decodeUnit, decodeXlat, xlatWord, decodeWidth_bytes]
theorem EncodeDecode.linRead (addr : Word) (w : Width) : EncodeDecode.Statement (.linRead addr w) := by
  rintro - p ⟨⟩
  simp [decode, decodeUnit, decodeXlat, xlatWord, decodeWidth_bytes]
theorem EncodeDecode.linWrite (addr : Word) (w : Width) (v : Word) : EncodeDecode.Statement (.linWrite addr w v) := by
  rintro - p ⟨⟩
  simp [decode, decodeUnit, decodeXlat, xlatWord, decodeWidth_bytes]
theorem EncodeDecode.hostRead (addr : Word) (w : Width) : EncodeDecode.Statement (.hostRead addr w) := by
  rintro - p ⟨⟩
  simp [decode, decodeUnit, decodeXlat, xlatWord, decodeWidth_bytes]
theorem EncodeDecode.hostWrite (addr : Word) (w : Width) (v : Word) : EncodeDecode.Statement (.hostWrite addr w v) := by
  rintro - p ⟨⟩
  simp [decode, decodeUnit, decodeXlat, xlatWord, decodeWidth_bytes]
theorem EncodeDecode.insnOrdinary (d : Done) : EncodeDecode.Statement (.insnOrdinary d) := by
  rintro - p ⟨⟩
theorem EncodeDecode.insnBpTrap (req : HaltReq) (d : Done) : EncodeDecode.Statement (.insnBpTrap req d) := by
  rintro - p ⟨⟩
theorem EncodeDecode.insnFaulting : EncodeDecode.Statement (.insnFaulting) := by
  rintro - p ⟨⟩

end Sys2Proof.Laws
end

