-- ==== Sys2Proof/Laws/Watch.lean ====
section
/-! SUPPORT. What the pool operations can do, once each (spec 44_watchpoint_manager.md R211, R213). -/

namespace Sys2Proof.Machine

/-- A creation that succeeds: there was a free slot, the expression evaluated, and exactly that slot moved. -/
theorem wpCreate_ok {P : Params} {s t : State} {text : List Byte} (h : wpCreate P s text = .ok t) :
    ∃ k rest v, s.free = k :: rest ∧ evaluate P s text = .ok v ∧
      t = ({ s with free := rest, active := k :: s.active }.fillSlot k text v).respond (.value (slotWord k)) := by
  unfold wpCreate at h
  split at h
  · cases h
  · cases hf : s.free with
    | nil => simp_all
    | cons k rest =>
      cases he : evaluate P s text with
      | fatal c => simp [he] at h
      | fail c => simp [he] at h
      | ok v =>
        simp only [he, hf, allocSlot] at h
        exact ⟨k, rest, v, rfl, rfl, (Res.ok.inj h).symm⟩

/-- A creation that fails: the pool is exhausted, or the expression does not evaluate. -/
theorem wpCreate_fail {P : Params} {s : State} {text : List Byte} {c : FailCode} (h : wpCreate P s text = .fail c) :
    (s.free = [] ∧ c = .wPoolFull) ∨ (s.free ≠ [] ∧ evaluate P s text = .fail c) := by
  unfold wpCreate at h
  split at h
  · exact .inl ⟨by simpa using ‹s.free.isEmpty = true›, by simpa using h.symm⟩
  · refine .inr ⟨by simpa using ‹¬ s.free.isEmpty = true›, ?_⟩
    cases hf : s.free with
    | nil => simp_all
    | cons k rest => cases he : evaluate P s text <;> simp_all [allocSlot]

/-- A deletion that succeeds: the id was active, and its slot moved to the head of the free list. -/
theorem wpDelete_ok {s t : State} {id : Word} (h : wpDelete s id = .ok t) :
    ∃ k, k ∈ s.active ∧ k.val = id.toNat ∧
      t = State.respond .ok { s with active := s.active.filter (fun j => j != k), free := k :: s.free } := by
  unfold wpDelete at h
  split at h
  · cases h
  · cases hk : s.active.find? (fun k => k.val == id.toNat) with
    | none => simp [hk] at h
    | some k =>
      simp only [hk] at h
      exact ⟨k, List.mem_of_find?_eq_some hk, by simpa using List.find?_some hk, (Res.ok.inj h).symm⟩

/-- A deletion that is fatal: no watchpoint was active. -/
theorem wpDelete_fatal {s : State} {id : Word} {c : FatalCause} (h : wpDelete s id = .fatal c) :
    s.active = [] ∧ c = .poolDeleteEmpty := by
  unfold wpDelete at h
  split at h
  · exact ⟨by simpa using ‹s.active.isEmpty = true›, by simpa using h.symm⟩
  · cases hk : s.active.find? (fun k => k.val == id.toNat) <;> simp [hk] at h

/-- What a successful evaluation says of its text: it tokenized, to at least one token. -/
theorem evaluate_ok {P : Params} {s : State} {text : List Byte} {v : Word} (h : evaluate P s text = .ok v) :
    ∃ t ts, tokenize P text = .ok (t :: ts) ∧ evalTokens P s (t :: ts) = .ok v := by
  unfold evaluate at h
  split at h
  · cases h
  · cases h
  · exact ⟨_, _, ‹_›, h⟩

end Sys2Proof.Machine
end

