-- ==== Sys2Proof/Machine/Codes.lean ====
section
/-! DEFINITION. The numeric codes of spec 30_encoding.md R72, R79, R91 and 60_exceptions.md R257, R259 (D31). They
carry no behaviour; the model works with constructors, and these say which number each stands for. -/

namespace Sys2Proof.Machine

/-- The kind codes of R72. -/
def kindCode : TokenKind → Nat
  | .eoi => 0 | .num => 1 | .hex => 2 | .reg => 3 | .lparen => 4 | .rparen => 5
  | .eq => 6 | .ne => 7 | .and => 8 | .or => 9 | .not => 10 | .add => 11 | .sub => 12
  | .mul => 13 | .div => 14 | .neg => 15 | .deref => 16

/-- Run state codes (R91, 10_state.md R34). -/
def runCode : RunState → Nat
  | .stopped => 0 | .running => 1 | .ended => 2

/-- Report reason codes (R91). -/
def reasonCode : Reason → Nat
  | .none => 0 | .budget => 1 | .execStop => 2 | .execEnd => 3 | .watch => 4 | .stopReq => 5 | .fault => 6
  | .cannotContinue => 7

/-- Failure codes (60_exceptions.md R257). -/
def failCode : FailCode → Nat
  | .eTokenize _ => 1 | .eParen => 2 | .eEmptyOperand => 3 | .eUnknownReg => 4 | .eDivZero => 5 | .eInvalid => 6
  | .eLimit => 7 | .wPoolFull => 8 | .wNotFound => 9 | .eBadCommand => 10

/-- Fatal cause codes (60_exceptions.md R259). -/
def fatalCode : FatalCause → Nat
  | .oobAccess _ _ _ => 1 | .poolDeleteEmpty => 2 | .poolAllocEmpty => 3 | .badImage => 4

end Sys2Proof.Machine
end

