-- ==== Sys2Proof/Tests/Slice0.lean ====
section
/-! SUPPORT. Tests on small states, their expected results taken from spec/95_test_vectors.md and the examples of the
rules, and for every statement with hypotheses a witness that they can be met. -/

namespace Sys2Proof.Tests

open Sys2Proof.Machine

set_option maxRecDepth 20000

/-! ### The test machine (95_test_vectors.md 2.0 and the fixture `FX` of 3.0) -/

/-- `FX`. -/
def fx (regs : Regs) (pc fl : Word) : InsnFetch where
  width := .one
  decode b0 :=
    if b0 = 0x90 then .done 1 regs pc fl none
    else if b0 = 0x40 then
      .done 1 (regs.set 0 (regs[0] + 1)) pc
        (setFlag .sf (setFlag .zf fl (regs[0] + 1 == 0)) ((regs[0] + 1).getLsbD 31)) none
    else if b0 = 0xB8 then .read .program (pc + 1) .four fun imm => .done 5 (regs.set 0 imm) pc fl none
    else if b0 = 0xB4 then
      .read .program (pc + 1) .one fun imm => .done 2 (regs.set 0 (writeSlice 8 8 regs[0] imm)) pc fl none
    else if b0 = 0xA3 then
      .read .program (pc + 1) .four fun addr => .write .program addr .four regs[0] (.done 5 regs pc fl none)
    else if b0 = 0xEB then
      .read .program (pc + 1) .one fun r => .done 2 regs (pc + (r.setWidth 8).signExtend 32) fl none
    else if b0 = 0xCC then .done 1 regs pc fl (some .stop)
    else if b0 = 0xF4 then .done 1 regs pc fl (some .ended)
    else .fault

/-- The parameters of 2.0. -/
def tp : Params where
  capacityLast := 0xFFF
  mem0 := fun _ => 0
  resetGpr := fun _ => 0
  resetEflags := 0
  entry := 0x100
  exprMaxLen := none
  maxTokens := none
  table := fx
  freeWord := fun _ => 0

/-- The test machine after reset, with these bytes in memory. -/
def ts (m : Memory := []) : State := { State.resetOf tp with mem := m }

/-- The same in a run. -/
def running (m : Memory := []) : State := { ts m with run := .running, budget := .count 5 }

/-- The machine state of the table in 2.4. -/
def evalState : State :=
  { ts [(0x200, 0x2A), (0x205, 0x02), (0xFFC, 0xEF), (0xFFD, 0xBE), (0xFFE, 0xAD), (0xFFF, 0xDE)] with
    regs := #v[0x1234AB01, 0, 0, 9, 0x200, 0, 0, 0], pc := 0x105, fl := 0x40 }

/-- An expression in that state. -/
def ev (text : String) : Res Word := evaluate tp evalState (asciiText text)

/-- What an outcome delivered. -/
def respOf : Host.Outcome State Fault Refusal → Option Response
  | .next s => some s.resp
  | _ => none

/-- What an operation delivers right after reset. -/
def deliver (i : Instr) : Option Response := respOf (exec i State.reset)

/-- A `Done` record of one byte's length that leaves the machine of `s` as it is. -/
def doneOf (s : State) : Done := ⟨1, s.regs, s.pc, s.fl, s.mem⟩

/-- The state after the instruction at `pc`, by its class, as one instruction step makes it (41_execution_loop.md R121). -/
def stepped (s : State) : State :=
  match fetchInsn tp s with
  | .ok (.insnOrdinary d) => s.complete tp none d
  | .ok (.insnBpTrap q d) => s.complete tp (some q) d
  | .ok .insnFaulting => s.unwindFault tp
  | .ok _ => s
  | .error c => s.raiseFatal c

/-! ### Well-formedness refuses an ill-formed term, check by check -/

theorem test_wf_refuses_assigned_code : (Instr.cmdReserved 0x05).wf = false := by decide
theorem test_wf_refuses_empty_blank_run : (Instr.tWs []).wf = false := by decide
theorem test_wf_refuses_newline_as_blank : (Instr.tWs [0x0A]).wf = false := by decide
theorem test_wf_refuses_hex_digit_g : (Instr.tHex [0x67]).wf = false := by decide
theorem test_wf_refuses_empty_number : (Instr.tDec []).wf = false := by decide
theorem test_wf_refuses_capital_in_name : (Instr.tReg [0x65, 0x41]).wf = false := by decide
theorem test_wf_refuses_letter_in_num_operand : (Instr.operandNum [0x31, 0x61]).wf = false := by decide
theorem test_wf_refuses_empty_hex_operand : (Instr.operandHex []).wf = false := by decide
theorem test_wf_refuses_digit_in_reg_operand : (Instr.operandReg [0x61, 0x31]).wf = false := by decide
theorem test_wf_refuses_listed_initial_byte :
    (Instr.insnOrdinary { doneOf (ts []) with mem := [(0x10, 0)] }).wfFor tp = false := by decide
theorem test_wf_refuses_falling_addresses :
    (Instr.insnBpTrap .stop { doneOf (ts []) with mem := [(0x11, 1), (0x10, 1)] }).wfFor tp = false := by decide
theorem test_wf_refuses_byte_beyond_capacity :
    (Instr.insnOrdinary { doneOf (ts []) with mem := [(0x1000, 1)] }).wfFor tp = false := by decide
theorem test_wf_admits_the_last_byte :
    (Instr.insnOrdinary { doneOf (ts []) with mem := [(0xFFF, 1)] }).wfFor tp = true := by decide

/-! ### Decoding: words written out from 30_encoding.md R83, R85, R73, R72, R87, one for every constructor -/

theorem test_decode_cmdContinue : decode (.command ⟨0x01, 0, 0, []⟩) = .ok .cmdContinue := by decide
theorem test_decode_cmdStep : decode (.command ⟨0x02, 5, 0, []⟩) = .ok (.cmdStep 5) := by decide
theorem test_decode_cmdPrint : decode (.command ⟨0x03, 0, 0, [0x37]⟩) = .ok (.cmdPrint [0x37]) := by decide
theorem test_decode_cmdExamine : decode (.command ⟨0x04, 2, 0x100, []⟩) = .ok (.cmdExamine 2 0x100) := by decide
theorem test_decode_cmdWatch : decode (.command ⟨0x05, 0, 0, [0x37]⟩) = .ok (.cmdWatch [0x37]) := by decide
theorem test_decode_cmdDelete : decode (.command ⟨0x06, 31, 0, []⟩) = .ok (.cmdDelete 31) := by decide
theorem test_decode_cmdInfoRegisters : decode (.command ⟨0x07, 0, 0, []⟩) = .ok .cmdInfoRegisters := by decide
theorem test_decode_cmdInfoWatchpoints : decode (.command ⟨0x08, 0, 0, []⟩) = .ok .cmdInfoWatchpoints := by decide
theorem test_decode_cmdQuit : decode (.command ⟨0x09, 0, 0, []⟩) = .ok .cmdQuit := by decide
/-- Only `a[6:0]` selects (R86). -/
theorem test_decode_cmdRegRead : decode (.command ⟨0x0A, 0xFFFFFF88, 0, []⟩) = .ok (.cmdRegRead 0x08) := by decide
theorem test_decode_cmdRegWrite : decode (.command ⟨0x0B, 0x3C, 3, []⟩) = .ok (.cmdRegWrite 0x3C 3) := by decide
theorem test_decode_cmdMemRead : decode (.command ⟨0x0C, 0x100, 4, []⟩) = .ok (.cmdMemRead 0x100 4) := by decide
theorem test_decode_cmdStopReq : decode (.command ⟨0x0D, 0, 0, []⟩) = .ok .cmdStopReq := by decide
theorem test_decode_cmdReset : decode (.command ⟨0x0E, 0, 0, []⟩) = .ok .cmdReset := by decide
theorem test_decode_cmdReserved : decode (.command ⟨0x0F, 0, 0, []⟩) = .ok (.cmdReserved 0x0F) := by decide
theorem test_decode_tWs : decodeToken [0x20, 0x09, 0x31] = some (.tWs [0x20, 0x09], [0x31]) := by decide
theorem test_decode_tEq : decodeToken [0x3D, 0x3D, 0x3D] = some (.tEq, [0x3D]) := by decide
theorem test_decode_tNe : decodeToken [0x21, 0x3D, 0x31] = some (.tNe, [0x31]) := by decide
theorem test_decode_tAnd : decodeToken [0x26, 0x26] = some (.tAnd, []) := by decide
theorem test_decode_tOr : decodeToken [0x7C, 0x7C] = some (.tOr, []) := by decide
theorem test_decode_tNot : decodeToken [0x21, 0x21, 0x3D] = some (.tNot, [0x21, 0x3D]) := by decide
theorem test_decode_tPlus : decodeToken [0x2B, 0x2B] = some (.tPlus, [0x2B]) := by decide
theorem test_decode_tMinus : decodeToken [0x2D, 0x33] = some (.tMinus, [0x33]) := by decide
theorem test_decode_tStar : decodeToken [0x2A] = some (.tStar, []) := by decide
theorem test_decode_tSlash : decodeToken [0x2F, 0x2F] = some (.tSlash, [0x2F]) := by decide
theorem test_decode_tLparen : decodeToken [0x28, 0x29] = some (.tLparen, [0x29]) := by decide
theorem test_decode_tRparen : decodeToken [0x29] = some (.tRparen, []) := by decide
theorem test_decode_tHex : decodeToken [0x30, 0x78, 0x61, 0x42, 0x67] = some (.tHex [0x61, 0x42], [0x67]) := by decide
/-- `0X1F`: a capital `X` is no prefix (2.3). -/
theorem test_decode_tDec : decodeToken [0x30, 0x58, 0x31] = some (.tDec [0x30], [0x58, 0x31]) := by decide
theorem test_decode_tReg : decodeToken [0x24, 0x65, 0x61, 0x58] = some (.tReg [0x65, 0x61], [0x58]) := by decide
theorem test_decode_operandNum : decode (.unit (.xop ⟨1, 0, 0, [0x31, 0x34]⟩)) = .ok (.operandNum [0x31, 0x34]) := by decide
theorem test_decode_operandHex : decode (.unit (.xop ⟨2, 0, 0, [0x30, 0x78, 0x31]⟩)) = .ok (.operandHex [0x31]) := by decide
theorem test_decode_operandReg : decode (.unit (.xop ⟨3, 0, 0, [0x24, 0x61, 0x6C]⟩)) = .ok (.operandReg [0x61, 0x6C]) := by decide
theorem test_decode_xopEq : decode (.unit (.xop ⟨6, 1, 2, []⟩)) = .ok (.xopEq 1 2) := by decide
theorem test_decode_xopNe : decode (.unit (.xop ⟨7, 1, 2, []⟩)) = .ok (.xopNe 1 2) := by decide
theorem test_decode_xopAnd : decode (.unit (.xop ⟨8, 1, 2, []⟩)) = .ok (.xopAnd 1 2) := by decide
theorem test_decode_xopOr : decode (.unit (.xop ⟨9, 1, 2, []⟩)) = .ok (.xopOr 1 2) := by decide
theorem test_decode_xopNot : decode (.unit (.xop ⟨10, 1, 0, []⟩)) = .ok (.xopNot 1) := by decide
theorem test_decode_xopAdd : decode (.unit (.xop ⟨11, 1, 2, []⟩)) = .ok (.xopAdd 1 2) := by decide
theorem test_decode_xopSub : decode (.unit (.xop ⟨12, 1, 2, []⟩)) = .ok (.xopSub 1 2) := by decide
theorem test_decode_xopMul : decode (.unit (.xop ⟨13, 1, 2, []⟩)) = .ok (.xopMul 1 2) := by decide
theorem test_decode_xopDiv : decode (.unit (.xop ⟨14, 1, 2, []⟩)) = .ok (.xopDiv 1 2) := by decide
theorem test_decode_xopNeg : decode (.unit (.xop ⟨15, 1, 0, []⟩)) = .ok (.xopNeg 1) := by decide
theorem test_decode_xopDeref : decode (.unit (.xop ⟨16, 1, 0, []⟩)) = .ok (.xopDeref 1) := by decide
theorem test_decode_memRead : decode (.unit (.xlat ⟨0, false, 4, 0x100, 0⟩)) = .ok (.memRead 0x100 .four) := by decide
theorem test_decode_memWrite : decode (.unit (.xlat ⟨0, true, 2, 0x200, 0xABCD1234⟩)) = .ok (.memWrite 0x200 .two 0xABCD1234) := by decide
theorem test_decode_linRead : decode (.unit (.xlat ⟨1, false, 1, 0x100, 0⟩)) = .ok (.linRead 0x100 .one) := by decide
theorem test_decode_linWrite : decode (.unit (.xlat ⟨1, true, 1, 0, 0xFF⟩)) = .ok (.linWrite 0 .one 0xFF) := by decide
theorem test_decode_hostRead : decode (.unit (.xlat ⟨2, false, 2, 0x10, 0⟩)) = .ok (.hostRead 0x10 .two) := by decide
theorem test_decode_hostWrite : decode (.unit (.xlat ⟨2, true, 4, 0x20, 0x11223344⟩)) = .ok (.hostWrite 0x20 .four 0x11223344) := by decide
/-- The fixture's byte `0x40` at `pc` is an ordinary instruction of length 1 (30_encoding.md R89). -/
theorem test_fetch_insnOrdinary : fetchInsn tp (ts [(0x100, 0x40)]) =
    .ok (.insnOrdinary ⟨1, #v[1, 0, 0, 0, 0, 0, 0, 0], 0x100, 0, [(0x100, 0x40)]⟩) := by decide
theorem test_fetch_insnBpTrap :
    fetchInsn tp (ts [(0x100, 0xCC)]) = .ok (.insnBpTrap .stop (doneOf (ts [(0x100, 0xCC)]))) := by decide
theorem test_fetch_insnFaulting : fetchInsn tp (ts []) = .ok .insnFaulting := by decide

/-! ### Invalid requests -/

theorem test_decode_refuses_kind_three : decode (.unit (.xlat ⟨3, false, 1, 0, 0⟩)) = .error .invalidKind := by decide
theorem test_decode_refuses_width_three : decode (.unit (.xlat ⟨0, false, 3, 0, 0⟩)) = .error .invalidWidth := by decide
theorem test_decode_refuses_parenthesis_operator : decode (.unit (.xop ⟨4, 0, 0, []⟩)) = .error .notAnOperation := by decide
theorem test_decode_refuses_single_equals : decode (.unit (.text [0x3D, 0x31])) = .error .noTokenRule := by decide

/-! ### What the host's requests of opcode-table words run -/

theorem test_first_step_runs_print : ∃ t, step (State.reset.withFetchWord 8 3) = .next t := ⟨_, rfl⟩
theorem test_first_step_runs_two_character_token :
    step (State.reset.withFetchWord 16 0x213D) = .next { State.reset with resp := .token (some ⟨.ne, []⟩) 2 } := rfl
theorem test_first_step_runs_command_word :
    step (State.reset.withFetchWord 8 9) = .next { State.reset with resp := .ok } := rfl

/-! ### Host operations -/

theorem test_cmdContinue : deliver .cmdContinue = some .silent := by decide
theorem test_cmdStep_sets_budget : ((exec (.cmdStep 3) State.reset) = .next
    { State.reset with run := .running, budget := .count 3, stopPending := false, resp := .silent }) := rfl
theorem test_cmdPrint_runs : ∃ t, exec (.cmdPrint [0x37]) State.reset = .next t := ⟨_, rfl⟩
/-- L23: no dword, no read. -/
theorem test_cmdExamine_zero : deliver (.cmdExamine 0 0xFFFFFFFF) = some (.values []) := by decide
/-- L21 and L22, on the test machine. -/
theorem test_examine_two_dwords :
    examineFrom tp [(0x100, 1), (0x104, 2)] 2 0x100 = .ok [1, 2] ∧
    examineFrom tp [] 2 0xFFC = .error (.oobAccess 0x1000 .four false) := by decide
theorem test_cmdWatch_on_full_pool :
    respOf (exec (.cmdWatch [0x31]) { State.reset with free := [] }) = some (.fail .wPoolFull) := by decide
/-- W1. -/
theorem test_cmdDelete_on_fresh_pool :
    (∃ t, exec (.cmdDelete 0) State.reset = .next t ∧ t.fatal = some .poolDeleteEmpty) := ⟨_, rfl, rfl⟩
/-- W7. -/
theorem test_cmdDelete_relinks : exec (.cmdDelete 0) { State.reset with active := [1, 0], free := [2] } =
    .next { State.reset with active := [1], free := [0, 2], resp := .ok } := rfl
/-- L24, the values being the parameters of the machine. -/
theorem test_cmdInfoRegisters : deliver .cmdInfoRegisters = some (.values [Config.resetGpr 0, Config.resetGpr 1,
    Config.resetGpr 2, Config.resetGpr 3, Config.resetGpr 4, Config.resetGpr 5, Config.resetGpr 6, Config.resetGpr 7,
    Config.entry, Config.resetEflags]) := rfl
theorem test_cmdInfoWatchpoints_order :
    respOf (exec .cmdInfoWatchpoints { State.reset with active := [1, 0] }) =
      some (.listing [(1, [], 0), (0, [], 0)]) := by decide
theorem test_cmdQuit : deliver .cmdQuit = some .ok := by decide
/-- The example of 45_host_commands.md R242. -/
theorem test_cmdRegRead :
    respOf (exec (.cmdRegRead 0x19) { State.reset with regs := #v[0, 0xCAFEBABE, 0, 0, 0, 0, 0, 0] }) =
      some (.value 0xBA) := by decide
/-- L19's neighbour, selector `0x31` names no flag (2.1). -/
theorem test_cmdRegRead_reserved_selector : deliver (.cmdRegRead 0x31) = some (.fail .eBadCommand) := by decide
/-- The example of R243. -/
theorem test_cmdRegWrite : exec (.cmdRegWrite 0x10 0x1FF) { State.reset with regs := #v[0x12345678, 0, 0, 0, 0, 0, 0, 0] } =
    .next { State.reset with regs := #v[0x123456FF, 0, 0, 0, 0, 0, 0, 0], resp := .ok } := rfl
theorem test_cmdRegWrite_iopl : exec (.cmdRegWrite 0x3C 7) { State.reset with fl := 0x41 } =
    .next { State.reset with fl := 0x3041, resp := .ok } := rfl
/-- L20. -/
theorem test_cmdMemRead_width_three : deliver (.cmdMemRead 0x100 3) = some (.fail .eBadCommand) := by decide
/-- L14. -/
theorem test_cmdStopReq_ignored_while_stopped : exec .cmdStopReq State.reset = .next State.reset := rfl
theorem test_cmdStopReq_latched : exec .cmdStopReq { State.reset with run := .running } =
    .next { State.reset with run := .running, stopPending := true } := rfl
/-- L18. -/
theorem test_cmdReset_out_of_fatal :
    exec .cmdReset { State.reset with fatal := some .badImage, run := .ended, pc := 7, active := [3] } =
      .next { State.reset with resp := .ok } := rfl
/-- L19. -/
theorem test_cmdReserved : deliver (.cmdReserved 0xFF) = some (.fail .eBadCommand) := by decide
theorem test_dead_block_takes_nothing :
    exec .cmdQuit { State.reset with fatal := some .badImage } = .fault .blockDead := rfl

/-- A moment of silence does not keep a dead block from the reset behind it (70_reset_and_hazards.md R285). -/
theorem test_dead_block_reaches_reset_past_silence :
    Sys2Proof.core.run 2 { State.reset with fatal := some .badImage, pc := 7, inputs := [.quiet, .command ⟨0x0E, 0, 0, []⟩] } =
      .next { State.reset with resp := .ok } := rfl

/-! ### Register views and flags (2.1) -/

theorem test_views_alias :
    let s := ts.writeView (view32 7) 0x12345678
    s.readView (view16 7) = 0x5678 ∧ s.readView (view8l 7) = 0x78 ∧ s.readView (view8h 7) = 0x56 ∧
    (s.writeView (view16 7) 0xFFFF0001).readView (view32 7) = 0x12340001 ∧
    (s.writeView (view8h 7) 0xAB).readView (view32 7) = 0x1234AB78 := by decide
theorem test_flags_of_ad5 :
    ([.cf, .pf, .af, .zf, .sf, .tf, .iflag, .df, .of].map fun f => flagOf f 0xAD5) =
      [true, true, true, true, true, false, true, false, true] ∧ ioplOf 0xAD5 = 0 := by decide
theorem test_flag_writes :
    setFlag .of (setIopl (setFlag .cf (setFlag .zf 0 true) true) 3) true = 0x3841 ∧ setFlag .zf 0x3841 false = 0x3801 := by
  decide

/-! ### The translator (2.2) -/

/-- T1, T3, T4: little-endian, the high bits of the value dropped, an odd address legal. -/
theorem test_memWrite : memWriteOp tp [] 0x20 .four 0x11223344 =
    .ok [(0x20, 0x44), (0x21, 0x33), (0x22, 0x22), (0x23, 0x11)] := by decide
theorem test_linWrite : linWriteOp tp [] 0x31 .two 0xABCD1234 = .ok [(0x31, 0x34), (0x32, 0x12)] := by decide
/-- T5, T6, T10. -/
theorem test_hostWrite_bounds : hostWriteOp tp [(0xFFF, 1)] 0xFFF .one 0 = .ok [] ∧
    hostWriteOp tp [] 0x1000 .one 0 = .error (.oobAccess 0x1000 .one true) ∧
    hostWriteOp tp [] 0xFFD .four 0xFFFFFFFF = .error (.oobAccess 0xFFD .four true) := by decide
/-- T2. -/
theorem test_memRead : memReadOp tp [(0x20, 0x44), (0x21, 0x33), (0x22, 0x22), (0x23, 0x11)] 0x21 .two = .ok 0x2233 := by
  decide
/-- T4: no sign extension. -/
theorem test_linRead : linReadOp tp [(0x40, 0x80)] 0x40 .one = .ok 0x80 := by decide
/-- T7, T8, T11. -/
theorem test_hostRead_bounds : hostReadOp tp [] 0xFFC .four = .ok 0 ∧
    hostReadOp tp [] 0xFFD .four = .error (.oobAccess 0xFFD .four false) ∧
    hostReadOp tp [] 0xFFFFFFFF .four = .error (.oobAccess 0xFFFFFFFF .four false) := by decide
/-- Every machine has byte 0 and no machine has two bytes at `0xFFFFFFFF`; so the operations complete as instructions. -/
theorem test_memWrite_runs : ∃ t, exec (.memWrite 0 .one 0xFF) State.reset = .next t := ⟨_, rfl⟩
theorem test_memRead_runs : ∃ t, exec (.memRead 0 .one) State.reset = .next t := ⟨_, rfl⟩
theorem test_linWrite_runs : ∃ t, exec (.linWrite 0 .one 0xFF) State.reset = .next t := ⟨_, rfl⟩
theorem test_linRead_runs : ∃ t, exec (.linRead 0 .one) State.reset = .next t := ⟨_, rfl⟩
theorem test_hostWrite_runs : ∃ t, exec (.hostWrite 0 .one 0xFF) State.reset = .next t := ⟨_, rfl⟩
theorem test_hostRead_runs : ∃ t, exec (.hostRead 0 .one) State.reset = .next t := ⟨_, rfl⟩

/-! ### Token rules (2.3, R147 to R161) -/

theorem test_tWs : deliver (.tWs [0x20, 0x09]) = some (.token none 2) := by decide
theorem test_tEq : deliver .tEq = some (.token (some ⟨.eq, []⟩) 2) := by decide
theorem test_tNe : deliver .tNe = some (.token (some ⟨.ne, []⟩) 2) := by decide
theorem test_tAnd : deliver .tAnd = some (.token (some ⟨.and, []⟩) 2) := by decide
theorem test_tOr : deliver .tOr = some (.token (some ⟨.or, []⟩) 2) := by decide
theorem test_tNot : deliver .tNot = some (.token (some ⟨.not, []⟩) 1) := by decide
theorem test_tPlus : deliver .tPlus = some (.token (some ⟨.add, []⟩) 1) := by decide
theorem test_tMinus : deliver .tMinus = some (.token (some ⟨.sub, []⟩) 1) := by decide
theorem test_tStar : deliver .tStar = some (.token (some ⟨.mul, []⟩) 1) := by decide
theorem test_tSlash : deliver .tSlash = some (.token (some ⟨.div, []⟩) 1) := by decide
theorem test_tLparen : deliver .tLparen = some (.token (some ⟨.lparen, []⟩) 1) := by decide
theorem test_tRparen : deliver .tRparen = some (.token (some ⟨.rparen, []⟩) 1) := by decide
theorem test_tHex : deliver (.tHex [0x31, 0x46]) = some (.token (some ⟨.hex, [0x30, 0x78, 0x31, 0x46]⟩) 4) := by decide
theorem test_tDec : deliver (.tDec [0x30, 0x37]) = some (.token (some ⟨.num, [0x30, 0x37]⟩) 2) := by decide
theorem test_tReg : deliver (.tReg [0x61, 0x6C]) = some (.token (some ⟨.reg, [0x24, 0x61, 0x6C]⟩) 3) := by decide

/-- The kinds a text tokenizes to, by their codes (R72). -/
def kinds (text : String) : Except FailCode (List Nat) :=
  (tokenize tp (asciiText text)).map fun l => l.map fun t => kindCode t.kind

/-- `4 - -3`, `-(1+2)*-3`, `2 * * 3`, `(1) -2` (2.3). -/
theorem test_reclassify : kinds "4 - -3" = .ok [1, 12, 15, 1] ∧ kinds "-(1+2)*-3" = .ok [15, 4, 1, 11, 1, 5, 13, 15, 1] ∧
    kinds "2 * * 3" = .ok [1, 13, 16, 1] ∧ kinds "(1) -2" = .ok [4, 1, 5, 12, 1] := by decide
theorem test_tokenize_failures : kinds "!==1" = .error (.eTokenize 2) ∧ kinds "1 !== 2" = .error (.eTokenize 4) ∧
    kinds "0x" = .error (.eTokenize 1) ∧ kinds "0x12g" = .error (.eTokenize 4) ∧ kinds "$EAX" = .error (.eTokenize 0) ∧
    kinds "$eaX" = .error (.eTokenize 3) ∧ kinds "$eax1" = .ok [3, 1] ∧ kinds "   " = .ok [] := by decide

/-! ### Operators and operands (2.4) -/

theorem test_xopNot : deliver (.xopNot 0xFFFFFFFF) = some (.value 0) := by decide
theorem test_xopNeg : deliver (.xopNeg 3) = some (.value 0xFFFFFFFD) := by decide
theorem test_xopDeref : derefValue tp evalState.mem 0xFFC = .ok 0xDEADBEEF ∧
    derefValue tp evalState.mem 0xFFD = .fatal (.oobAccess 0xFFD .four false) := by decide
theorem test_xopDeref_runs : ∃ t, exec (.xopDeref 0x200) State.reset = .next t := ⟨_, rfl⟩
theorem test_xopMul : deliver (.xopMul 0xFFFFFFFF 2) = some (.value 0xFFFFFFFE) := by decide
theorem test_xopDiv : deliver (.xopDiv 0xFFFFFFFA 2) = some (.value 0x7FFFFFFD) := by decide
theorem test_xopDiv_by_zero : deliver (.xopDiv 5 0) = some (.fail .eDivZero) := by decide
theorem test_xopAdd : deliver (.xopAdd 0xFFFFFFFF 1) = some (.value 0) := by decide
theorem test_xopSub : deliver (.xopSub 3 5) = some (.value 0xFFFFFFFE) := by decide
theorem test_xopEq : deliver (.xopEq 2 2) = some (.value 1) := by decide
theorem test_xopNe : deliver (.xopNe 2 2) = some (.value 0) := by decide
/-- Logical, not bitwise: `2 && 4`. -/
theorem test_xopAnd : deliver (.xopAnd 2 4) = some (.value 1) := by decide
theorem test_xopOr : deliver (.xopOr 0 3) = some (.value 1) := by decide
/-- `4294967296`, modulo 2^32. -/
theorem test_operandNum : deliver (.operandNum (asciiText "4294967297")) = some (.value 1) := by decide
theorem test_operandHex : deliver (.operandHex (asciiText "aB")) = some (.value 171) := by decide
theorem test_operandReg : respOf (exec (.operandReg (asciiText "ah")) evalState) = some (.value 0xAB) := by decide
theorem test_operandReg_unknown : deliver (.operandReg (asciiText "foo")) = some (.fail .eUnknownReg) := by decide

/-! ### Whole evaluations (2.4) -/

theorem test_eval_precedence : ev "2 * 3 + 4 * 5" = .ok 26 ∧ ev "10 - 3 - 2" = .ok 5 ∧ ev "100 / 10 / 5" = .ok 2 ∧
    ev "2 == 2 == 2" = .ok 0 ∧ ev "(1)+(2)" = .ok 3 := by decide
theorem test_eval_logic : ev "1 + 2 == 3 && 4 != 5 || 0" = .ok 1 ∧ ev "!$eax&&$ebx!=0" = .ok 0 ∧ ev "!-0" = .ok 1 := by
  decide
theorem test_eval_unary : ev "-2 * 3" = .ok 0xFFFFFFFA ∧ ev "- - 5" = .ok 5 ∧ ev "-(1+2)*-3" = .ok 9 ∧
    ev "2 - -(1 + 1)" = .ok 4 := by decide
theorem test_eval_no_short_circuit : ev "0 && 1/0" = .fail .eDivZero ∧ ev "1 || *0xFFFFFFFF" =
    .fatal (.oobAccess 0xFFFFFFFF .four false) ∧ ev "1/0 + *0xFFFFFFFF" = .fatal (.oobAccess 0xFFFFFFFF .four false) := by
  decide
theorem test_eval_registers_and_memory : ev "$ah * 2 + $al" = .ok 343 ∧ ev "*$esp + 4" = .ok 46 ∧
    ev "*($esp + 4)" = .ok 0x200 ∧ ev "**0x204" = .ok 42 ∧ ev "$eip == 0x105" = .ok 1 := by decide
theorem test_eval_failures : ev "" = .fail .eInvalid ∧ ev "()" = .fail .eEmptyOperand ∧ ev ")(" = .fail .eParen ∧
    ev "1 2" = .fail .eInvalid ∧ ev "1 ! 2" = .fail .eInvalid ∧ ev "5+" = .fail .eEmptyOperand ∧
    ev "//" = .fail .eInvalid ∧ ev "1 + *" = .fail .eInvalid := by decide

/-! ### The pool and the scan (2.5) -/

/-- `ts` with one watchpoint made. -/
def watching (text : String) (s : State) : State := s.settle (wpCreate tp s (asciiText text))

/-- W3, W5. -/
theorem test_create : (watching "$eax" evalState).active = [0] ∧ (watching "$eax" evalState).resp = .value 0 ∧
    wpList (watching "$eax" evalState) = [(0, asciiText "$eax", 0x1234AB01)] := by decide
/-- W2: nothing consumed. -/
theorem test_create_failure : watching "1 +" ts = { ts with resp := .fail .eEmptyOperand } := by decide
/-- The example of 44_watchpoint_manager.md R216, a change of `eax` seen past an unchanged record. -/
theorem test_scan_fires :
    scan tp { watching "$ebx" (watching "$eax" ts) with regs := #v[6, 0, 0, 0, 0, 0, 0, 0] } = .fired 0 0 6 := by decide
/-- A failing record is skipped (E14). -/
theorem test_scan_skips : scan tp { watching "8 / $ebx" evalState with regs := #v[0, 0, 0, 0, 0, 0, 0, 0] } = .quiet := by
  decide

/-! ### The loop (2.6, 2.7) -/

/-- L5 and L6: `jmp`, the advance from where `Exec` left `pc`. -/
theorem test_insnOrdinary : (stepped (running [(0x100, 0xEB), (0x101, 0x7E)])).pc = 0x180 ∧
    (stepped (running [(0x100, 0xEB), (0x101, 0xFE)])).pc = 0x100 := by decide
/-- L16, and a store (P3). -/
theorem test_insnOrdinary_memory :
    (stepped { running [(0xFFC, 0xB8)] with pc := 0xFFC }).fatal = some (.oobAccess 0xFFD .four false) ∧
    (stepped { running [(0x100, 0xA3), (0x101, 0x20)] with regs := #v[7, 0, 0, 0, 0, 0, 0, 0] }).mem =
      [(0x20, 7), (0x100, 0xA3), (0x101, 0x20)] := by decide
/-- L15: a fetch at `CAPACITY` is fatal, not an execution fault. -/
theorem test_fetch_out_of_bounds :
    (stepped { running [(0xFFF, 0x90)] with pc := 0xFFF }).pc = 0x1000 ∧
    (stepped { running [(0xFFF, 0x90)] with pc := 0x1000 }).fatal = some (.oobAccess 0x1000 .one false) := by decide
/-- L3, and L13: `EXEC_STOP` wins over a pending stop request, which is cleared. -/
theorem test_insnBpTrap : let s := stepped { running [(0x100, 0xCC)] with stopPending := true }
    s.pc = 0x101 ∧ s.run = .stopped ∧ s.report.reason = .execStop ∧ s.stopPending = false := by decide
/-- L9, and a watchpoint that fires leaves `STOPPED`, not `ENDED` (2.7). -/
theorem test_insnBpTrap_end : (stepped (running [(0x100, 0xF4)])).run = .ended ∧
    (stepped (watching "$eip" (running [(0x100, 0xF4)]))).run = .stopped ∧
    (stepped (watching "$eip" (running [(0x100, 0xF4)]))).report = ⟨.watch, 0, 0x100, 0x101⟩ := by decide
/-- L7. -/
theorem test_insnFaulting : let s := stepped { running [] with stopPending := true }
    s.pc = 0x100 ∧ s.run = .stopped ∧ s.report.reason = .fault ∧ s.stopPending = true := by decide
/-- A stop request ends the run after the instruction (L12). -/
theorem test_stop_request_ends_the_run : let s := stepped { running [(0x100, 0x90)] with stopPending := true }
    s.pc = 0x101 ∧ s.run = .stopped ∧ s.report.reason = .stopReq ∧ s.stopPending = false := by decide
/-- L1 and L2: the budget. -/
theorem test_budget : loopWork tp { running [(0x100, 0x90)] with budget := .count 0 } =
      .move (State.stopRun tp .budget { running [(0x100, 0x90)] with budget := .count 0 }) ∧
    loopWork tp (running [(0x100, 0xCC)]) = .run (.insnBpTrap .stop (doneOf (running [(0x100, 0xCC)])))
      { running [(0x100, 0xCC)] with budget := .count 4 } := by decide

/-! ### Witnesses

For every statement of Certificates/Slice0/Obligations.lean that has hypotheses, a state and operands that meet them, and
for every clause of one with several a value at the edge of its range. Where a clause speaks of an evaluation that
succeeds, or of an access in bounds beyond byte 0, the open parameters may be too small for any: there the witness is
the test machine, or `Config.machine` with the parameters large enough. -/

/-- Reset state with the host's input to come. -/
def hosted (inputs : List HostInput) : State := { State.reset with inputs := inputs }

/-- A run on the model's machine. -/
def inRun (budget : Budget) (inputs : List HostInput := []) : State :=
  { State.reset with run := .running, budget := budget, inputs := inputs }

/-- A dead block. -/
def dead (inputs : List HostInput := []) : State := { State.reset with fatal := some .badImage, inputs := inputs }

/-- A request at a unit's port of the reset state. -/
def asked (u : UnitRequest) : State := { State.reset with unitReq := some u }

/-- A number token. -/
def num1 : Token := ⟨.num, [0x31]⟩
/-- A token without text. -/
def tok (k : TokenKind) : Token := ⟨k, []⟩

theorem evaluate_one (P : Params) (s : State) (hx : P.exprMaxLen = none) (ht : P.maxTokens = none) :
    evaluate P s [0x31] = .ok 1 := by
  obtain ⟨_, _, _, _, _, _, _, _, _⟩ := P
  simp only at hx ht
  subst hx ht
  rfl

theorem evaluate_eax (P : Params) (s : State) (hx : P.exprMaxLen = none) (ht : P.maxTokens = none) :
    evaluate P s (asciiText "$eax") = .ok (s.readView (view32 0)) := by
  obtain ⟨_, _, _, _, _, _, _, _, _⟩ := P
  simp only at hx ht
  subst hx ht
  rfl

theorem evaluate_nothing (P : Params) (s : State) : evaluate P s [] = .fail .eInvalid := by
  obtain ⟨_, _, _, _, _, x, t, _, _⟩ := P
  cases x <;> cases t <;> rfl

theorem capacity_pos : 0 + 1 ≤ Config.machine.capacity := by simp [Params.capacity]

theorem capacity_le : Config.machine.capacity ≤ 2 ^ 32 := Config.machine.capacityLast.isLt

theorem beyond_two : Config.machine.capacity < (0xFFFFFFFF : Word).toNat + Width.two.bytes := by
  have h := capacity_le
  simp [Width.bytes]
  omega

theorem beyond_four : Config.machine.capacity < (0xFFFFFFFF : Word).toNat + Width.four.bytes := by
  have h := capacity_le
  simp [Width.bytes]
  omega

theorem deref_fatal (s : State) : derefValue Config.machine s.mem 0xFFFFFFFF = .fatal (.oobAccess 0xFFFFFFFF .four false) := by
  have h : inBounds Config.machine 0xFFFFFFFF .four = false := by
    rw [inBounds, decide_eq_false_iff_not]
    have := beyond_four
    omega
  simp only [derefValue, memReadOp, linReadOp, hostReadOp, programToLinear, linearToOffset, h, Bool.false_eq_true, if_false]

theorem evaluate_deref (P : Params) (s : State) (hx : P.exprMaxLen = none) (ht : P.maxTokens = none) :
    evaluate P s (asciiText "*0xFFFFFFFF") = applyUnary (derefValue P s.mem) (.ok 0xFFFFFFFF) := by
  obtain ⟨_, _, _, _, _, _, _, _, _⟩ := P
  simp only at hx ht
  subst hx ht
  rfl

theorem evaluate_fatal (s : State) (hx : Config.exprMaxLen = none) (ht : Config.maxTokens = none) :
    evaluate Config.machine s (asciiText "*0xFFFFFFFF") = .fatal (.oobAccess 0xFFFFFFFF .four false) := by
  rw [evaluate_deref Config.machine s hx ht]
  exact deref_fatal s

theorem witness_StepRunsTheHostsNextOperation :
    let s := hosted [.command ⟨0x09, 0, 0, []⟩]
    s.Accepts ∧ s.PortQuiet ∧ s.inputs = .command ⟨0x09, 0, 0, []⟩ :: [] := ⟨⟨rfl, by decide⟩, rfl, rfl⟩

theorem witness_StepRunsTheUnitRequest :
    (asked (.text [0x2B])).Live ∧ decode (.unit (.text [0x2B])) = .ok .tPlus ∧
    decode (.unit (.text [0x3D])) = .error .noTokenRule ∧
    decode (.unit (.xlat ⟨3, false, 1, 0, 0⟩)) = .error .invalidKind ∧ Reject.invalidKind ≠ .noTokenRule :=
  ⟨rfl, by decide, by decide, by decide, by decide⟩

theorem witness_StepRunsTheFetchedInstruction :
    (∀ l ∈ [[], [.quiet], [HostInput.command ⟨0x09, 0, 0, []⟩]], ∀ b ∈ [.inf, .count 1],
      (inRun b l).InRun ∧ (inRun b l).PortQuiet ∧ (inRun b l).NoStopRequest ∧ (inRun b l).budget.isSpent = false) ∧
    (∃ i, fetchInsn tp (running [(0x100, 0x40)]) = .ok i) ∧
    (∃ c, fetchInsn tp { running with pc := 0x1000 } = .error c) ∧
    tp.capacity ≤ ({ running with pc := 0x1000 } : State).pc.toNat ∧
    (Config.capacityLast.toNat < 0xFFFFFFFF →
      Config.machine.capacity ≤ ({ inRun .inf with pc := 0xFFFFFFFF } : State).pc.toNat) := by
  refine ⟨?_, ⟨_, (by decide : _ = Except.ok (.insnOrdinary ⟨1, #v[1, 0, 0, 0, 0, 0, 0, 0], 0x100, 0, [(0x100, 0x40)]⟩))⟩, ⟨.oobAccess 0x1000 .one false, by decide⟩, by decide, fun h => h⟩
  intro l hl b hb
  fin_cases hl <;> fin_cases hb <;>
    refine ⟨⟨rfl, rfl⟩, rfl, ?_, by decide⟩ <;> intro r rest h <;> simp [inRun] at h <;> (obtain ⟨rfl, rfl⟩ := h; decide)

theorem witness_RunningBlockTakesTheStopRequest :
    let s := inRun (.count 1) [.command ⟨0x0D, 0, 0, []⟩]
    s.InRun ∧ s.PortQuiet ∧ s.inputs = .command ⟨0x0D, 0, 0, []⟩ :: [] := ⟨⟨rfl, rfl⟩, rfl, rfl⟩

theorem witness_SpentBudgetEndsTheRun :
    let s := inRun (.count 0) [.quiet]
    s.InRun ∧ s.PortQuiet ∧ s.NoStopRequest ∧ s.budget = .count 0 :=
  ⟨⟨rfl, rfl⟩, rfl, fun _ _ h => by simp [inRun] at h, rfl⟩

theorem witness_DeadBlockTakesOnlyReset :
    (dead [.command ⟨0x0E, 0, 0, []⟩]).fatal = some .badImage ∧ Instr.cmdQuit ≠ .cmdReset ∧
    (dead [.quiet]).inputs = .quiet :: [] ∧
    ∀ l ∈ [[], [HostInput.command ⟨0x09, 0, 0, []⟩]],
      (∀ r rest, (dead l).inputs = .command r :: rest → r.op ≠ 0x0E) ∧ ∀ rest, (dead l).inputs ≠ .quiet :: rest := by
  refine ⟨rfl, by decide, rfl, fun l hl => ?_⟩
  fin_cases hl <;> refine ⟨fun r rest h => ?_, fun rest h => ?_⟩ <;> simp [dead] at h
  obtain ⟨rfl, rfl⟩ := h
  decide

theorem witness_UnacceptedOperationsHaveNoTransition :
    (inRun .inf).InRun ∧ State.reset.Accepts ∧ ({ State.reset with run := .ended } : State).Accepts :=
  ⟨⟨rfl, rfl⟩, ⟨rfl, by decide⟩, ⟨rfl, by decide⟩⟩

theorem witness_LiveBlockAlwaysSteps : State.reset.Live ∧ State.reset.PortQuiet ∧ (inRun .inf).Live ∧ (inRun .inf).PortQuiet :=
  ⟨rfl, rfl, rfl, rfl⟩

theorem witness_EncodedInstructionsDecodeBack :
    (Instr.cmdReserved 0xFF).wf = true ∧ encode (.cmdReserved 0xFF) = some (.command ⟨0xFF, 0, 0, []⟩) ∧
    (Instr.tHex [0x46]).wf = true ∧ encode (.tHex [0x46]) = some (.unit (.text [0x30, 0x78, 0x46])) ∧
    (Instr.operandReg [0x7A]).wf = true ∧ encode (.operandReg [0x7A]) = some (.unit (.xop ⟨3, 0, 0, [0x24, 0x7A]⟩)) ∧
    (Instr.hostWrite 4 .four 5).wf = true ∧ encode (.hostWrite 4 .four 5) = some (.unit (.xlat ⟨2, true, 4, 4, 5⟩)) := by
  decide

theorem witness_WrittenTokensTokenizeBack :
    let is := [Instr.tDec [0x31], .tMinus, .tHex [0x41]]
    (∀ i ∈ is, i.wfFor tp = true ∧ (emission i).tok ≠ none) ∧
    overLimit (is.flatMap fun i => encodeToken i ++ [0x20]).length tp.exprMaxLen = false ∧
    overLimit is.length tp.maxTokens = false := by decide

theorem witness_ReadsDeliverTheLittleEndianValue :
    State.reset.Live ∧ (0 : Word).toNat + Width.one.bytes ≤ Config.machine.capacity ∧
    Config.machine.capacity < (0xFFFFFFFF : Word).toNat + Width.two.bytes := ⟨rfl, capacity_pos, beyond_two⟩

theorem witness_WritesStoreTheLittleEndianBytes :
    State.reset.Live ∧ Memory.wf Config.machine State.reset.mem = true ∧
    (0 : Word).toNat + Width.one.bytes ≤ Config.machine.capacity ∧
    Config.machine.capacity < (0xFFFFFFFF : Word).toNat + Width.two.bytes := ⟨rfl, rfl, capacity_pos, beyond_two⟩

theorem witness_TranslatorLaws :
    Memory.wf tp [(0x20, 1), (0xFFF, 2)] = true ∧ (0xFFF : Word).toNat + Width.one.bytes ≤ tp.capacity ∧
    (0xFFC : Word).toNat + 4 ≤ tp.capacity ∧ (0xFFE : Word).toNat + 2 ≤ tp.capacity ∧ (0xFFB < 0xFFC ∨ 0xFFC + 4 ≤ 0xFFB) := by
  decide

theorem witness_ExecReachesMemoryOnlyInBounds :
    Memory.wf tp [] = true ∧
    runProg tp (.write .program 0xFFF .one 7 (.done 1 #v[0, 0, 0, 0, 0, 0, 0, 0] 0 0 none)) [] =
      .done none ⟨1, #v[0, 0, 0, 0, 0, 0, 0, 0], 0, 0, [(0xFFF, 7)]⟩ ∧ tp.capacity ≤ 0x1000 ∧
    runProg tp (.write .linear 0xFFF .two 7 .fault) [] = .fatal (.oobAccess 0xFFF .two true) ∧
    (0xFFF : Word).toNat + Width.one.bytes ≤ tp.capacity ∧ tp.capacity < (0xFFF : Word).toNat + Width.two.bytes := by decide

theorem witness_RegReadDeliversTheSelectedBits :
    State.reset.Accepts ∧ (0x07 : BitVec 7).toNat = (7 : Fin 8) ∧ (0x08 : BitVec 7).toNat = 0x08 + (0 : Fin 8) ∧
    (0x17 : BitVec 7).toNat = 0x10 + (7 : Fin 8) ∧ (0x1F : BitVec 7).toNat = 0x18 + (7 : Fin 8) ∧
    (0x30 : BitVec 7).toNat = 0x30 + 0 ∧ (0x3B : BitVec 7).toNat = 0x30 + 11 ∧ (0x3C : BitVec 7).toNat = 0x3C ∧
    ∀ n ∈ [0x22, 0x2F, 0x31, 0x3D, 0x7F], 0x22 ≤ (BitVec.ofNat 7 n).toNat ∧
      ∀ k ∈ [0, 2, 4, 6, 7, 8, 9, 10, 11, 12], (BitVec.ofNat 7 n).toNat ≠ 0x30 + k :=
  ⟨⟨rfl, by decide⟩, by decide⟩

theorem witness_RegWriteReplacesExactlyTheSelectedBits :
    State.reset.Accepts ∧ (0x00 : BitVec 7).toNat = (0 : Fin 8) ∧ (0x0F : BitVec 7).toNat = 0x08 + (7 : Fin 8) ∧
    (0x10 : BitVec 7).toNat = 0x10 + (0 : Fin 8) ∧ (0x18 : BitVec 7).toNat = 0x18 + (0 : Fin 8) ∧
    (0x20 : BitVec 7).toNat = 0x20 ∧ (0x21 : BitVec 7).toNat = 0x21 ∧ (0x3B : BitVec 7).toNat = 0x30 + 11 ∧
    (0x3C : BitVec 7).toNat = 0x3C ∧ 0x22 ≤ (0x22 : BitVec 7).toNat ∧
    ∀ k ∈ [0, 2, 4, 6, 7, 8, 9, 10, 11, 12], (0x22 : BitVec 7).toNat ≠ 0x30 + k :=
  ⟨⟨rfl, by decide⟩, by decide⟩

theorem witness_ViewsAliasOneStorage : (view8h 7).lo ≤ 8 ∧ 15 < (view8h 7).lo + (view8h 7).len ∧
    view16 0 ∈ [view32 0, view16 0, view8l 0, view8h 0] := by decide

theorem witness_PrintDeliversTheEvaluation :
    State.reset.Accepts ∧ evaluate Config.machine State.reset [] = .fail .eInvalid ∧
    (Config.exprMaxLen = none → Config.maxTokens = none →
      evaluate Config.machine State.reset [0x31] = .ok 1 ∧
      evaluate Config.machine State.reset (asciiText "*0xFFFFFFFF") = .fatal (.oobAccess 0xFFFFFFFF .four false)) :=
  ⟨⟨rfl, by decide⟩, evaluate_nothing _ _, fun hx ht => ⟨evaluate_one Config.machine _ hx ht, evaluate_fatal _ hx ht⟩⟩

theorem witness_ExamineDeliversConsecutiveDwords :
    State.reset.Accepts ∧
    (∀ k < (0 : Word).toNat, ((0 : Word) + BitVec.ofNat 32 (4 * k)).toNat + 4 ≤ Config.machine.capacity) ∧
    0 < (1 : Word).toNat ∧ (∀ j < 0, ((0xFFFFFFFF : Word) + BitVec.ofNat 32 (4 * j)).toNat + 4 ≤ Config.machine.capacity) ∧
    Config.machine.capacity < ((0xFFFFFFFF : Word) + BitVec.ofNat 32 (4 * 0)).toNat + 4 :=
  ⟨⟨rfl, by decide⟩, by simp, by decide, by simp, beyond_four⟩

theorem witness_WatchTakesTheHeadOfTheFreeList :
    State.reset.Accepts ∧ ({ State.reset with free := [] } : State).free = [] ∧
    State.reset.free = 0 :: (List.finRange 32).tail ∧ evaluate Config.machine State.reset [] = .fail .eInvalid ∧
    (Config.exprMaxLen = none → Config.maxTokens = none →
      evaluate Config.machine State.reset [0x31] = .ok 1 ∧
      evaluate Config.machine State.reset (asciiText "*0xFFFFFFFF") = .fatal (.oobAccess 0xFFFFFFFF .four false)) :=
  ⟨⟨rfl, by decide⟩, rfl, rfl, evaluate_nothing _ _,
    fun hx ht => ⟨evaluate_one Config.machine _ hx ht, evaluate_fatal _ hx ht⟩⟩

theorem witness_DeleteReturnsTheSlotToTheFreeList :
    let s : State := { State.reset with active := [31, 0], free := [] }
    s.Accepts ∧ State.reset.active = [] ∧ s.active ≠ [] ∧ (∀ k ∈ s.active, k.val ≠ (32 : Word).toNat) ∧
    (31 : Fin 32) ∈ s.active ∧ (31 : Fin 32).val = (31 : Word).toNat :=
  ⟨⟨rfl, by decide⟩, rfl, by decide, by decide, by decide, by decide⟩

theorem witness_ListingShowsTheActiveRecordsInOrder : ({ State.reset with active := [1, 0] } : State).Accepts :=
  ⟨rfl, by decide⟩

theorem witness_DumpQuitAndReservedCodesChangeNothing :
    State.reset.Accepts ∧ ∀ op ∈ [(0x00 : Byte), 0x0F, 0xFF], op = 0 ∨ 0x0F ≤ op := ⟨⟨rfl, by decide⟩, by decide⟩

theorem witness_MemReadDeliversOneAccess :
    State.reset.Accepts ∧ (1 : Word).toNat = Width.one.bytes ∧ (2 : Word).toNat = Width.two.bytes ∧
    (0 : Word).toNat + Width.one.bytes ≤ Config.machine.capacity ∧
    Config.machine.capacity < (0xFFFFFFFF : Word).toNat + Width.two.bytes ∧
    (∀ n ∈ [(0 : Word), 3, 5, 0xFFFFFFFF], ∀ w : Width, n.toNat ≠ w.bytes) := by
  refine ⟨⟨rfl, by decide⟩, rfl, rfl, capacity_pos, beyond_two, ?_⟩
  intro n hn w
  fin_cases hn <;> cases w <;> decide

theorem witness_StopRequestSetsTheLatchOnlyWhileRunning :
    (inRun .inf).Live ∧ (inRun .inf).run = .running ∧ State.reset.Live ∧ State.reset.run ≠ .running :=
  ⟨rfl, rfl, rfl, by decide⟩

theorem witness_ResetRestoresEveryPieceOfState :
    ((hosted [.quiet]).Accepts ∨ (hosted [.quiet]).fatal ≠ none) ∧ (dead.Accepts ∨ dead.fatal ≠ none) :=
  ⟨.inl ⟨rfl, by decide⟩, .inr (by decide)⟩

theorem witness_RunRequestStartsARun :
    State.reset.Live ∧ State.reset.run = .stopped ∧ (0xFFFFFFFE : Word) ≠ 0xFFFFFFFF ∧ (0 : Word) ≠ 0xFFFFFFFF :=
  ⟨rfl, rfl, by decide, by decide⟩

theorem witness_EndedOnlyReportsAndIsLeftOnlyByReset :
    let s : State := { hosted [.command ⟨0x0E, 0, 0, []⟩] with run := .ended }
    s.Live ∧ s.run = .ended ∧ ∃ t, step s = .next t ∧ t.run ≠ .ended := ⟨rfl, rfl, _, rfl, by decide⟩

theorem witness_TokenRulesDeliverWhatTheyEmit : State.reset.Live := rfl

theorem witness_TokenizeAppliesTheRuleListInTurn :
    overLimit ([0x31] : List Byte).length (some 0) = true ∧ overLimit ([0x31] : List Byte).length (some 1) = false ∧
    Lexes [0x31, 0x2B] [.tDec [0x31], .tPlus] [] ∧ Lexes [0x31, 0x3D] [.tDec [0x31]] [0x3D] ∧
    decodeToken [0x3D] = none ∧ overLimit 2 (some 1) = true ∧ overLimit 2 (some 2) = false :=
  ⟨by decide, by decide,
    .rule _ [0x2B] _ _ _ (by decide) (.rule _ [] _ _ _ (by decide) (.stop _)),
    .rule _ [0x3D] _ _ _ (by decide) (.stop _), by decide, by decide, by decide⟩

theorem witness_ReclassifyLooksAtThePreviousToken :
    let l := [tok .mul, num1, tok .sub, tok .sub]
    l[0]? = some (tok .mul) ∧ (tok .mul).kind = .mul ∧ l[2]? = some (tok .sub) ∧ l[3]? = some (tok .sub) ∧
    (tok .sub).kind = .sub ∧ num1.kind ≠ .sub ∧ num1.kind ≠ .mul ∧
    (∃ p, l[3 - 1]? = some p ∧ p.kind ∉ [TokenKind.rparen, .num, .hex, .reg]) ∧
    ¬ (2 = 0 ∨ ∃ p, l[2 - 1]? = some p ∧ p.kind ∉ [TokenKind.rparen, .num, .hex, .reg]) := by
  refine ⟨rfl, rfl, rfl, rfl, rfl, by decide, by decide, ⟨_, rfl, by decide⟩, ?_⟩
  simp [num1]

theorem witness_ArithmeticOperatorsWrapModulo32Bits : State.reset.Live := rfl

theorem witness_ComparisonAndLogicYieldOneOrZero : State.reset.Live := rfl

theorem witness_DivisionIsUnsignedAndFailsOnZero : State.reset.Live ∧ (1 : Word) ≠ 0 ∧ (0 : Word) = 0 :=
  ⟨rfl, by decide, rfl⟩

/-- The clause in bounds needs a store of four bytes. -/
theorem witness_DerefReadsFourBytes :
    State.reset.Live ∧ (3 ≤ Config.capacityLast.toNat → (0 : Word).toNat + 4 ≤ Config.machine.capacity) ∧
    Config.machine.capacity < (0xFFFFFFFF : Word).toNat + 4 :=
  ⟨rfl, fun h => by simp only [Params.capacity, Config.machine]; simp; omega, beyond_four⟩

theorem witness_LiteralsAreTheirDigitsModulo32Bits :
    State.reset.Live ∧ isRunOf isDecDigit (asciiText "0459") = true ∧ isRunOf isHexDigit (asciiText "09afAF") = true := by
  refine ⟨rfl, by decide, by decide⟩

theorem witness_RegisterNamesReadTheirViews : State.reset.Live ∧
    (asciiText "e" ∉ regNames.map Prod.fst) ∧ regNames.length = 26 := ⟨rfl, by decide, by decide⟩

theorem witness_EvalFollowsItsRecursion :
    2 ≤ [num1, tok .rparen].length ∧ parenCheck [num1, tok .rparen] = .bad ∧
    parenCheck [tok .lparen, num1, tok .rparen] = .wrapped ∧ parenCheck [num1, num1] = .openRange ∧
    dominant [num1, num1] = none ∧ parenCheck [num1, tok .add, num1] = .openRange ∧
    dominant [num1, tok .add, num1] = some 1 := by decide

theorem witness_DominantIsTheLoosestOperator :
    dominant [num1, tok .sub, num1, tok .sub, num1] = some 3 ∧ dominant [tok .neg, tok .not, num1] = some 0 ∧
    level (tok .sub).kind = level (tok .add).kind ∧ isUnary (tok .neg).kind = true := by decide

/-- `1 + 1`. -/
theorem witness_DerivedStringsEvaluateToTheirTrees :
    Derives 1 [num1, tok .add, num1] (.binary .add (.operand num1) (.operand num1)) := by
  have h7 : Derives 7 [num1] (.operand num1) := .operand _ (.inl rfl)
  have h6 : Derives 6 [num1] (.operand num1) := .weaken _ _ _ (by decide) (by decide) h7
  have h5 : Derives 5 [num1] (.operand num1) := .weaken _ _ _ (by decide) (by decide) h6
  have h4 : Derives 4 [num1] (.operand num1) := .weaken _ _ _ (by decide) (by decide) h5
  exact .weaken _ _ _ (by decide) (by decide) (.weaken _ _ _ (by decide) (by decide) (.weaken _ _ _ (by decide) (by decide)
    (.binaryOp 4 (tok .add) [num1] [num1] _ _ rfl rfl rfl h4 h5)))

theorem witness_ValuesComeOnlyFromDerivableStrings : evalTokens tp ts [num1, tok .add, num1] = .ok 2 := by decide

theorem witness_WorkedExamplesOfTheSource : tp.exprMaxLen = none ∧ tp.maxTokens = none := ⟨rfl, rfl⟩

theorem witness_EvaluationSeesOnlyRegistersAndMemory :
    let s : State := { ts with run := .ended, active := [3], budget := .inf }
    s ≠ ts ∧ s.regs = ts.regs ∧ s.pc = ts.pc ∧ s.fl = ts.fl ∧ s.mem = ts.mem := by decide

theorem witness_EvaluationIsFatalOnlyOutOfBounds : ev "*0xFFD" = .fatal (.oobAccess 0xFFD .four false) := by decide

theorem witness_ScanReportsTheFirstChangedRecord :
    scan tp ts = .quiet ∧ scan tp { watching "$eax" ts with regs := #v[1, 0, 0, 0, 0, 0, 0, 0] } = .fired 0 0 1 ∧
    scan tp { watching "*$eax" ts with regs := #v[0xFFD, 0, 0, 0, 0, 0, 0, 0] } =
      .fatal (.oobAccess 0xFFD .four false) := by decide

theorem witness_DeletedSlotIsTheNextCreated :
    ({ ts with free := [] } : State).free = [] ∧
    wpDelete { ts with active := [5, 4], free := [] } 4 =
      .ok { ts with active := [5], free := [4], resp := .ok } ∧
    evaluate tp { ts with active := [5], free := [4], resp := .ok } [0x31] = .ok 1 := by decide

theorem witness_WatchedEaxStopsTheRunWhenItChanges :
    let s := watching "$eax" running
    s.InRun ∧ s.stopPending = false ∧ overLimit 4 tp.exprMaxLen = false ∧ overLimit 1 tp.maxTokens = false ∧
    s.active = [0] ∧ (s.slots[(0 : Fin 32)]).expr = asciiText "$eax" ∧ (s.slots[(0 : Fin 32)]).last = s.regs[0] ∧
    (doneOf s).regs[0] = s.regs[0] ∧ ({ doneOf s with regs := #v[1, 0, 0, 0, 0, 0, 0, 0] } : Done).regs[0] ≠ s.regs[0] :=
  ⟨⟨by decide, by decide⟩, by decide, rfl, rfl, by decide, by decide, by decide, by decide, by decide⟩

/-- An active watchpoint on this text, its stored value 0, in a run. -/
def armed (text : List Byte) : State :=
  { inRun (.count 1) with active := [0], slots := resetSlots.set 0 ⟨0, text, 0⟩ }

theorem armed_slot (text : List Byte) : ((armed text).slots[(0 : Fin 32)]) = ⟨0, text, 0⟩ := rfl

theorem armed_fires (hx : Config.exprMaxLen = none) (ht : Config.maxTokens = none) :
    scan Config.machine (armed [0x31]) = .fired 0 0 1 := by
  show scanFrom Config.machine (armed [0x31]) [0] = _
  simp only [scanFrom, armed_slot, evaluate_one Config.machine _ hx ht]
  decide

theorem armed_fatal (hx : Config.exprMaxLen = none) (ht : Config.maxTokens = none) :
    scan Config.machine (armed (asciiText "*0xFFFFFFFF")) = .fatal (.oobAccess 0xFFFFFFFF .four false) := by
  show scanFrom Config.machine (armed (asciiText "*0xFFFFFFFF")) [0] = _
  simp only [scanFrom, armed_slot, evaluate_fatal _ hx ht]

theorem witness_OrdinaryInstructionFollowsTheProtocol :
    (inRun .inf).InRun ∧ scan Config.machine (inRun .inf) = .quiet ∧ (inRun .inf).stopPending = false ∧
    ({ inRun .inf with stopPending := true } : State).InRun ∧ (armed [0x31]).InRun ∧
    (Config.exprMaxLen = none → Config.maxTokens = none →
      scan Config.machine (armed [0x31]) = .fired 0 0 1 ∧
      scan Config.machine (armed (asciiText "*0xFFFFFFFF")) = .fatal (.oobAccess 0xFFFFFFFF .four false)) :=
  ⟨⟨rfl, rfl⟩, rfl, rfl, ⟨rfl, rfl⟩, ⟨rfl, rfl⟩, fun hx ht => ⟨armed_fires hx ht, armed_fatal hx ht⟩⟩

theorem witness_TrapAndEndRequestsEndTheRun :
    (inRun .inf).InRun ∧ scan Config.machine { inRun .inf with run := .ended } = .quiet ∧ (armed [0x31]).InRun ∧
    (Config.exprMaxLen = none → Config.maxTokens = none →
      scan Config.machine (armed [0x31]) = .fired 0 0 1 ∧
      scan Config.machine (armed (asciiText "*0xFFFFFFFF")) = .fatal (.oobAccess 0xFFFFFFFF .four false)) :=
  ⟨⟨rfl, rfl⟩, rfl, ⟨rfl, rfl⟩, fun hx ht => ⟨armed_fires hx ht, armed_fatal hx ht⟩⟩

theorem witness_FaultUnwindIsPrecise :
    (inRun .inf).InRun ∧ ∃ t, exec .insnFaulting (inRun .inf) = .next t := ⟨⟨rfl, rfl⟩, _, rfl⟩

theorem witness_EveryStepKeepsTheStateSound :
    let s := hosted [.command ⟨0x09, 0, 0, []⟩]
    s.Live ∧ s.Sound ∧ step s = .next { State.reset with resp := .ok } := by
  have hl : ∀ l : Option Nat, overLimit 0 l = false := fun l => by cases l <;> rfl
  have he : ∀ k : Fin 32, ((hosted [.command ⟨0x09, 0, 0, []⟩]).slots[k]).expr = [] := by
    show ∀ k : Fin 32, (resetSlots[k]).expr = []
    decide
  have hi : ∀ k : Fin 32, (resetSlots[k]).id = slotWord k := by decide
  refine ⟨rfl, ⟨rfl, .refl _, hi, fun k => ?_, fun k hk => absurd hk List.not_mem_nil, rfl⟩, rfl⟩
  rw [he k]
  exact hl _

theorem witness_StepsRaiseOnlyTheReachableFatalCauses :
    (hosted [.command ⟨0x06, 0, 0, []⟩]).Live ∧
    (∃ t, step (hosted [.command ⟨0x06, 0, 0, []⟩]) = .next t ∧ t.fatal = some .poolDeleteEmpty) :=
  ⟨rfl, _, rfl, rfl⟩

/-- No step made yet, at both ends of the budget, and one step made, where `Exec` finds an ordinary instruction. -/
theorem witness_BudgetBoundsTheRun :
    (∀ n : Word, (inRun (.count n)).InRun ∧ (inRun (.count n)).PortQuiet ∧ (inRun (.count n)).inputs = [] ∧
      (inRun (.count n)).budget = .count n ∧ Sys2Proof.core.run 0 (inRun (.count n)) = .next (inRun (.count n))) ∧
    (∀ d, fetchInsn Config.machine (inRun (.count 0)) = .ok (.insnOrdinary d) →
      ∃ t, step (inRun (.count 1)) = .next t ∧ t.InRun ∧ t.budget = .count 0) := by
  refine ⟨fun n => ⟨⟨rfl, rfl⟩, rfl, rfl, rfl, rfl⟩, fun d h => ?_⟩
  refine ⟨_, show step (inRun (.count 1)) = exec (.insnOrdinary d) (inRun (.count 0)) from ?_, ⟨rfl, rfl⟩, rfl⟩
  show (loopWork Config.machine (inRun (.count 1))).perform = _
  have h' : loopWork Config.machine (inRun (.count 1)) =
      (match fetchInsn Config.machine (inRun (.count 0)) with
        | .ok i => .run i (inRun (.count 0))
        | .error c => .move ((inRun (.count 0)).raiseFatal c)) := rfl
  rw [h', h]
  rfl

theorem witness_HostOperationsWriteOnlyTheirOwnState :
    let s := hosted [.command ⟨0x0B, 0, 7, []⟩]
    s.Accepts ∧ s.PortQuiet ∧ s.inputs = .command ⟨0x0B, 0, 7, []⟩ :: [] ∧ ∃ t, step s = .next t ∧ t.Live :=
  ⟨⟨rfl, by decide⟩, rfl, rfl, _, rfl, rfl⟩

theorem witness_EvaluateAndApplyFollowTheirRules :
    tokenize tp [0x3D] = .error (.eTokenize 0) ∧ tokenize tp [0x20] = .ok [] ∧ tokenize tp [0x31] = .ok [num1] ∧
    TokenKind.eoi ∉ [TokenKind.num, .hex, .reg] ∧
    [tok .neg, num1][0]? = some (tok .neg) ∧ isUnary (tok .neg).kind = true ∧ evalTokens tp ts [num1] = .ok 1 ∧
    evalTokens tp ts [tok .add] = .fail .eInvalid ∧
    evalTokens tp ts [tok .deref, ⟨.hex, asciiText "0xFFD"⟩] = .fatal (.oobAccess 0xFFD .four false) ∧
    [num1, tok .not, num1][1]? = some (tok .not) ∧ 1 ≠ 0 ∧
    [num1, tok .or, num1][1]? = some (tok .or) ∧ isUnary (tok .or).kind = false ∧
    readAt tp [] .program 0xFFC .four = .ok 0 ∧
    readAt tp [] .program 0xFFD .four = .error (.oobAccess 0xFFD .four false) := by decide

end Sys2Proof.Tests
end

