-- ==== Sys2Proof/Proofs/Translator.lean ====
section
/-! The translator's accesses as the block runs them: the three address kinds name one byte of the store
(20_memory.md R52), so each statement is about the host-backing access alone (40_translator_ops.md R104, R105). -/

namespace Sys2Proof.Proofs

open Sys2Proof.Machine Sys2Proof.Laws

/-! ### Bytes of a word -/

theorem ofNat_div_pow_eq_extractLsb' (v : Word) (k : Nat) :
    BitVec.ofNat 8 (v.toNat / 256 ^ k) = v.extractLsb' (8 * k) 8 := by
  apply BitVec.eq_of_toNat_eq
  rw [BitVec.toNat_ofNat, BitVec.extractLsb'_toNat, Nat.shiftRight_eq_div_pow, pow_mul]
  rfl

/-- The value of a host-backing read, each byte at its weight in bits (20_memory.md R53). -/
theorem getLE_eq_sum_byteAt (P : Params) (s : State) (a n : Nat) :
    Memory.getLE P.mem0 s.mem a n = ∑ k ∈ Finset.range n, (s.byteAt P (a + k)).toNat * 2 ^ (8 * k) := by
  simp only [Memory.getLE_eq_sum, pow_mul]
  rfl

/-- Every byte after a host-backing write inside the store. -/
theorem get_putLE_word {P : Params} {m : Memory} {addr v : Word} {w : Width} (hm : Memory.wf P m = true)
    (h : addr.toNat + w.bytes ≤ P.capacity) (a : Nat) :
    Memory.get P.mem0 (Memory.putLE P.mem0 addr.toNat w.bytes v.toNat m) a =
      if addr.toNat ≤ a ∧ a < addr.toNat + w.bytes then v.extractLsb' (8 * (a - addr.toNat)) 8
      else Memory.get P.mem0 m a := by
  rw [Memory.get_putLE hm h, ofNat_div_pow_eq_extractLsb']

/-- A fatal condition changes no byte of the store. -/
@[simp] theorem byteAt_raiseFatal (P : Params) (s : State) (c : FatalCause) (a : Nat) :
    (s.raiseFatal c).byteAt P a = s.byteAt P a := by
  rw [State.byteAt, State.raiseFatal_mem, State.byteAt]

/-! ### Records -/

/-- The data field of a read's record is not looked at (30_encoding.md R87). -/
theorem decode_read_ignores_data (kind : BitVec 2) (w : Width) (addr data : Word) :
    decode (xlatWord kind false w addr data) = decode (xlatWord kind false w addr 0) := by
  simp [decode, decodeUnit, decodeXlat, xlatWord, decodeWidth_bytes]

section Access

/-! ### The host-backing access -/

variable {s : State} {addr v : Word} {w : Width}

theorem exec_hostRead_inBounds (hs : s.Live) (h : addr.toNat + w.bytes ≤ Config.machine.capacity) :
    exec (.hostRead addr w) s =
      .next (s.respond (.value (BitVec.ofNat 32 (Memory.getLE Config.machine.mem0 s.mem addr.toNat w.bytes)))) := by
  rw [exec_hostRead, liveOp_live hs, hostReadOp_ok h]
  rfl

theorem exec_hostRead_outOfBounds (hs : s.Live) (h : Config.machine.capacity < addr.toNat + w.bytes) :
    exec (.hostRead addr w) s = .next (s.raiseFatal (.oobAccess addr w false)) := by
  rw [exec_hostRead, liveOp_live hs, hostReadOp_error h]
  rfl

theorem exec_hostWrite_inBounds (hs : s.Live) (h : addr.toNat + w.bytes ≤ Config.machine.capacity) :
    exec (.hostWrite addr w v) s =
      .next { s with mem := Memory.putLE Config.machine.mem0 addr.toNat w.bytes v.toNat s.mem, resp := .ok } := by
  rw [exec_hostWrite, liveOp_live hs, hostWriteOp_ok h]
  rfl

theorem exec_hostWrite_outOfBounds (hs : s.Live) (h : Config.machine.capacity < addr.toNat + w.bytes) :
    exec (.hostWrite addr w v) s = .next (s.raiseFatal (.oobAccess addr w true)) := by
  rw [exec_hostWrite, liveOp_live hs, hostWriteOp_error h]
  rfl

/-! ### The three address kinds -/

/-- A read at any address kind runs as the host-backing read (20_memory.md R52). -/
theorem exec_read_eq_hostRead {i : Instr} (hi : i ∈ [Instr.memRead addr w, .linRead addr w, .hostRead addr w]) :
    exec i s = exec (.hostRead addr w) s := by
  obtain rfl | rfl | rfl : i = .memRead addr w ∨ i = .linRead addr w ∨ i = .hostRead addr w := by simpa using hi
  · simp only [exec_memRead, exec_hostRead, memReadOp_eq_host]
  · simp only [exec_linRead, exec_hostRead, linReadOp_eq_host]
  · rfl

/-- A write at any address kind runs as the host-backing write (20_memory.md R52). -/
theorem exec_write_eq_hostWrite {i : Instr}
    (hi : i ∈ [Instr.memWrite addr w v, .linWrite addr w v, .hostWrite addr w v]) :
    exec i s = exec (.hostWrite addr w v) s := by
  obtain rfl | rfl | rfl : i = .memWrite addr w v ∨ i = .linWrite addr w v ∨ i = .hostWrite addr w v := by
    simpa using hi
  · simp only [exec_memWrite, exec_hostWrite, memWriteOp_eq_host]
  · simp only [exec_linWrite, exec_hostWrite, linWriteOp_eq_host]
  · rfl

end Access

/-! ### The statements -/

/-- Settles O13, from the host-backing read in and out of bounds. -/
theorem readsDeliverTheLittleEndianValue : Obligations.ReadsDeliverTheLittleEndianValue := by
  intro s addr data w hs
  refine ⟨(decode_read_ignores_data ..).trans (EncodeDecode.memRead addr w rfl _ rfl),
    (decode_read_ignores_data ..).trans (EncodeDecode.linRead addr w rfl _ rfl),
    (decode_read_ignores_data ..).trans (EncodeDecode.hostRead addr w rfl _ rfl), fun i hi => ?_⟩
  rw [exec_read_eq_hostRead hi]
  refine ⟨fun hin => ?inBounds, fun hout => ?outOfBounds⟩
  case inBounds =>
    rw [exec_hostRead_inBounds hs hin, getLE_eq_sum_byteAt]
    rfl
  case outOfBounds => exact ⟨_, exec_hostRead_outOfBounds hs hout, State.raiseFatal_fatal _ _⟩

/-- Settles O14, from the host-backing write in and out of bounds. -/
theorem writesStoreTheLittleEndianBytes : Obligations.WritesStoreTheLittleEndianBytes := by
  intro s addr v w hs hm
  refine ⟨EncodeDecode.memWrite addr w v rfl _ rfl, EncodeDecode.linWrite addr w v rfl _ rfl,
    EncodeDecode.hostWrite addr w v rfl _ rfl, fun i hi => ?_⟩
  rw [exec_write_eq_hostWrite hi]
  refine ⟨fun hin => ?inBounds, fun hout => ?outOfBounds⟩
  case inBounds => exact ⟨_, exec_hostWrite_inBounds hs hin, get_putLE_word hm hin⟩
  case outOfBounds =>
    exact ⟨_, exec_hostWrite_outOfBounds hs hout, State.raiseFatal_fatal _ _, fun a => byteAt_raiseFatal _ _ _ a⟩

end Sys2Proof.Proofs
end

/-! The execution loop at its two ends: what a run request and the fault unwind leave, and that nothing but `CMD_RESET`
leads out of `ENDED` (41_execution_loop.md R117, R130). -/

namespace Sys2Proof.Proofs

open Sys2Proof.Machine

/-! ### What a shared operation does to the run state -/

section RunState

variable {s t : State} {f : State → State}

theorem hostOp_keeps_run (h : s.hostOp f = .next t) (hf : (f s).run = s.run) : t.run = s.run := by
  obtain ⟨-, -, rfl⟩ := hostOp_next_iff.1 h
  exact hf

theorem liveOp_keeps_run (h : s.liveOp f = .next t) (hf : (f s).run = s.run) : t.run = s.run := by
  obtain ⟨-, rfl⟩ := liveOp_next_iff.1 h
  exact hf

theorem loopOp_run (h : s.loopOp f = .next t) : s.run = .running := (loopOp_next_iff.1 h).2.1

/-- A run request while `ENDED` only reports (R117). -/
theorem runRequest_of_ended (P : Params) (n : Word) (hs : s.run = .ended) :
    s.runRequest P n = s.endRun P .cannotContinue := by
  simp [State.runRequest, hs]

theorem runRequest_run_of_ended (P : Params) (n : Word) (hs : s.run = .ended) : (s.runRequest P n).run = s.run := by
  rw [runRequest_of_ended P n hs, State.endRun_run]

@[simp] theorem deliverValue_run (r : Res Word) : (s.deliverValue r).run = s.run := by cases r <;> rfl

@[simp] theorem deliverDump_run (r : Except FatalCause (List Word)) : (s.deliverDump r).run = s.run := by
  cases r <;> rfl

@[simp] theorem deliverRead_run (r : Except FatalCause Word) : (s.deliverRead r).run = s.run := by cases r <;> rfl

@[simp] theorem deliverWrite_run (r : Except FatalCause Memory) : (s.deliverWrite r).run = s.run := by cases r <;> rfl

theorem settle_run {r : Res State} (h : ∀ u, r = .ok u → u.run = s.run) : (s.settle r).run = s.run := by
  cases r with
  | ok u => exact h u rfl
  | fail c => rfl
  | fatal c => rfl

@[simp] theorem settle_wpCreate_run (P : Params) (text : List Byte) : (s.settle (wpCreate P s text)).run = s.run := by
  refine settle_run fun u hu => ?_
  obtain ⟨k, rest, v, -, -, rfl⟩ := wpCreate_ok hu
  rfl

@[simp] theorem settle_wpDelete_run (id : Word) : (s.settle (wpDelete s id)).run = s.run := by
  refine settle_run fun u hu => ?_
  obtain ⟨k, -, -, rfl⟩ := wpDelete_ok hu
  rfl

end RunState

/-! ### No instruction but reset leaves `ENDED` -/

/-- An instruction step is not accepted, a run request only reports, and no other operation writes `run`. -/
theorem exec_keeps_ended {i : Instr} {s t : State} (hi : i ≠ .cmdReset) (h : exec i s = .next t)
    (hs : s.run = .ended) : t.run = .ended := by
  rw [← hs]
  cases i with
  | cmdReset => exact absurd rfl hi
  | cmdContinue | cmdStep =>
    simp only [exec_cmdContinue, exec_cmdStep] at h
    exact hostOp_keeps_run h (runRequest_run_of_ended _ _ hs)
  | cmdPrint | cmdExamine =>
    simp only [exec_cmdPrint, exec_cmdExamine] at h
    exact hostOp_keeps_run h (by simp)
  | cmdWatch | cmdDelete =>
    simp only [exec_cmdWatch, exec_cmdDelete] at h
    exact hostOp_keeps_run h (by simp)
  | cmdInfoRegisters | cmdInfoWatchpoints | cmdQuit | cmdReserved =>
    simp only [exec_cmdInfoRegisters, exec_cmdInfoWatchpoints, exec_cmdQuit, exec_cmdReserved] at h
    exact hostOp_keeps_run h rfl
  | cmdRegRead sel | cmdRegWrite sel =>
    simp only [exec_cmdRegRead, exec_cmdRegWrite] at h
    exact hostOp_keeps_run h (by cases selectorView sel <;> simp)
  | cmdMemRead addr n =>
    rw [exec_cmdMemRead] at h
    exact hostOp_keeps_run h (by cases widthOfCount n <;> simp)
  | cmdStopReq =>
    rw [exec_cmdStopReq] at h
    exact liveOp_keeps_run h (by simp only [hs])
  | tWs | tEq | tNe | tAnd | tOr | tNot | tPlus | tMinus | tStar | tSlash | tLparen | tRparen | tHex | tDec | tReg =>
    simp only [exec_tWs, exec_tEq, exec_tNe, exec_tAnd, exec_tOr, exec_tNot, exec_tPlus, exec_tMinus, exec_tStar,
      exec_tSlash, exec_tLparen, exec_tRparen, exec_tHex, exec_tDec, exec_tReg] at h
    exact liveOp_keeps_run h rfl
  | xopNot | xopNeg | xopMul | xopAdd | xopSub | xopEq | xopNe | xopAnd | xopOr | operandNum | operandHex =>
    simp only [exec_xopNot, exec_xopNeg, exec_xopMul, exec_xopAdd, exec_xopSub, exec_xopEq, exec_xopNe, exec_xopAnd,
      exec_xopOr, exec_operandNum, exec_operandHex] at h
    exact liveOp_keeps_run h rfl
  | xopDeref | xopDiv | operandReg =>
    simp only [exec_xopDeref, exec_xopDiv, exec_operandReg] at h
    exact liveOp_keeps_run h (deliverValue_run _)
  | memRead | linRead | hostRead =>
    simp only [exec_memRead, exec_linRead, exec_hostRead] at h
    exact liveOp_keeps_run h (deliverRead_run _)
  | memWrite | linWrite | hostWrite =>
    simp only [exec_memWrite, exec_linWrite, exec_hostWrite] at h
    exact liveOp_keeps_run h (deliverWrite_run _)
  | insnOrdinary | insnBpTrap | insnFaulting =>
    simp only [exec_insnOrdinary, exec_insnBpTrap, exec_insnFaulting] at h
    cases hs.symm.trans (loopOp_run h)

/-! ### No request at a unit's port is a reset -/

theorem ite_ne {α : Type} {p : Prop} [Decidable p] {a b c : α} (ha : a ≠ c) (hb : b ≠ c) :
    (if p then a else b) ≠ c := by
  split <;> assumption

theorem matchFixed_instr {pat bs rest : List Byte} {i j : Instr} (h : matchFixed pat i bs = some (j, rest)) :
    j = i := by
  unfold matchFixed at h
  split at h
  · cases h; rfl
  · cases h

theorem matchRun_instr {p : Byte → Bool} {mk : List Byte → Instr} {bs rest : List Byte} {j : Instr}
    (h : matchRun p mk bs = some (j, rest)) : ∃ run, j = mk run := by
  unfold matchRun at h
  split at h
  · cases h
  · cases h; exact ⟨_, rfl⟩

/-- Every token rule reads its own token, so none reads a reset. -/
theorem tokenRule_ne_cmdReset {bs rest : List Byte} :
    ∀ rule ∈ tokenRules, rule bs ≠ some (.cmdReset, rest) := by
  have hfixed : ∀ {pat i}, i ≠ .cmdReset → matchFixed pat i bs ≠ some (.cmdReset, rest) := fun hi h =>
    hi (matchFixed_instr h).symm
  have hrun : ∀ {p mk l}, (∀ run, mk run ≠ .cmdReset) → matchRun p mk l ≠ some (.cmdReset, rest) :=
    fun hmk h => (matchRun_instr h).elim fun run hr => hmk run hr.symm
  simp only [tokenRules, List.forall_mem_cons, List.not_mem_nil, IsEmpty.forall_iff, implies_true, and_true,
    matchWs, matchEq, matchNe, matchAnd, matchOr, matchNot, matchPlus, matchMinus, matchStar, matchSlash,
    matchLparen, matchRparen, matchHex, matchDec, matchReg]
  exact ⟨hrun nofun, hfixed nofun, hfixed nofun, hfixed nofun, hfixed nofun, hfixed nofun, hfixed nofun, hfixed nofun,
    hfixed nofun, hfixed nofun, hfixed nofun, hfixed nofun, ite_ne (hrun nofun) nofun, hrun nofun,
    ite_ne (hrun nofun) nofun⟩

theorem decodeToken_ne_cmdReset (bs rest : List Byte) : decodeToken bs ≠ some (.cmdReset, rest) := fun h =>
  have ⟨rule, hmem, hrule⟩ := List.exists_of_findSome?_eq_some h
  tokenRule_ne_cmdReset rule hmem hrule

theorem decodeXlat_ne_cmdReset (r : XlatRecord) : decodeXlat r ≠ .ok .cmdReset := by
  have haccess : ∀ {i j : Instr}, i ≠ .cmdReset → j ≠ .cmdReset →
      (.ok (if r.isWrite then i else j) : Except Reject Instr) ≠ .ok .cmdReset := fun hi hj h =>
    ite_ne hi hj (Except.ok.inj h)
  unfold decodeXlat
  cases decodeWidth r.width with
  | none => nofun
  | some w =>
    exact ite_ne (haccess nofun nofun) (ite_ne (haccess nofun nofun) (ite_ne (haccess nofun nofun) nofun))

theorem decodeXop_ne_cmdReset (r : XopRecord) : decodeXop r ≠ .ok .cmdReset := by
  unfold decodeXop
  repeat' apply ite_ne
  all_goals nofun

/-- A unit's request is a translator access, an operator or operand, or a token. -/
theorem decodeUnit_ne_cmdReset (u : UnitRequest) : decodeUnit u ≠ .ok .cmdReset := by
  cases u with
  | xlat r => exact decodeXlat_ne_cmdReset r
  | xop r => exact decodeXop_ne_cmdReset r
  | text bs =>
    intro h
    rw [decodeUnit] at h
    split at h
    case h_1 i rest hdec =>
      cases h
      exact decodeToken_ne_cmdReset _ _ hdec
    case h_2 => cases h

/-! ### What the block does next while `ENDED` -/

section Loop

variable {s t : State}

theorem nextWork_of_unitReq {P : Params} {u : UnitRequest} (hf : s.fatal = none) (hu : s.unitReq = some u) :
    nextWork P s = unitWork s u := by
  simp [nextWork, hf, hu]

theorem nextWork_of_ended {P : Params} (hf : s.fatal = none) (hu : s.unitReq = none) (hs : s.run = .ended) :
    nextWork P s = hostWork s := by
  simp [nextWork, hf, hu, hs]

theorem unitWork_keeps_ended {u : UnitRequest} (hs : s.run = .ended) (h : (unitWork s u).perform = .next t) :
    t.run = .ended := by
  unfold unitWork at h
  split at h
  case h_1 i hdec =>
    have hi : i ≠ .cmdReset := by
      rintro rfl
      exact decodeUnit_ne_cmdReset u hdec
    exact exec_keeps_ended hi h hs
  case h_2 =>
    cases h
    exact hs
  case h_3 => cases h

theorem hostWork_leaves_ended_only_by_reset (hs : s.run = .ended) (h : (hostWork s).perform = .next t)
    (ht : t.run ≠ .ended) : ∃ r rest, s.inputs = .command r :: rest ∧ r.op = 0x0E := by
  unfold hostWork at h
  split at h
  case h_1 r rest hin =>
    refine ⟨r, rest, hin, (decodeCommand_eq_reset_iff r).1 ?_⟩
    by_contra hr
    exact ht (exec_keeps_ended hr h hs)
  case h_2 =>
    cases h
    exact absurd hs ht
  case h_3 =>
    cases h
    exact absurd hs ht

/-! ### The instruction at `pc` -/

/-- `Exec` looks at nothing but the registers, `pc`, the flags and the memory (R118). -/
theorem fetchInsn_congr (P : Params) (hregs : t.regs = s.regs) (hpc : t.pc = s.pc) (hfl : t.fl = s.fl)
    (hmem : t.mem = s.mem) : fetchInsn P t = fetchInsn P s := by
  simp only [fetchInsn, execTable, hregs, hpc, hfl, hmem]

end Loop

/-! ### The statements -/

/-- Settles O31, from what a run request does while `ENDED` and from what each kind of work can leave it by. -/
theorem endedOnlyReportsAndIsLeftOnlyByReset : Obligations.EndedOnlyReportsAndIsLeftOnlyByReset := by
  refine ⟨fun s n hlive hs i hi => ?report, fun s t hlive hs hstep ht => ?left⟩
  case report =>
    have hacc : s.run ≠ .running := by simp [hs]
    have hrun : ∃ m, exec i s = s.hostOp (State.runRequest Config.machine m) := by
      obtain rfl | rfl : i = .cmdContinue ∨ i = .cmdStep n := by simpa using hi
      · exact ⟨_, exec_cmdContinue s⟩
      · exact ⟨_, exec_cmdStep n s⟩
    obtain ⟨m, hexec⟩ := hrun
    rw [hexec, hostOp_live hlive hacc, runRequest_of_ended _ _ hs]
    exact ⟨_, _, _, _, rfl⟩
  case left =>
    cases hu : s.unitReq with
    | none =>
      rw [step, nextWork_of_ended hlive hu hs] at hstep
      exact ⟨rfl, hostWork_leaves_ended_only_by_reset hs hstep ht⟩
    | some u =>
      rw [step, nextWork_of_unitReq hlive hu] at hstep
      exact absurd (unitWork_keeps_ended hs hstep) ht

/-- Settles O54: the unwind writes nothing that `Exec` looks at. -/
theorem faultUnwindIsPrecise : Obligations.FaultUnwindIsPrecise := by
  rintro s ⟨hlive, hrun⟩
  have hexec : exec .insnFaulting s = .next (s.unwindFault Config.machine) := by
    rw [exec_insnFaulting, loopOp_live hlive hrun]
  refine ⟨s.budget, _, _, _, _, hexec, fun t ht => ?_⟩
  obtain rfl : s.unwindFault Config.machine = t := by simpa [hexec] using ht
  exact fetchInsn_congr _ (State.unwindFault_regs s _) (State.unwindFault_pc s _) (State.unwindFault_fl s _)
    (State.unwindFault_mem s _)

end Sys2Proof.Proofs

/-! The tokenizer's post-pass index by index (spec 42_expression_tokenizer.md R163): the pass carries one bit along the
list, and that bit at an index is a fact about the token before it. -/

namespace Sys2Proof.Proofs

open Sys2Proof.Machine

/-! ### Kinds -/

theorem endsOperand_iff (k : TokenKind) : endsOperand k = true ↔ k ∈ [TokenKind.rparen, .num, .hex, .reg] := by
  cases k <;> decide

theorem unaryKind_eq_self {k : TokenKind} (hsub : k ≠ .sub) (hmul : k ≠ .mul) : unaryKind k = k := by
  cases k
  case sub => exact absurd rfl hsub
  case mul => exact absurd rfl hmul
  all_goals rfl

/-! ### The pass at one index -/

/-- The bit `reclassifyFrom b ts` holds at an index: `b` itself at the start, else whether the token before it ends an
operand. -/
def operandBefore (b : Bool) (ts : List Token) : Nat → Bool
  | 0 => b
  | i + 1 => ts[i]?.any fun p => endsOperand p.kind

theorem operandBefore_cons_succ (b : Bool) (t : Token) (ts : List Token) (i : Nat) :
    operandBefore b (t :: ts) (i + 1) = operandBefore (endsOperand t.kind) ts i := by
  cases i <;> rfl

theorem reclassifyFrom_getElem? (b : Bool) (ts : List Token) (i : Nat) :
    (reclassifyFrom b ts)[i]? =
      ts[i]?.map fun t => if operandBefore b ts i then t else { t with kind := unaryKind t.kind } := by
  induction ts generalizing b i with
  | nil => rfl
  | cons t ts ih =>
    cases i with
    | zero => rfl
    | succ i =>
      rw [operandBefore_cons_succ]
      exact ih (endsOperand t.kind) i

@[simp] theorem length_reclassifyFrom (b : Bool) (ts : List Token) : (reclassifyFrom b ts).length = ts.length := by
  induction ts generalizing b with
  | nil => rfl
  | cons t ts ih => exact congrArg (· + 1) (ih _)

/-- R163's two unary places, at an index of the list, are where the bit is off. -/
theorem operandBefore_eq_false_iff {ts : List Token} {i : Nat} (hi : i < ts.length) :
    operandBefore false ts i = false ↔
      i = 0 ∨ ∃ p, ts[i - 1]? = some p ∧ p.kind ∉ [TokenKind.rparen, .num, .hex, .reg] := by
  cases i with
  | zero => simp [operandBefore]
  | succ i =>
    have hprev : ts[i]? = some ts[i] := List.getElem?_eq_getElem _
    simp only [← endsOperand_iff]
    simp [operandBefore, hprev]

/-! ### The statement -/

/-- Settles O34, from the pass at one index and what its bit says there. -/
theorem reclassifyLooksAtThePreviousToken : Obligations.ReclassifyLooksAtThePreviousToken := by
  refine fun ts => ⟨length_reclassifyFrom false ts, fun i t hti => ?_⟩
  have hi : i < ts.length := (List.getElem?_eq_some_iff.1 hti).1
  have hget : (reclassify ts)[i]? =
      some (if operandBefore false ts i then t else { t with kind := unaryKind t.kind }) := by
    rw [reclassify, reclassifyFrom_getElem?, hti, Option.map_some]
  simp only [hget, ← operandBefore_eq_false_iff hi]
  refine ⟨fun hplace hk => ?sub, fun hplace hk => ?mul, fun hplace => ?binary, fun hsub hmul => ?other⟩
  case sub => simp [hplace, hk, unaryKind]
  case mul => simp [hplace, hk, unaryKind]
  case binary => simp [hplace]
  case other => rw [unaryKind_eq_self hsub hmul, ite_self]

end Sys2Proof.Proofs

/-! `Eval` as its own recursion (spec 43_expression_evaluator.md R171): the model counts the recursion with a fuel, every
range it goes on with is shorter (R195), so a fuel above a range's length never shows, and `evalTokens` recurs through
itself. -/

namespace Sys2Proof.Proofs

open Sys2Proof.Machine

section Eval

variable {P : Params} {s : State} {ts : List Token} {f g : List Token → Res Word}

/-! ### One unfolding of `Eval` -/

/-- R171 on a range of two tokens or more, given how the ranges inside it are evaluated. -/
def evalSplit (P : Params) (s : State) (f : List Token → Res Word) (ts : List Token) : Res Word :=
  match parenCheck ts with
  | .bad => .fail .eParen
  | .wrapped => f ts.tail.dropLast
  | .openRange =>
    match dominant ts with
    | none => .fail .eInvalid
    | some op => applyAt P s.mem f ts op

theorem evalSplit_bad (h : parenCheck ts = .bad) : evalSplit P s f ts = .fail .eParen := by
  simp only [evalSplit, h]

theorem evalSplit_wrapped (h : parenCheck ts = .wrapped) : evalSplit P s f ts = f ts.tail.dropLast := by
  simp only [evalSplit, h]

theorem evalSplit_noOperator (h : parenCheck ts = .openRange) (hd : dominant ts = none) :
    evalSplit P s f ts = .fail .eInvalid := by
  simp only [evalSplit, h, hd]

theorem evalSplit_operator {op : Nat} (h : parenCheck ts = .openRange) (hd : dominant ts = some op) :
    evalSplit P s f ts = applyAt P s.mem f ts op := by
  simp only [evalSplit, h, hd]

theorem evalRange_succ_eq_evalSplit (n : Nat) (h : 2 ≤ ts.length) :
    evalRange P s (n + 1) ts = evalSplit P s (evalRange P s n) ts := by
  match ts, h with
  | _ :: _ :: _, _ => rfl

/-! ### The recursion goes on with shorter ranges only -/

/-- The operands of the operator at an index of the range are shorter than the range. -/
theorem applyAt_congr (m : Memory) (op : Nat) (hfg : ∀ us : List Token, us.length < ts.length → f us = g us) :
    applyAt P m f ts op = applyAt P m g ts op := by
  unfold applyAt
  cases hop : ts[op]? with
  | none => rfl
  | some t =>
    have hlt : op < ts.length := (List.getElem?_eq_some_iff.1 hop).1
    have hunary : f (ts.drop 1) = g (ts.drop 1) := hfg _ (by rw [List.length_drop]; omega)
    have hleft : f (ts.take op) = g (ts.take op) := hfg _ (by rw [List.length_take]; omega)
    have hright : f (ts.drop (op + 1)) = g (ts.drop (op + 1)) := hfg _ (by rw [List.length_drop]; omega)
    simp only [hunary, hleft, hright]

theorem evalSplit_congr (h : 2 ≤ ts.length) (hfg : ∀ us : List Token, us.length < ts.length → f us = g us) :
    evalSplit P s f ts = evalSplit P s g ts := by
  cases hp : parenCheck ts with
  | bad => rw [evalSplit_bad hp, evalSplit_bad hp]
  | wrapped =>
    have hinner : ts.tail.dropLast.length < ts.length := by
      rw [List.length_dropLast, List.length_tail]
      omega
    rw [evalSplit_wrapped hp, evalSplit_wrapped hp, hfg _ hinner]
  | openRange =>
    cases hd : dominant ts with
    | none => rw [evalSplit_noOperator hp hd, evalSplit_noOperator hp hd]
    | some op => rw [evalSplit_operator hp hd, evalSplit_operator hp hd, applyAt_congr s.mem op hfg]

/-! ### The fuel does not matter -/

theorem evalRange_fuel_irrelevant {n k : Nat} (hn : ts.length < n) (hk : ts.length < k) :
    evalRange P s n ts = evalRange P s k ts := by
  induction n generalizing k ts with
  | zero => exact absurd hn (Nat.not_lt_zero _)
  | succ n ih =>
    obtain ⟨k, rfl⟩ : ∃ j, k = j + 1 := Nat.exists_eq_add_one_of_ne_zero (Nat.ne_zero_of_lt hk)
    match ts, hn, hk with
    | [], _, _ => rfl
    | [_], _, _ => rfl
    | t :: u :: us, hn, hk =>
      have hlong : 2 ≤ (t :: u :: us).length := by simp
      rw [evalRange_succ_eq_evalSplit n hlong, evalRange_succ_eq_evalSplit k hlong]
      exact evalSplit_congr hlong fun vs hvs => ih (by omega) (by omega)

theorem evalRange_eq_evalTokens {n : Nat} (hn : ts.length < n) : evalRange P s n ts = evalTokens P s ts :=
  evalRange_fuel_irrelevant hn (Nat.lt_succ_self _)

/-! ### `Eval` on each shape of range -/

@[simp] theorem evalTokens_nil (P : Params) (s : State) : evalTokens P s [] = .fail .eEmptyOperand := rfl

@[simp] theorem evalTokens_singleton (P : Params) (s : State) (t : Token) :
    evalTokens P s [t] = operandValue s t := rfl

/-- R171's recursion on a longer range, through `evalTokens` itself. -/
theorem evalTokens_eq_evalSplit (h : 2 ≤ ts.length) : evalTokens P s ts = evalSplit P s (evalTokens P s) ts := by
  rw [evalTokens, evalRange_succ_eq_evalSplit _ h]
  exact evalSplit_congr h fun _ hus => evalRange_eq_evalTokens hus

end Eval

/-! ### The statement -/

/-- Settles O41, from the two short ranges and the recursion on a longer one. -/
theorem evalFollowsItsRecursion : Obligations.EvalFollowsItsRecursion := by
  refine fun P s => ⟨evalTokens_nil P s, evalTokens_singleton P s, fun ts hlong => ?_⟩
  rw [evalTokens_eq_evalSplit hlong]
  exact ⟨evalSplit_bad, evalSplit_wrapped, evalSplit_noOperator, fun _ => evalSplit_operator⟩

end Sys2Proof.Proofs

/-! The Watchpoint Manager (spec 44_watchpoint_manager.md): a scan is the first verdict along the active list (R216), each
outcome of a creation and of a deletion has its own condition on the pool and the evaluation (R211, R213), and the listing
is a view of the stored records (R219). -/

namespace Sys2Proof.Proofs

open Sys2Proof.Machine

/-! ### The scan -/

section Scan

variable {P : Params} {s : State} {k : Fin 32} {old new : Word} {c : FatalCause} {r : ScanResult}

/-- What one record makes of a scan that reaches it: nothing where it is passed over, else the scan's result. -/
def verdict (P : Params) (s : State) (k : Fin 32) : Option ScanResult :=
  match evaluate P s (s.slots[k]).expr with
  | .fatal c => some (.fatal c)
  | .fail _ => none
  | .ok v => if v = (s.slots[k]).last then none else some (.fired k (s.slots[k]).last v)

theorem verdict_of_ok {v : Word} (h : evaluate P s (s.slots[k]).expr = .ok v) :
    verdict P s k = if v = (s.slots[k]).last then none else some (.fired k (s.slots[k]).last v) := by
  simp only [verdict, h]

theorem verdict_of_fail {e : FailCode} (h : evaluate P s (s.slots[k]).expr = .fail e) : verdict P s k = none := by
  simp only [verdict, h]

theorem verdict_of_fatal (h : evaluate P s (s.slots[k]).expr = .fatal c) : verdict P s k = some (.fatal c) := by
  simp only [verdict, h]

theorem verdict_eq_none_iff :
    verdict P s k = none ↔
      (∃ e, evaluate P s (s.slots[k]).expr = .fail e) ∨ evaluate P s (s.slots[k]).expr = .ok (s.slots[k]).last := by
  cases he : evaluate P s (s.slots[k]).expr with
  | ok v => simp [verdict_of_ok he]
  | fail e => simp [verdict_of_fail he]
  | fatal c => simp [verdict_of_fatal he]

theorem verdict_eq_fired_iff {j : Fin 32} :
    verdict P s j = some (.fired k old new) ↔
      j = k ∧ evaluate P s (s.slots[k]).expr = .ok new ∧ new ≠ (s.slots[k]).last ∧ old = (s.slots[k]).last := by
  cases he : evaluate P s (s.slots[j]).expr with
  | ok v =>
    rw [verdict_of_ok he]
    constructor
    · intro h
      split at h
      · cases h
      · cases h
        exact ⟨rfl, he, ‹_›, rfl⟩
    · rintro ⟨rfl, hv, hne, rfl⟩
      cases he.symm.trans hv
      exact if_neg hne
  | fail e =>
    simp only [verdict_of_fail he, reduceCtorEq, false_iff]
    rintro ⟨rfl, hv, -⟩
    cases he.symm.trans hv
  | fatal c =>
    simp only [verdict_of_fatal he, Option.some.injEq, reduceCtorEq, false_iff]
    rintro ⟨rfl, hv, -⟩
    cases he.symm.trans hv

theorem verdict_eq_fatal_iff : verdict P s k = some (.fatal c) ↔ evaluate P s (s.slots[k]).expr = .fatal c := by
  cases he : evaluate P s (s.slots[k]).expr with
  | ok v =>
    rw [verdict_of_ok he]
    split <;> simp
  | fail e => simp [verdict_of_fail he]
  | fatal c => simp [verdict_of_fatal he]

theorem verdict_ne_quiet : verdict P s k ≠ some .quiet := by
  cases he : evaluate P s (s.slots[k]).expr with
  | ok v =>
    rw [verdict_of_ok he]
    split <;> simp
  | fail e => simp [verdict_of_fail he]
  | fatal c => simp [verdict_of_fatal he]

theorem scanFrom_cons (P : Params) (s : State) (k : Fin 32) (ks : List (Fin 32)) :
    scanFrom P s (k :: ks) = (verdict P s k).getD (scanFrom P s ks) := by
  rw [scanFrom]
  cases he : evaluate P s (s.slots[k]).expr with
  | ok v =>
    rw [verdict_of_ok he]
    by_cases hv : v = (s.slots[k]).last
    · simp only [if_pos hv, if_neg (not_not_intro hv), Option.getD_none]
    · simp only [if_neg hv, if_pos hv, Option.getD_some]
  | fail e => rw [verdict_of_fail he, Option.getD_none]
  | fatal c => rw [verdict_of_fatal he, Option.getD_some]

/-- The loop of `Scan` stops at the first record that has a verdict (R216, R217). -/
theorem scanFrom_eq_findSome? (P : Params) (s : State) (ks : List (Fin 32)) :
    scanFrom P s ks = (ks.findSome? (verdict P s)).getD .quiet := by
  induction ks with
  | nil => rfl
  | cons k ks ih =>
    rw [scanFrom_cons, ih, List.findSome?_cons]
    cases verdict P s k <;> rfl

theorem scan_eq_quiet_iff : scan P s = .quiet ↔ ∀ k ∈ s.active, verdict P s k = none := by
  rw [scan, scanFrom_eq_findSome?, ← List.findSome?_eq_none_iff]
  cases hf : s.active.findSome? (verdict P s) with
  | none => simp
  | some r =>
    obtain ⟨k, -, hk⟩ := List.exists_of_findSome?_eq_some hf
    have hr : r ≠ .quiet := by
      rintro rfl
      exact verdict_ne_quiet hk
    simpa using hr

theorem scan_eq_iff_of_ne_quiet (hr : r ≠ .quiet) :
    scan P s = r ↔ ∃ before k after, s.active = before ++ k :: after ∧ (∀ j ∈ before, verdict P s j = none) ∧
      verdict P s k = some r := by
  have hfind : scan P s = r ↔ s.active.findSome? (verdict P s) = some r := by
    rw [scan, scanFrom_eq_findSome?]
    cases s.active.findSome? (verdict P s) with
    | none => simp [hr.symm]
    | some q => simp
  rw [hfind, List.findSome?_eq_some_iff]
  simp only [and_comm (a := verdict P s _ = some r)]

@[simp] theorem closeStep_slots (P : Params) (q : Option HaltReq) (s : State) :
    (s.closeStep P q).slots = s.slots := by
  unfold State.closeStep
  split <;> rfl

end Scan

/-! ### Creation and deletion -/

section Pool

variable {P : Params} {s : State} {text : List Byte} {id : Word} {k : Fin 32} {rest : List (Fin 32)}

theorem wpCreate_of_exhausted (P : Params) (text : List Byte) (h : s.free = []) :
    wpCreate P s text = .fail .wPoolFull := by
  simp [wpCreate, h]

theorem wpCreate_of_ok {v : Word} (h : s.free = k :: rest) (he : evaluate P s text = .ok v) :
    wpCreate P s text =
      .ok (({ s with free := rest, active := k :: s.active }.fillSlot k text v).respond (.value (slotWord k))) := by
  simp [wpCreate, h, he, allocSlot]

theorem wpCreate_of_fail {c : FailCode} (h : s.free = k :: rest) (he : evaluate P s text = .fail c) :
    wpCreate P s text = .fail c := by
  simp [wpCreate, h, he]

theorem wpCreate_of_fatal {c : FatalCause} (h : s.free = k :: rest) (he : evaluate P s text = .fatal c) :
    wpCreate P s text = .fatal c := by
  simp [wpCreate, h, he]

theorem wpDelete_of_empty (id : Word) (h : s.active = []) : wpDelete s id = .fatal .poolDeleteEmpty := by
  simp [wpDelete, h]

theorem wpDelete_of_not_found (h : s.active ≠ []) (hid : ∀ k ∈ s.active, k.val ≠ id.toNat) :
    wpDelete s id = .fail .wNotFound := by
  have hfind : s.active.find? (fun k => k.val == id.toNat) = none :=
    List.find?_eq_none.2 fun k hk => by simpa using hid k hk
  simp [wpDelete, h, hfind]

/-- At most one slot carries an id, so the search finds the one it is after. -/
theorem find?_slot_eq_some (hk : k ∈ s.active) (hid : k.val = id.toNat) :
    s.active.find? (fun j => j.val == id.toNat) = some k := by
  cases hfind : s.active.find? (fun j => j.val == id.toNat) with
  | none => simpa [hid] using List.find?_eq_none.1 hfind k hk
  | some j =>
    have hj : j.val = id.toNat := by simpa using List.find?_some hfind
    rw [Fin.ext (hj.trans hid.symm)]

theorem wpDelete_of_mem (hk : k ∈ s.active) (hid : k.val = id.toNat) :
    wpDelete s id = .ok (State.respond .ok
      { s with active := s.active.filter (fun j => decide (j ≠ k)), free := k :: s.free }) := by
  have hothers : (fun j => decide (j ≠ k)) = fun j => j != k := by
    funext j
    rw [bne, beq_eq_decide, decide_not]
  rw [wpDelete, if_neg (by simpa using List.ne_nil_of_mem hk), find?_slot_eq_some hk hid, hothers]

theorem hostOp_of_accepts {f : State → State} (hs : s.Accepts) : s.hostOp f = .next (f s) :=
  have ⟨hlive, hrun⟩ := hs
  hostOp_live hlive hrun

theorem exec_cmdWatch_of_accepts (hs : s.Accepts) (text : List Byte) :
    exec (.cmdWatch text) s = .next (s.settle (wpCreate Config.machine s text)) := by
  rw [exec_cmdWatch, hostOp_of_accepts hs]

theorem exec_cmdDelete_of_accepts (hs : s.Accepts) (id : Word) :
    exec (.cmdDelete id) s = .next (s.settle (wpDelete s id)) := by
  rw [exec_cmdDelete, hostOp_of_accepts hs]

end Pool

/-! ### The statements -/

/-- Settles O49, from the scan as the first verdict along the active list. -/
theorem scanReportsTheFirstChangedRecord : Obligations.ScanReportsTheFirstChangedRecord := by
  intro P s passed
  have hpassed : ∀ k, verdict P s k = none ↔ passed k := fun _ => verdict_eq_none_iff
  refine ⟨?quiet, fun k old new => ?fired, fun c => ?fatal, fun q => ⟨fun h => ?kept, fun k old new h => ?stored⟩⟩
  case quiet => simp only [scan_eq_quiet_iff, hpassed]
  case fired =>
    simp only [scan_eq_iff_of_ne_quiet (r := .fired k old new) nofun, hpassed, verdict_eq_fired_iff]
    constructor
    · rintro ⟨before, _, after, hsplit, hbefore, rfl, hfired⟩
      exact ⟨before, after, hsplit, hbefore, hfired⟩
    · rintro ⟨before, after, hsplit, hbefore, hfired⟩
      exact ⟨before, k, after, hsplit, hbefore, rfl, hfired⟩
  case fatal =>
    simp only [scan_eq_iff_of_ne_quiet (r := .fatal c) nofun, hpassed, verdict_eq_fatal_iff]
  case kept =>
    rw [h]
    exact closeStep_slots P q s
  case stored =>
    rw [h]
    exact State.fire_slots s k old new

/-- Settles O22, one outcome of the creation at a time. -/
theorem watchTakesTheHeadOfTheFreeList : Obligations.WatchTakesTheHeadOfTheFreeList := by
  refine fun s text a b hs => ⟨rfl, fun hfree => ?exhausted, fun k rest hfree =>
    ⟨fun v he => ?created, fun c he => ?failed, fun c he => ?dead⟩⟩
  all_goals rw [exec_cmdWatch_of_accepts hs]
  case exhausted =>
    rw [wpCreate_of_exhausted _ _ hfree]
    rfl
  case created =>
    rw [wpCreate_of_ok hfree he]
    rfl
  case failed =>
    rw [wpCreate_of_fail hfree he]
    rfl
  case dead =>
    rw [wpCreate_of_fatal hfree he]
    exact ⟨_, rfl, State.raiseFatal_fatal s c⟩

/-- Settles O23, one outcome of the deletion at a time. -/
theorem deleteReturnsTheSlotToTheFreeList : Obligations.DeleteReturnsTheSlotToTheFreeList := by
  refine fun s id b text hs => ⟨rfl, fun hempty => ?dead, fun hactive hid => ?notFound, fun k hk hid => ?deleted⟩
  all_goals rw [exec_cmdDelete_of_accepts hs]
  case dead =>
    rw [wpDelete_of_empty _ hempty]
    exact ⟨_, rfl, State.raiseFatal_fatal s _⟩
  case notFound =>
    rw [wpDelete_of_not_found hactive hid]
    rfl
  case deleted =>
    rw [wpDelete_of_mem hk hid]
    rfl

/-- Settles O24: the listing is a map over the active list, and delivering it writes the response alone. -/
theorem listingShowsTheActiveRecordsInOrder : Obligations.ListingShowsTheActiveRecordsInOrder := by
  intro s a b text hs
  refine ⟨rfl, ?_⟩
  rw [exec_cmdInfoWatchpoints, hostOp_of_accepts hs]
  rfl

end Sys2Proof.Proofs

/-! The host commands that look at the block and leave it as it is (spec 45_host_commands.md): `CMD_PRINT` hands over what
the evaluation delivers (R233), and `CMD_MEM_READ` is the translator's program-address read of the width its byte count
names (R239). -/

namespace Sys2Proof.Proofs

open Sys2Proof.Machine Sys2Proof.Laws

section HostCommands

variable {s : State} {addr n : Word} {w : Width}

theorem exec_cmdPrint_of_accepts (hs : s.Accepts) (text : List Byte) :
    exec (.cmdPrint text) s = .next (s.deliverValue (evaluate Config.machine s text)) := by
  rw [exec_cmdPrint, hostOp_of_accepts hs]

/-! ### The byte count of a memory read -/

theorem toNat_eq_bytes_iff : n.toNat = w.bytes ↔ n = BitVec.ofNat 32 w.bytes := by
  rw [← BitVec.toNat_inj]
  cases w <;> rfl

/-- A count names a width exactly when it is the width's number of bytes (R239). -/
theorem widthOfCount_eq_some_iff : widthOfCount n = some w ↔ n.toNat = w.bytes := by
  rw [toNat_eq_bytes_iff]
  constructor
  · intro h
    unfold widthOfCount at h
    split_ifs at h with hone htwo hfour
    · cases h; exact hone
    · cases h; exact htwo
    · cases h; exact hfour
  · rintro rfl
    cases w <;> rfl

theorem widthOfCount_eq_none_iff : widthOfCount n = none ↔ ∀ w : Width, n.toNat ≠ w.bytes := by
  simp only [Option.eq_none_iff_forall_ne_some, ne_eq, widthOfCount_eq_some_iff]

/-! ### A memory read as a translator read -/

theorem exec_cmdMemRead_eq_memRead (hs : s.Accepts) (hn : n.toNat = w.bytes) :
    exec (.cmdMemRead addr n) s = exec (.memRead addr w) s := by
  have ⟨hlive, _⟩ := hs
  rw [exec_cmdMemRead, hostOp_of_accepts hs, widthOfCount_eq_some_iff.2 hn, exec_memRead, liveOp_live hlive]

theorem exec_cmdMemRead_of_no_width (hs : s.Accepts) (hn : ∀ w : Width, n.toNat ≠ w.bytes) :
    exec (.cmdMemRead addr n) s = .next (s.raiseFail .eBadCommand) := by
  rw [exec_cmdMemRead, hostOp_of_accepts hs, widthOfCount_eq_none_iff.2 hn]

end HostCommands

/-! ### The statements -/

/-- Settles O20, one outcome of the evaluation at a time. -/
theorem printDeliversTheEvaluation : Obligations.PrintDeliversTheEvaluation := by
  refine fun s text a b hs => ⟨rfl, fun v he => ?value, fun c he => ?failed, fun c he => ?dead⟩
  all_goals rw [exec_cmdPrint_of_accepts hs, he]
  case value => rfl
  case failed => rfl
  case dead => exact ⟨_, rfl, State.raiseFatal_fatal s c⟩

/-- Settles O26, from O13's account of the program-address read. -/
theorem memReadDeliversOneAccess : Obligations.MemReadDeliversOneAccess := by
  refine fun s addr n text hs => ⟨rfl, fun w hn => ?access, fun hn => ?noWidth⟩
  case access =>
    have ⟨hlive, _⟩ := hs
    obtain ⟨-, -, -, hread⟩ := readsDeliverTheLittleEndianValue s addr 0 w hlive
    rw [exec_cmdMemRead_eq_memRead hs hn]
    exact hread (.memRead addr w) List.mem_cons_self
  case noWidth =>
    rw [exec_cmdMemRead_of_no_width hs hn]
    rfl

end Sys2Proof.Proofs

/-! `ParenCheck` and `Dominant` by the depth after each token (spec 43_expression_evaluator.md R172, R175): each loop carries the
depth of the tokens it has passed, and with it a fact about all of them, so its result is that fact about the range. -/

namespace Sys2Proof.Proofs

open Sys2Proof.Machine

/-! ### Depth -/

@[simp] theorem nesting_nil : nesting [] = 0 := rfl

@[simp] theorem nesting_cons (t : Token) (ts : List Token) :
    nesting (t :: ts) = depthChange t.kind + nesting ts := by
  simp [nesting]

@[simp] theorem nesting_append (as bs : List Token) : nesting (as ++ bs) = nesting as + nesting bs := by
  simp [nesting]

theorem depthChange_eq (k : TokenKind) :
    depthChange k = if k = .lparen then 1 else if k = .rparen then -1 else 0 := by
  cases k <;> rfl

/-- Only a closing parenthesis lowers the depth. -/
theorem depthChange_nonneg {k : TokenKind} (hk : k ≠ .rparen) : 0 ≤ depthChange k := by
  rw [depthChange_eq, if_neg hk]
  split <;> decide

theorem depthChange_of_isOperator {k : TokenKind} (hk : isOperator k = true) : depthChange k = 0 := by
  cases k
  case lparen | rparen => cases hk
  all_goals rfl

/-! ### The loop of `ParenCheck` -/

section ParenCheck

variable {ts : List Token} {d x : Int} {c e : Bool}

theorem parenScan_cons (d : Int) (c : Bool) (t : Token) (ts : List Token) :
    parenScan d c (t :: ts) =
      if t.kind = .rparen ∧ d + depthChange t.kind < 0 then none
      else parenScan (d + depthChange t.kind) (c || (d + depthChange t.kind == 0 && !ts.isEmpty)) ts := rfl

/-- From a depth that is not negative, the loop gives up exactly when some start of the range takes the depth
below zero. -/
theorem parenScan_eq_none_iff (hd : 0 ≤ d) :
    parenScan d c ts = none ↔ ∃ n ≤ ts.length, d + nesting (ts.take n) < 0 := by
  induction ts generalizing d c with
  | nil => simpa [parenScan] using hd
  | cons t ts ih =>
    have hprefix : (∃ n ≤ (t :: ts).length, d + nesting ((t :: ts).take n) < 0) ↔
        ∃ n ≤ ts.length, d + depthChange t.kind + nesting (ts.take n) < 0 := by
      constructor
      · rintro ⟨n, hn, hneg⟩
        cases n with
        | zero => simp at hneg; omega
        | succ n => exact ⟨n, Nat.le_of_succ_le_succ hn, by simpa [add_assoc] using hneg⟩
      · rintro ⟨n, hn, hneg⟩
        exact ⟨n + 1, Nat.succ_le_succ hn, by simpa [add_assoc] using hneg⟩
    rw [parenScan_cons, hprefix]
    by_cases hneg : d + depthChange t.kind < 0
    · have hk : t.kind = .rparen := by
        by_contra hk
        have := depthChange_nonneg hk
        omega
      simp only [if_pos (And.intro hk hneg), true_iff]
      exact ⟨0, Nat.zero_le _, by simpa using hneg⟩
    · rw [if_neg fun h => hneg h.2]
      exact ih (not_lt.1 hneg)

/-- Where the loop does not give up it yields the depth of the range, and whether a proper start of it came
back to zero. -/
theorem parenScan_eq_some (h : parenScan d c ts = some (x, e)) :
    x = d + nesting ts ∧
      (e = false ↔ c = false ∧ ∀ n, 0 < n → n < ts.length → d + nesting (ts.take n) ≠ 0) := by
  induction ts generalizing d c with
  | nil =>
    cases h
    simp
  | cons t ts ih =>
    rw [parenScan_cons] at h
    split at h
    · cases h
    · obtain ⟨rfl, he⟩ := ih h
      refine ⟨by rw [nesting_cons, add_assoc], he.trans ?_⟩
      rw [Bool.or_eq_false_iff, and_assoc]
      refine and_congr_right fun _ => ⟨fun ⟨hfirst, hlater⟩ n hn hlt => ?_, fun hall => ⟨?_, fun n hn hlt => ?_⟩⟩
      · obtain ⟨n, rfl⟩ := Nat.exists_eq_add_one_of_ne_zero hn.ne'
        rw [List.take_succ_cons, nesting_cons, ← add_assoc]
        cases n with
        | zero =>
          have hne : ts ≠ [] := by rintro rfl; simp at hlt
          simpa [hne] using hfirst
        | succ n => exact hlater (n + 1) n.succ_pos (Nat.lt_of_succ_lt_succ hlt)
      · cases ts with
        | nil => simp
        | cons u us => simpa using hall 1 Nat.one_pos (by simp)
      · simpa [add_assoc] using hall (n + 1) n.succ_pos (Nat.succ_lt_succ hlt)

/-! ### The answers of `ParenCheck` -/

theorem parenCheck_eq_bad_iff :
    parenCheck ts = .bad ↔ nesting ts ≠ 0 ∨ ∃ n ≤ ts.length, nesting (ts.take n) < 0 := by
  have hnone := parenScan_eq_none_iff (ts := ts) (c := false) le_rfl
  simp only [zero_add] at hnone
  rw [← hnone, parenCheck]
  cases hscan : parenScan 0 false ts with
  | none => simp
  | some r =>
    obtain ⟨x, e⟩ := r
    obtain ⟨rfl, -⟩ := parenScan_eq_some hscan
    rw [zero_add]
    by_cases hx : nesting ts = 0
    · simp only [hx, ne_eq, not_true_eq_false, if_false, reduceCtorEq, or_self, iff_false]
      split <;> nofun
    · simp [hx]

theorem parenCheck_eq_wrapped_iff :
    parenCheck ts = .wrapped ↔ parenCheck ts ≠ .bad ∧ ts.head?.map Token.kind = some .lparen ∧
      ts.getLast?.map Token.kind = some .rparen ∧ ∀ n, 0 < n → n < ts.length → nesting (ts.take n) ≠ 0 := by
  rw [parenCheck]
  cases hscan : parenScan 0 false ts with
  | none => simp
  | some r =>
    obtain ⟨x, e⟩ := r
    obtain ⟨rfl, he⟩ := parenScan_eq_some hscan
    simp only [zero_add, true_and] at he ⊢
    rw [← he]
    split
    · simp
    · split <;> simp_all

end ParenCheck

/-! ### Operators outside parentheses -/

/-- The token at an index is an operator outside every parenthesis. -/
def Outside (ts : List Token) (j : Nat) (u : Token) : Prop :=
  ts[j]? = some u ∧ isOperator u.kind = true ∧ nesting (ts.take j) = 0

theorem Outside.lt_length {ts : List Token} {j : Nat} {u : Token} (h : Outside ts j u) : j < ts.length :=
  (List.getElem?_eq_some_iff.1 h.1).1

theorem not_outside_nil (j : Nat) (u : Token) : ¬ Outside [] j u := by
  rintro ⟨h, -⟩
  simp at h

/-- After a range that closes what it opens, what is outside is so in its own right. -/
theorem outside_append_iff {as bs : List Token} (ha : nesting as = 0) {j : Nat} {u : Token} :
    Outside (as ++ bs) j u ↔ Outside as j u ∨ ∃ i, j = as.length + i ∧ Outside bs i u := by
  rcases Nat.lt_or_ge j as.length with hj | hj
  · have hnot : ¬ ∃ i, j = as.length + i ∧ Outside bs i u := by
      rintro ⟨i, rfl, -⟩
      omega
    rw [or_iff_left hnot, Outside, Outside, List.getElem?_append_left hj, List.take_append_of_le_length hj.le]
  · obtain ⟨i, rfl⟩ := Nat.exists_eq_add_of_le hj
    have hnot : ¬ Outside as (as.length + i) u := fun h => absurd h.lt_length (by omega)
    have hindex : (∃ k, as.length + i = as.length + k ∧ Outside bs k u) ↔ Outside bs i u := by simp
    rw [or_iff_right hnot, hindex, Outside, Outside, List.getElem?_append_right hj, List.take_append,
      nesting_append, List.take_of_length_le hj, ha, zero_add, Nat.add_sub_cancel_left]

/-- What the last token of a range adds to the operators outside. -/
theorem outside_concat_iff {ts : List Token} {t u : Token} {j : Nat} :
    Outside (ts ++ [t]) j u ↔
      Outside ts j u ∨ (j = ts.length ∧ u = t ∧ isOperator t.kind = true ∧ nesting ts = 0) := by
  rcases Nat.lt_trichotomy j ts.length with hj | rfl | hj
  · have hne : ¬ (j = ts.length ∧ u = t ∧ isOperator t.kind = true ∧ nesting ts = 0) := fun h => by omega
    rw [or_iff_left hne, Outside, Outside, List.getElem?_append_left hj, List.take_append_of_le_length hj.le]
  · have hnot : ¬ Outside ts ts.length u := fun h => absurd h.lt_length (lt_irrefl _)
    rw [or_iff_right hnot, Outside]
    simp only [List.getElem?_concat_length, Option.some.injEq, List.take_left', true_and, eq_comm (a := t)]
    refine and_congr_right ?_
    rintro rfl
    rfl
  · constructor
    · intro h
      have := h.lt_length
      simp at this
      omega
    · rintro (h | h)
      · exact absurd h.lt_length (by omega)
      · omega

/-! ### The loop of `Dominant` -/

/-- The operator evaluated last: of the loosest outside parentheses the last if binary, the first if unary (R175). -/
def IsDominant (ts : List Token) (i : Nat) (t : Token) : Prop :=
  Outside ts i t ∧ ∀ j u, Outside ts j u →
    level t.kind ≤ level u.kind ∧ (level u.kind = level t.kind → if isUnary t.kind then i ≤ j else j ≤ i)

/-- What the loop holds after some tokens: nothing while no operator stood outside, else the dominant one of them. -/
def BestOf (ts : List Token) : Option (Nat × TokenKind) → Prop
  | none => ∀ j u, ¬ Outside ts j u
  | some (i, k) => ∃ t, t.kind = k ∧ IsDominant ts i t

/-- The loop's choice between the best operator so far and the one at index `i`. -/
def updateBest (best : Option (Nat × TokenKind)) (i : Nat) (k : TokenKind) : Option (Nat × TokenKind) :=
  match best with
  | none => some (i, k)
  | some (j, l) => if level k < level l ∨ (level k = level l ∧ isUnary k = false) then some (i, k) else some (j, l)

theorem dominantFrom_cons (d : Int) (best : Option (Nat × TokenKind)) (i : Nat) (t : Token) (ts : List Token) :
    dominantFrom d best i (t :: ts) =
      dominantFrom (d + depthChange t.kind)
        (if d = 0 ∧ isOperator t.kind = true then updateBest best i t.kind else best) (i + 1) ts := by
  rw [dominantFrom.eq_def]
  dsimp only
  by_cases hl : t.kind = .lparen
  · simp [hl, depthChange, isOperator]
  by_cases hr : t.kind = .rparen
  · simp [hr, depthChange, isOperator, Int.sub_eq_add_neg]
  rw [if_neg hl, if_neg hr, depthChange_eq, if_neg hl, if_neg hr, add_zero]
  by_cases hop : d = 0 ∧ isOperator t.kind = true
  · rw [if_pos hop, if_pos hop]
    rcases best with _ | ⟨j, l⟩
    · rfl
    · simp only [updateBest]
      split <;> rfl
  · rw [if_neg hop, if_neg hop]

/-- Of the operators, those of level 6 are the unary ones (30_encoding.md R79). -/
theorem isUnary_iff_level {k : TokenKind} (hk : isOperator k = true) : isUnary k = true ↔ level k = 6 := by
  cases k
  case eoi | num | hex | reg | lparen | rparen => cases hk
  all_goals decide

section Dominant

variable {ts : List Token} {t : Token} {best : Option (Nat × TokenKind)} {i : Nat}

theorem bestOf_congr {us : List Token} (h : ∀ j u, Outside us j u ↔ Outside ts j u) : BestOf us best ↔ BestOf ts best := by
  cases best <;> simp only [BestOf, IsDominant, h]

/-- An operator that is looser than the best so far, or as loose and binary, takes its place; any other does not. -/
theorem bestOf_updateBest (h : BestOf ts best) (hop : isOperator t.kind = true) (hd : nesting ts = 0) :
    BestOf (ts ++ [t]) (updateBest best ts.length t.kind) := by
  have hmem : ∀ {j u}, Outside (ts ++ [t]) j u ↔ Outside ts j u ∨ (j = ts.length ∧ u = t) := fun {j u} => by
    rw [outside_concat_iff]
    simp only [hop, hd, and_true]
  rcases best with _ | ⟨j, l⟩
  · refine ⟨t, rfl, hmem.2 (.inr ⟨rfl, rfl⟩), fun j u hu => ?_⟩
    obtain hu | ⟨rfl, rfl⟩ := hmem.1 hu
    · exact absurd hu (h j u)
    · simp
  obtain ⟨u, rfl, hout, hbest⟩ := h
  rw [updateBest]
  split
  case isTrue hlt =>
    refine ⟨t, rfl, hmem.2 (.inr ⟨rfl, rfl⟩), fun j' u' hu' => ?_⟩
    obtain hu' | ⟨rfl, rfl⟩ := hmem.1 hu'
    · obtain ⟨hle, -⟩ := hbest j' u' hu'
      refine ⟨by omega, fun heq => ?_⟩
      have hbin : isUnary t.kind = false := by
        obtain hlt | ⟨-, hbin⟩ := hlt
        · omega
        · exact hbin
      rw [if_neg (by simp [hbin])]
      exact hu'.lt_length.le
    · simp
  case isFalse hge =>
    refine ⟨u, rfl, hmem.2 (.inl hout), fun j' u' hu' => ?_⟩
    obtain hu' | ⟨rfl, rfl⟩ := hmem.1 hu'
    · exact hbest j' u' hu'
    · rw [not_or, not_and, Bool.not_eq_false] at hge
      refine ⟨by omega, fun heq => ?_⟩
      have hun : isUnary u.kind = true := by
        rw [isUnary_iff_level hout.2.1, ← heq, ← isUnary_iff_level hop]
        exact hge.2 heq
      rw [if_pos hun]
      exact hout.lt_length.le

/-- The loop over the rest of a range, from what it holds after the start of it. -/
theorem dominantFrom_bestOf (pre ts : List Token) (h : BestOf pre best) :
    ∃ r, dominantFrom (nesting pre) best pre.length ts = r.map Prod.fst ∧ BestOf (pre ++ ts) r := by
  induction ts generalizing pre best with
  | nil => exact ⟨best, rfl, by rwa [List.append_nil]⟩
  | cons t ts ih =>
    have hstep : BestOf (pre ++ [t])
        (if nesting pre = 0 ∧ isOperator t.kind = true then updateBest best pre.length t.kind else best) := by
      split
      case isTrue hop => exact bestOf_updateBest h hop.2 hop.1
      case isFalse hop =>
        refine (bestOf_congr fun j u => ?_).2 h
        rw [outside_concat_iff, or_iff_left]
        exact fun hlast => hop ⟨hlast.2.2.2, hlast.2.2.1⟩
    have := ih (pre ++ [t]) hstep
    rw [dominantFrom_cons]
    simpa using this

/-- `Dominant` yields the dominant operator, and nothing exactly when there is no operator outside parentheses. -/
theorem dominant_cases (ts : List Token) :
    (∃ i t, dominant ts = some i ∧ IsDominant ts i t) ∨ (dominant ts = none ∧ ∀ j u, ¬ Outside ts j u) := by
  obtain ⟨r, hr, hbest⟩ := dominantFrom_bestOf (best := none) [] ts not_outside_nil
  rcases r with _ | ⟨i, k⟩
  · exact .inr ⟨hr, hbest⟩
  · obtain ⟨t, -, ht⟩ := hbest
    exact .inl ⟨i, t, hr, ht⟩

theorem isDominant_of_dominant (h : dominant ts = some i) : ∃ t, IsDominant ts i t := by
  obtain ⟨j, t, hj, ht⟩ | ⟨hnone, -⟩ := dominant_cases ts
  · cases h.symm.trans hj
    exact ⟨t, ht⟩
  · cases h.symm.trans hnone

theorem dominant_eq_none_iff : dominant ts = none ↔ ∀ j u, ¬ Outside ts j u := by
  obtain ⟨i, t, hi, ht⟩ | ⟨hnone, hall⟩ := dominant_cases ts
  · simp only [hi, reduceCtorEq, false_iff]
    exact fun hall => hall i t ht.1
  · exact iff_of_true hnone hall

/-- There is one dominant operator at most. -/
theorem IsDominant.index_unique {j : Nat} {u : Token} (hi : IsDominant ts i t) (hj : IsDominant ts j u) : i = j := by
  obtain ⟨houti, hmini⟩ := hi
  obtain ⟨houtj, hminj⟩ := hj
  obtain ⟨hle, hij⟩ := hmini j u houtj
  obtain ⟨hge, hji⟩ := hminj i t houti
  have hlevel : level t.kind = level u.kind := le_antisymm hle hge
  have hsame : isUnary u.kind = isUnary t.kind := by
    rw [Bool.eq_iff_iff, isUnary_iff_level houtj.2.1, isUnary_iff_level houti.2.1, hlevel]
  specialize hij hlevel.symm
  specialize hji hlevel
  rw [hsame] at hji
  cases hun : isUnary t.kind <;> simp only [hun, if_true, if_false, Bool.false_eq_true] at hij hji <;> omega

theorem dominant_of_isDominant (h : IsDominant ts i t) : dominant ts = some i := by
  obtain ⟨j, u, hj, hu⟩ | ⟨-, hall⟩ := dominant_cases ts
  · rw [hj, h.index_unique hu]
  · exact absurd h.1 (hall i t)

end Dominant

/-! ### The statements -/

/-- Settles O42, from what the loop of `ParenCheck` yields. -/
theorem parenCheckIsTheDepthCriterion : Obligations.ParenCheckIsTheDepthCriterion :=
  fun _ => ⟨depthChange_eq, parenCheck_eq_bad_iff, parenCheck_eq_wrapped_iff⟩

theorem isOperator_eq_false_iff (k : TokenKind) :
    isOperator k = false ↔ k ∈ [TokenKind.eoi, .num, .hex, .reg, .lparen, .rparen] := by
  cases k <;> decide

theorem isUnary_eq_true_iff (k : TokenKind) : isUnary k = true ↔ k ∈ [TokenKind.not, .neg, .deref] := by
  cases k <;> decide

/-- Settles O43, from what the loop of `Dominant` holds after every token. -/
theorem dominantIsTheLoosestOperator : Obligations.DominantIsTheLoosestOperator :=
  ⟨rfl, fun k => ⟨isOperator_eq_false_iff k, isUnary_eq_true_iff k⟩,
    fun _ => ⟨fun _ => isDominant_of_dominant, dominant_eq_none_iff⟩⟩

end Sys2Proof.Proofs

/-! The grammar of the expression language and the evaluator agree (spec 30_encoding.md R81, 43_expression_evaluator.md R171):
a derived range closes its parentheses and has no operator outside them that binds more loosely than its nonterminal, so
`ParenCheck` and `Dominant` find the production it was derived by; and a range that has a value was taken apart by them
along productions. -/

namespace Sys2Proof.Proofs

open Sys2Proof.Machine

/-! ### `Apply` -/

section Apply

variable {P : Params} {m : Memory} {f : List Token → Res Word} {ts : List Token} {op : Nat} {t : Token}

theorem applyAt_unary_behind (h : ts[op]? = some t) (ht : isUnary t.kind = true) (hop : op ≠ 0) :
    applyAt P m f ts op = .fail .eInvalid := by
  simp only [applyAt, h, ht, if_true, if_pos hop]

theorem applyAt_unary_first (h : ts[0]? = some t) (ht : isUnary t.kind = true) :
    applyAt P m f ts 0 = applyUnary (unaryValue P m t.kind) (f (ts.drop 1)) := by
  simp only [applyAt, h, ht, if_true, ne_eq, not_true_eq_false, if_false]

theorem applyAt_of_binary (h : ts[op]? = some t) (ht : isUnary t.kind = false) :
    applyAt P m f ts op = combine (binaryValue t.kind) (f (ts.take op)) (f (ts.drop (op + 1))) := by
  simp only [applyAt, h, ht, Bool.false_eq_true, if_false]

end Apply

/-! ### Ranges that close what they open -/

/-- What `ParenCheck` does not call bad. -/
def Balanced (ts : List Token) : Prop := nesting ts = 0 ∧ ∀ n, 0 ≤ nesting (ts.take n)

section Balanced

variable {as bs ts : List Token} {o c t : Token}

theorem parenCheck_ne_bad_iff : parenCheck ts ≠ .bad ↔ Balanced ts := by
  rw [ne_eq, parenCheck_eq_bad_iff, not_or, not_not]
  refine and_congr_right fun hzero => ?_
  simp only [not_exists, not_and, not_lt]
  refine ⟨fun h n => ?_, fun h n _ => h n⟩
  rcases Nat.le_total n ts.length with hn | hn
  · exact h n hn
  · rw [List.take_of_length_le hn, hzero]

theorem balanced_nil : Balanced [] := ⟨rfl, fun n => by simp⟩

theorem Balanced.append (ha : Balanced as) (hb : Balanced bs) : Balanced (as ++ bs) := by
  refine ⟨by rw [nesting_append, ha.1, hb.1, add_zero], fun n => ?_⟩
  rw [List.take_append, nesting_append]
  exact add_nonneg (ha.2 n) (hb.2 _)

/-- A token that is no parenthesis leaves the depths after it as they were. -/
theorem Balanced.cons (ht : depthChange t.kind = 0) (hb : Balanced bs) : Balanced (t :: bs) := by
  refine ⟨by rw [nesting_cons, ht, hb.1, add_zero], fun n => ?_⟩
  cases n with
  | zero => simp
  | succ n =>
    rw [List.take_succ_cons, nesting_cons, ht, zero_add]
    exact hb.2 n

/-- Inside a pair of parentheses around a balanced range the depth is at least one. -/
theorem nesting_take_paren (ho : o.kind = .lparen) (h : Balanced ts) {n : Nat} (hn : n ≤ ts.length) :
    1 ≤ nesting ((o :: (ts ++ [c])).take (n + 1)) := by
  rw [List.take_succ_cons, nesting_cons, ho, List.take_append_of_le_length hn]
  have := h.2 n
  simp only [depthChange]
  omega

theorem nesting_paren (ho : o.kind = .lparen) (hc : c.kind = .rparen) (h : Balanced ts) :
    nesting (o :: (ts ++ [c])) = 0 := by
  simp [ho, hc, h.1, depthChange]

theorem Balanced.paren (ho : o.kind = .lparen) (hc : c.kind = .rparen) (h : Balanced ts) :
    Balanced (o :: (ts ++ [c])) := by
  refine ⟨nesting_paren ho hc h, fun n => ?_⟩
  cases n with
  | zero => simp
  | succ n =>
    rcases Nat.lt_or_ge ts.length n with hn | hn
    · rw [List.take_of_length_le (by simp; omega), nesting_paren ho hc h]
    · have := nesting_take_paren (c := c) ho h hn
      omega

theorem parenCheck_paren (ho : o.kind = .lparen) (hc : c.kind = .rparen) (h : Balanced ts) :
    parenCheck (o :: (ts ++ [c])) = .wrapped := by
  refine parenCheck_eq_wrapped_iff.2 ⟨parenCheck_ne_bad_iff.2 (h.paren ho hc), by simp [ho], ?_, ?_⟩
  · rw [← List.cons_append, List.getLast?_concat, Option.map_some, hc]
  intro n hpos hlt
  obtain ⟨n, rfl⟩ := Nat.exists_eq_add_one_of_ne_zero hpos.ne'
  have := nesting_take_paren (c := c) ho h (n := n) (by simp at hlt; omega)
  omega

/-- A balanced range is open where a proper start of it is balanced, or where it does not start with `(`. -/
theorem parenCheck_eq_openRange (h : Balanced ts)
    (hopen : ts.head?.map Token.kind ≠ some .lparen ∨ ∃ n, 0 < n ∧ n < ts.length ∧ nesting (ts.take n) = 0) :
    parenCheck ts = .openRange := by
  cases hp : parenCheck ts with
  | bad => exact absurd hp (parenCheck_ne_bad_iff.2 h)
  | wrapped =>
    obtain ⟨-, hhead, -, hinside⟩ := parenCheck_eq_wrapped_iff.1 hp
    obtain hne | ⟨n, hpos, hlt, hzero⟩ := hopen
    · exact absurd hhead hne
    · exact absurd hzero (hinside n hpos hlt)
  | openRange => rfl

/-- A wrapped range is a range in parentheses. -/
theorem exists_eq_paren_of_wrapped (h : parenCheck ts = .wrapped) (hlong : 2 ≤ ts.length) :
    ∃ o us c, ts = o :: (us ++ [c]) ∧ o.kind = .lparen ∧ c.kind = .rparen := by
  obtain ⟨-, hhead, hlast, -⟩ := parenCheck_eq_wrapped_iff.1 h
  match ts, hlong with
  | o :: u :: us, _ =>
    refine ⟨o, (u :: us).dropLast, (u :: us).getLast (by simp), ?_, by simpa using hhead, ?_⟩
    · rw [List.dropLast_append_getLast]
    · rw [List.getLast?_cons_cons, List.getLast?_eq_some_getLast (by simp)] at hlast
      simpa using hlast

end Balanced

/-! ### Operators outside parentheses, along the productions -/

section Outside

variable {as bs ts : List Token} {o c t u : Token} {i j : Nat}

/-- A token that is no parenthesis only moves the indices of what stands behind it. -/
theorem outside_cons_succ_iff (ht : depthChange t.kind = 0) : Outside (t :: bs) (i + 1) u ↔ Outside bs i u := by
  simp [Outside, ht]

theorem outside_cons_zero (ht : isOperator t.kind = true) : Outside (t :: bs) 0 t := ⟨rfl, ht, rfl⟩

theorem eq_of_outside_cons_zero (h : Outside (t :: bs) 0 u) : u = t := by
  obtain ⟨hget, -⟩ := h
  simpa using hget.symm

/-- Nothing in a pair of parentheses is outside. -/
theorem not_outside_paren (ho : o.kind = .lparen) (hc : c.kind = .rparen) (h : Balanced ts) :
    ¬ Outside (o :: (ts ++ [c])) i u := by
  rintro ⟨hget, hop, hzero⟩
  cases i with
  | zero =>
    cases hget
    rw [ho] at hop
    cases hop
  | succ i =>
    rw [List.getElem?_cons_succ] at hget
    rcases Nat.lt_trichotomy i ts.length with hi | rfl | hi
    · have := nesting_take_paren (c := c) ho h hi.le
      omega
    · rw [List.getElem?_concat_length] at hget
      cases hget
      rw [hc] at hop
      cases hop
    · rw [List.getElem?_eq_none (by simp; omega)] at hget
      cases hget

theorem not_outside_singleton (ht : isOperator t.kind = false) : ¬ Outside [t] i u := by
  rintro h
  obtain rfl : i = 0 := by simpa using h.lt_length
  obtain rfl := eq_of_outside_cons_zero h
  exact absurd h.2.1 (by simp [ht])

/-- The operators outside in a range split at an operator: those of the left part, the operator, those of the right. -/
theorem outside_split_iff (ha : nesting as = 0) (ht : isOperator t.kind = true) :
    Outside (as ++ t :: bs) j u ↔
      Outside as j u ∨ (j = as.length ∧ u = t) ∨ ∃ i, j = as.length + (i + 1) ∧ Outside bs i u := by
  rw [outside_append_iff ha]
  refine or_congr_right ⟨?_, ?_⟩
  · rintro ⟨i, rfl, h⟩
    cases i with
    | zero => exact .inl ⟨rfl, eq_of_outside_cons_zero h⟩
    | succ i => exact .inr ⟨i, rfl, (outside_cons_succ_iff (depthChange_of_isOperator ht)).1 h⟩
  · rintro (⟨rfl, rfl⟩ | ⟨i, rfl, h⟩)
    · exact ⟨0, rfl, outside_cons_zero ht⟩
    · exact ⟨i + 1, rfl, (outside_cons_succ_iff (depthChange_of_isOperator ht)).2 h⟩

end Outside

/-! ### What a derivation says of its range -/

section Derives

variable {l m : Nat} {ts : List Token} {e : ExprTree} {P : Params} {s : State}

theorem isOperator_of_isUnary {k : TokenKind} (hk : isUnary k = true) : isOperator k = true := by
  cases k
  case not | neg | deref => rfl
  all_goals cases hk

theorem depthChange_of_isUnary {k : TokenKind} (hk : isUnary k = true) : depthChange k = 0 :=
  depthChange_of_isOperator (isOperator_of_isUnary hk)

theorem isOperator_of_operand {k : TokenKind} (hk : k = .num ∨ k = .hex ∨ k = .reg) : isOperator k = false := by
  obtain rfl | rfl | rfl := hk <;> rfl

theorem level_of_isUnary {k : TokenKind} (hk : isUnary k = true) : level k = 6 :=
  (isUnary_iff_level (isOperator_of_isUnary hk)).1 hk

theorem level_le_six {k : TokenKind} (hk : isOperator k = true) : level k ≤ 6 := by
  cases k
  case eoi | num | hex | reg | lparen | rparen => cases hk
  all_goals decide

theorem ne_nil_of_derives (h : Derives l ts e) : ts ≠ [] := by
  induction h with
  | operand | paren | unaryOp => exact List.cons_ne_nil _ _
  | binaryOp => exact List.append_ne_nil_of_right_ne_nil _ (List.cons_ne_nil _ _)
  | weaken _ _ _ _ _ _ ih => exact ih

theorem balanced_of_derives (h : Derives l ts e) : Balanced ts := by
  induction h with
  | operand t ht =>
    refine balanced_nil.cons ?_
    obtain hk | hk | hk := ht <;> rw [hk] <;> rfl
  | paren o c ts e ho hc _ ih => exact ih.paren ho hc
  | unaryOp t ts e ht _ ih => exact ih.cons (depthChange_of_isUnary ht)
  | binaryOp l t as bs a b hop _ _ _ _ iha ihb => exact iha.append (ihb.cons (depthChange_of_isOperator hop))
  | weaken _ _ _ _ _ _ ih => exact ih

/-- No operator outside parentheses binds more loosely than the nonterminal that derives the range. -/
theorem le_level_of_derives (h : Derives l ts e) : ∀ j u, Outside ts j u → l ≤ level u.kind := by
  induction h with
  | operand t ht => exact fun j u hu => absurd hu (not_outside_singleton (isOperator_of_operand ht))
  | paren o c ts e ho hc h _ => exact fun j u hu => absurd hu (not_outside_paren ho hc (balanced_of_derives h))
  | unaryOp t ts e ht _ ih =>
    intro j u hu
    cases j with
    | zero => rw [eq_of_outside_cons_zero hu, level_of_isUnary ht]
    | succ j =>
      exact ih j u ((outside_cons_succ_iff (depthChange_of_isUnary ht)).1 hu)
  | binaryOp l t as bs a b hop _ hl ha _ iha ihb =>
    intro j u hu
    obtain hu | ⟨-, rfl⟩ | ⟨i, -, hu⟩ := (outside_split_iff (balanced_of_derives ha).1 hop).1 hu
    · exact iha j u hu
    · exact hl.ge
    · exact (Nat.le_succ l).trans (ihb i u hu)
  | weaken l ts e _ _ _ ih => exact fun j u hu => (Nat.le_succ l).trans (ih j u hu)

/-- The operator of a unary production is the dominant one: what follows it has only unary operators outside. -/
theorem isDominant_unaryOp {t : Token} (ht : isUnary t.kind = true) (h : Derives 6 ts e) :
    IsDominant (t :: ts) 0 t := by
  refine ⟨outside_cons_zero (isOperator_of_isUnary ht), fun j u hu => ⟨?_, fun _ => ?_⟩⟩
  · rw [level_of_isUnary ht]
    cases j with
    | zero => rw [eq_of_outside_cons_zero hu, level_of_isUnary ht]
    | succ j =>
      exact le_level_of_derives h j u ((outside_cons_succ_iff (depthChange_of_isUnary ht)).1 hu)
  · rw [if_pos ht]
    exact Nat.zero_le j

/-- The operator of a binary production is the dominant one: to its right every operator outside binds more tightly. -/
theorem isDominant_binaryOp {t : Token} {as bs : List Token} {a b : ExprTree} (hop : isOperator t.kind = true)
    (hun : isUnary t.kind = false) (ha : Derives (level t.kind) as a) (hb : Derives (level t.kind + 1) bs b) :
    IsDominant (as ++ t :: bs) as.length t := by
  have hsplit : ∀ {j u}, Outside (as ++ t :: bs) j u ↔ _ := outside_split_iff (balanced_of_derives ha).1 hop
  refine ⟨hsplit.2 (.inr (.inl ⟨rfl, rfl⟩)), fun j u hu => ?_⟩
  rw [if_neg (by simp [hun])]
  obtain hleft | ⟨rfl, rfl⟩ | ⟨i, rfl, hright⟩ := hsplit.1 hu
  · exact ⟨le_level_of_derives ha j u hleft, fun _ => hleft.lt_length.le⟩
  · exact ⟨le_rfl, fun _ => le_rfl⟩
  · have := le_level_of_derives hb i u hright
    exact ⟨by omega, fun heq => by omega⟩

/-! ### From a derivation to the value of its tree -/

theorem evalTokens_paren {o c : Token} (ho : o.kind = .lparen) (hc : c.kind = .rparen) (h : Balanced ts) :
    evalTokens P s (o :: (ts ++ [c])) = evalTokens P s ts := by
  rw [evalTokens_eq_evalSplit (by simp), evalSplit_wrapped (parenCheck_paren ho hc h)]
  simp

/-- On an open range with a dominant operator, `Eval` is `Apply` at it. -/
theorem evalTokens_of_isDominant {i : Nat} {t : Token} (hlong : 2 ≤ ts.length) (hp : parenCheck ts = .openRange)
    (hd : IsDominant ts i t) : evalTokens P s ts = applyAt P s.mem (evalTokens P s) ts i := by
  rw [evalTokens_eq_evalSplit hlong, evalSplit_operator hp (dominant_of_isDominant hd)]

theorem applyAt_binary (m : Memory) (f : List Token → Res Word) {t : Token} {as bs : List Token}
    (ht : isUnary t.kind = false) :
    applyAt P m f (as ++ t :: bs) as.length = combine (binaryValue t.kind) (f as) (f bs) := by
  have hget : (as ++ t :: bs)[as.length]? = some t := by simp
  have hdrop : (as ++ t :: bs).drop (as.length + 1) = bs := by simp [List.drop_append]
  rw [applyAt_of_binary hget ht, List.take_left', hdrop]
  rfl

/-- What a nonterminal derives with a tree evaluates as the tree. -/
theorem evalTokens_of_derives (P : Params) (s : State) (h : Derives l ts e) : evalTokens P s ts = treeValue P s e := by
  induction h with
  | operand t _ => rfl
  | paren o c ts e ho hc h ih => rw [evalTokens_paren ho hc (balanced_of_derives h), ih]
  | unaryOp t ts e ht h ih =>
    have hpos := List.length_pos_of_ne_nil (ne_nil_of_derives h)
    have hp : parenCheck (t :: ts) = .openRange := by
      refine parenCheck_eq_openRange ((balanced_of_derives h).cons (depthChange_of_isUnary ht)) (.inl fun hhead => ?_)
      have hk : t.kind = .lparen := by simpa using hhead
      rw [hk] at ht
      cases ht
    rw [evalTokens_of_isDominant (by simpa using Nat.succ_le_of_lt hpos) hp (isDominant_unaryOp ht h),
      applyAt_unary_first rfl ht, List.drop_one, List.tail_cons, ih, treeValue]
  | binaryOp l t as bs a b hop hun hl ha hb iha ihb =>
    subst hl
    have hposa := List.length_pos_of_ne_nil (ne_nil_of_derives ha)
    have hlong : 2 ≤ (as ++ t :: bs).length := by simp; omega
    have hp : parenCheck (as ++ t :: bs) = .openRange :=
      parenCheck_eq_openRange
        ((balanced_of_derives ha).append ((balanced_of_derives hb).cons (depthChange_of_isOperator hop)))
        (.inr ⟨as.length, hposa, by simp, by simpa using (balanced_of_derives ha).1⟩)
    rw [evalTokens_of_isDominant hlong hp (isDominant_binaryOp hop hun ha hb), applyAt_binary _ _ hun, iha, ihb,
      treeValue]
  | weaken _ _ _ _ _ _ ih => exact ih

/-! ### From a value to a derivation -/

/-- Where every operator outside binds at least as tightly as level `m`, the nonterminal `m` derives the range too. -/
theorem derives_tighten (h : Derives l ts e) (hlm : l ≤ m) (hm : m ≤ 7)
    (hout : ∀ j u, Outside ts j u → m ≤ level u.kind) : Derives m ts e := by
  induction h with
  | operand t ht =>
    obtain rfl := le_antisymm hm hlm
    exact .operand t ht
  | paren o c ts e ho hc h _ =>
    obtain rfl := le_antisymm hm hlm
    exact .paren o c ts e ho hc h
  | unaryOp t ts e ht h _ =>
    have hm6 := hout 0 t (outside_cons_zero (isOperator_of_isUnary ht))
    rw [level_of_isUnary ht] at hm6
    obtain rfl := le_antisymm hm6 hlm
    exact .unaryOp t ts e ht h
  | binaryOp l t as bs a b hop hun hl ha hb _ _ =>
    have hml := hout as.length t ((outside_split_iff (balanced_of_derives ha).1 hop).2 (.inr (.inl ⟨rfl, rfl⟩)))
    obtain rfl := le_antisymm (hml.trans hl.le) hlm
    exact .binaryOp _ t as bs a b hop hun hl ha hb
  | weaken l ts e h1 h7 h ih =>
    obtain rfl | hlt := hlm.eq_or_lt
    · exact .weaken l ts e h1 h7 h
    · exact ih hlt hout

/-- A nonterminal derives what a tighter one does. -/
theorem derives_loosen (h : Derives m ts e) (hl : 1 ≤ l) (hlm : l ≤ m) (hm : m ≤ 7) : Derives l ts e := by
  induction hlm using Nat.decreasingInduction with
  | self => exact h
  | of_succ k hk ih => exact .weaken k ts e (by omega) (by omega) (ih (by omega))

theorem applyUnary_eq_ok {f : Word → Res Word} {r : Res Word} {v : Word} (h : applyUnary f r = .ok v) :
    ∃ x, r = .ok x := by
  cases r with
  | ok x => exact ⟨x, rfl⟩
  | fail c => cases h
  | fatal c => cases h

theorem combine_eq_ok {f : Word → Word → Res Word} {a b : Res Word} {v : Word} (h : combine f a b = .ok v) :
    (∃ x, a = .ok x) ∧ ∃ y, b = .ok y := by
  cases a with
  | ok x =>
    cases b with
    | ok y => exact ⟨⟨x, rfl⟩, ⟨y, rfl⟩⟩
    | fail c => cases h
    | fatal c => cases h
  | fail c => cases b <;> cases h
  | fatal c => cases h

theorem operandValue_eq_ok {t : Token} {v : Word} (h : operandValue s t = .ok v) :
    t.kind = .num ∨ t.kind = .hex ∨ t.kind = .reg := by
  unfold operandValue at h
  split at h
  · exact .inl ‹_›
  · exact .inr (.inl ‹_›)
  · exact .inr (.inr ‹_›)
  · cases h

/-- The three ways a longer range can have a value. -/
theorem evalTokens_eq_ok {v : Word} (hlong : 2 ≤ ts.length) (h : evalTokens P s ts = .ok v) :
    (∃ o us c, ts = o :: (us ++ [c]) ∧ o.kind = .lparen ∧ c.kind = .rparen ∧ evalTokens P s us = .ok v) ∨
    (∃ t us x, ts = t :: us ∧ isUnary t.kind = true ∧ IsDominant ts 0 t ∧ evalTokens P s us = .ok x) ∨
    ∃ as t bs x y, ts = as ++ t :: bs ∧ isUnary t.kind = false ∧ IsDominant ts as.length t ∧
      evalTokens P s as = .ok x ∧ evalTokens P s bs = .ok y := by
  have hsplit := (evalTokens_eq_evalSplit (P := P) (s := s) hlong).symm.trans h
  cases hp : parenCheck ts with
  | bad =>
    rw [evalSplit_bad hp] at hsplit
    cases hsplit
  | wrapped =>
    rw [evalSplit_wrapped hp] at hsplit
    obtain ⟨o, us, c, rfl, ho, hc⟩ := exists_eq_paren_of_wrapped hp hlong
    exact .inl ⟨o, us, c, rfl, ho, hc, by simpa using hsplit⟩
  | openRange =>
    cases hd : dominant ts with
    | none =>
      rw [evalSplit_noOperator hp hd] at hsplit
      cases hsplit
    | some i =>
      rw [evalSplit_operator hp hd] at hsplit
      obtain ⟨t, ht⟩ := isDominant_of_dominant hd
      obtain ⟨hi, hget⟩ := List.getElem?_eq_some_iff.1 ht.1.1
      obtain ⟨as, bs, rfl, rfl⟩ : ∃ as bs, ts = as ++ t :: bs ∧ as.length = i := by
        refine ⟨ts.take i, ts.drop (i + 1), ?_, List.length_take_of_le hi.le⟩
        rw [← hget, List.cons_getElem_drop_succ, List.take_append_drop]
      cases hun : isUnary t.kind with
      | true =>
        cases as with
        | nil =>
          rw [List.nil_append, List.length_nil, applyAt_unary_first rfl hun] at hsplit
          obtain ⟨x, hx⟩ := applyUnary_eq_ok hsplit
          exact .inr (.inl ⟨t, bs, x, rfl, hun, ht, hx⟩)
        | cons a as =>
          rw [applyAt_unary_behind ht.1.1 hun (by simp)] at hsplit
          cases hsplit
      | false =>
        rw [applyAt_binary _ _ hun] at hsplit
        obtain ⟨⟨x, hx⟩, ⟨y, hy⟩⟩ := combine_eq_ok hsplit
        exact .inr (.inr ⟨as, t, bs, x, y, rfl, hun, ht, hx, hy⟩)

/-- What has a value is derived: the operands of the dominant operator have values, and what stands outside in them binds
tightly enough for its production. -/
theorem derives_of_evalTokens_eq_ok {v : Word} (h : evalTokens P s ts = .ok v) : ∃ e, Derives 1 ts e := by
  induction hn : ts.length using Nat.strong_induction_on generalizing ts v with
  | _ n ih =>
  subst hn
  match ts, h with
  | [], h => cases h
  | [t], h => exact ⟨_, derives_loosen (Derives.operand t (operandValue_eq_ok h)) le_rfl (by decide) le_rfl⟩
  | t₀ :: t₁ :: us, h =>
    obtain ⟨o, us, c, hts, ho, hc, hus⟩ | ⟨t, us, x, hts, hun, hdom, hus⟩ |
      ⟨as, t, bs, x, y, hts, hun, hdom, has, hbs⟩ := evalTokens_eq_ok (by simp) h
    all_goals rw [hts] at ih ⊢
    · obtain ⟨e, he⟩ := ih us.length (by simp) hus rfl
      exact ⟨e, derives_loosen (Derives.paren o c us e ho hc he) le_rfl (by decide) le_rfl⟩
    · obtain ⟨e, he⟩ := ih us.length (by simp) hus rfl
      have hzero := depthChange_of_isUnary hun
      rw [hts] at hdom
      have htight : Derives 6 us e := derives_tighten he (by decide) (by decide) fun j u hu =>
        (level_of_isUnary hun).ge.trans (hdom.2 (j + 1) u ((outside_cons_succ_iff hzero).2 hu)).1
      exact ⟨_, derives_loosen (Derives.unaryOp t us e hun htight) le_rfl (by decide) (by decide)⟩
    · obtain ⟨a, ha⟩ := ih as.length (by simp) has rfl
      obtain ⟨b, hb⟩ := ih bs.length (by simp; omega) hbs rfl
      rw [hts] at hdom
      obtain ⟨hout, hmin⟩ := hdom
      have hop := hout.2.1
      have hlevel := level_le_six hop
      have hsplit : ∀ {j u}, Outside (as ++ t :: bs) j u ↔ _ := outside_split_iff (balanced_of_derives ha).1 hop
      have hpos : 1 ≤ level t.kind := by cases t.kind <;> decide
      have hleft : Derives (level t.kind) as a := derives_tighten ha hpos (by omega) fun j u hu =>
        (hmin j u (hsplit.2 (.inl hu))).1
      have hright : Derives (level t.kind + 1) bs b := derives_tighten hb (by omega) (by omega) fun j u hu => by
        obtain ⟨hle, hlast⟩ := hmin _ u (hsplit.2 (.inr (.inr ⟨j, rfl, hu⟩)))
        rw [if_neg (by simp [hun])] at hlast
        omega
      exact ⟨_, derives_loosen (Derives.binaryOp _ t as bs a b hop hun rfl hleft hright) le_rfl hpos (by omega)⟩

end Derives

/-! ### The statements -/

/-- Settles O44, by induction on the derivation. -/
theorem derivedStringsEvaluateToTheirTrees : Obligations.DerivedStringsEvaluateToTheirTrees :=
  fun P s _ _ h => evalTokens_of_derives P s h

/-- Settles O45, by induction on the length of the range; the value of the tree is O44's. -/
theorem valuesComeOnlyFromDerivableStrings : Obligations.ValuesComeOnlyFromDerivableStrings := by
  intro P s ts v h
  obtain ⟨e, he⟩ := derives_of_evalTokens_eq_ok h
  exact ⟨e, he, (evalTokens_of_derives P s he).symm.trans h⟩

end Sys2Proof.Proofs

/-! Decoding (spec 30_encoding.md R72 to R74, R82 to R88): every instruction that has words is read back from them, and what
the rule list reads at the start of a text is the token whose bytes stand there and whose match ends where they end. -/

namespace Sys2Proof.Proofs

open Sys2Proof.Machine Sys2Proof.Laws

/-! ### What each kind of rule matches -/

section Rules

variable {p : Byte → Bool} {mk : List Byte → Instr} {pat bs run rest : List Byte} {i j : Instr}

theorem matchFixed_eq_some_iff : matchFixed pat i bs = some (j, rest) ↔ j = i ∧ bs = pat ++ rest := by
  constructor
  · intro h
    unfold matchFixed at h
    split at h
    case isTrue hp =>
      obtain ⟨us, rfl⟩ := List.isPrefixOf_iff_prefix.1 hp
      rw [List.drop_left] at h
      cases h
      exact ⟨rfl, rfl⟩
    case isFalse => cases h
  · rintro ⟨rfl, rfl⟩
    exact matchFixed_self pat j rest

/-- A run and a rest that does not go on with it are what `takeWhile` and `dropWhile` cut a text into. -/
theorem takeWhile_append_of_not_startsWith (hrun : run.all p = true) (hrest : startsWith p rest = false) :
    (run ++ rest).takeWhile p = run ∧ (run ++ rest).dropWhile p = rest := by
  have hall : ∀ b ∈ run, p b = true := List.all_eq_true.1 hrun
  rw [List.takeWhile_append_of_pos hall, List.dropWhile_append_of_pos hall]
  cases rest with
  | nil => simp
  | cons b tl =>
    have hb : p b = false := hrest
    simp [hb]

theorem not_startsWith_dropWhile (p : Byte → Bool) (bs : List Byte) : startsWith p (bs.dropWhile p) = false := by
  cases h : bs.dropWhile p with
  | nil => rfl
  | cons b tl =>
    have hne : bs.dropWhile p ≠ [] := by simp [h]
    simpa [h, startsWith] using List.head_dropWhile_not p hne

theorem isRunOf_iff : isRunOf p run = true ↔ run ≠ [] ∧ run.all p = true := by
  simp [isRunOf]

theorem isRunOf_takeWhile (h : bs.takeWhile p ≠ []) : isRunOf p (bs.takeWhile p) = true :=
  isRunOf_iff.2 ⟨h, List.all_eq_true.2 fun _ hb => List.mem_takeWhile_imp hb⟩

/-- A rule with `+` matches the longest run at the start of the text. -/
theorem matchRun_eq_some_iff :
    matchRun p mk bs = some (i, rest) ↔
      ∃ run, isRunOf p run = true ∧ i = mk run ∧ bs = run ++ rest ∧ startsWith p rest = false := by
  constructor
  · intro h
    unfold matchRun at h
    split at h
    case isTrue => cases h
    case isFalse hne =>
      cases h
      exact ⟨bs.takeWhile p, isRunOf_takeWhile (by simpa only [List.isEmpty_iff] using hne), rfl,
        List.takeWhile_append_dropWhile.symm, not_startsWith_dropWhile p bs⟩
  · rintro ⟨run, hrun, rfl, rfl, hrest⟩
    obtain ⟨hne, hall⟩ := isRunOf_iff.1 hrun
    obtain ⟨htake, hdrop⟩ := takeWhile_append_of_not_startsWith hall hrest
    rw [matchRun, htake, hdrop, if_neg (by simpa using hne)]

theorem matchRun_eq_none (h : startsWith p bs = false) : matchRun p mk bs = none := by
  cases bs with
  | nil => rfl
  | cons b tl => exact matchRun_none h

theorem matchRun_append (hrun : isRunOf p run = true) (hrest : startsWith p rest = false) :
    matchRun p mk (run ++ rest) = some (mk run, rest) :=
  matchRun_eq_some_iff.2 ⟨run, hrun, rfl, rfl, hrest⟩

end Rules

/-! ### What the rule list reads -/

/-- The token `i` stands at the start of a text and its match ends where `rest` begins (R73, R74). -/
def ReadsAs (bs : List Byte) (i : Instr) (rest : List Byte) : Prop :=
  i.wf = true ∧ encodeToken i ≠ [] ∧ bs = encodeToken i ++ rest ∧ endsBefore i rest = true

section ReadsAs

variable {bs digits run rest : List Byte} {i : Instr}

/-- A `0` before an `x` and a hex digit is the start of a hex literal, so no decimal one ends there. -/
theorem matchHex_digits_eq_none (hd : isRunOf isDecDigit digits = true) (he : endsBefore (.tDec digits) rest = true) :
    matchHex (digits ++ rest) = none := by
  unfold matchHex
  split
  case isFalse => rfl
  case isTrue hp =>
    obtain ⟨us, hus⟩ := List.isPrefixOf_iff_prefix.1 hp
    obtain ⟨b, tl, rfl, -, htl⟩ := isRunOf_cons hd
    cases tl with
    | cons c tl =>
      obtain ⟨-, rfl, -⟩ : (0x30 : Byte) = b ∧ (0x78 : Byte) = c ∧ us = tl ++ rest := by simpa using hus
      simp [isDecDigit] at htl
    | nil =>
      obtain ⟨rfl, rfl⟩ : (0x30 : Byte) = b ∧ 0x78 :: us = rest := by simpa using hus
      refine matchRun_eq_none ?_
      have hhex : startsWith isHexDigit us = false := by
        simpa [endsBefore, startsWith, isDecDigit] using he
      simpa using hhex

/-- The first rule that matches where a token stands is the token's own. -/
theorem decodeToken_of_readsAs (h : ReadsAs bs i rest) : decodeToken bs = some (i, rest) := by
  obtain ⟨hwf, hne, rfl, hend⟩ := h
  cases i with
  | tWs run =>
    have hrun : isRunOf isBlank run = true := hwf
    obtain ⟨b, tl, rfl, hb, -⟩ := isRunOf_cons hrun
    exact (decodeToken_of_blank hb (tl ++ rest)).trans (matchRun_append hrun (by simpa [endsBefore] using hend))
  | tEq | tNe | tAnd | tOr | tPlus | tMinus | tStar | tSlash | tLparen | tRparen => rfl
  | tNot =>
    have hne : matchNe (0x21 :: rest) = none := by
      cases rest with
      | nil => rfl
      | cons c tl =>
        have hc : c ≠ 0x3D := by simpa [endsBefore, startsWith] using hend
        simpa [matchNe, matchFixed] using hc.symm
    show decodeToken (0x21 :: rest) = _
    have hws : matchWs (0x21 :: rest) = none := rfl
    have heq : matchEq (0x21 :: rest) = none := rfl
    have hand : matchAnd (0x21 :: rest) = none := rfl
    have hor : matchOr (0x21 :: rest) = none := rfl
    simp only [decodeToken, tokenRules, List.findSome?, hws, heq, hne, hand, hor]
    rfl
  | tHex digits =>
    have hm : matchHex (0x30 :: 0x78 :: (digits ++ rest)) = some (.tHex digits, rest) :=
      matchRun_append (show isRunOf isHexDigit digits = true from hwf) (by simpa [endsBefore] using hend)
    show decodeToken (0x30 :: 0x78 :: (digits ++ rest)) = _
    rw [decodeToken_of_digit (by decide), hm, Option.some_or]
  | tDec digits =>
    have hd : isRunOf isDecDigit digits = true := hwf
    have hrest : startsWith isDecDigit rest = false := by
      rw [endsBefore, Bool.and_eq_true, Bool.not_eq_true'] at hend
      exact hend.1
    have hhex := matchHex_digits_eq_none hd hend
    have hdec : matchDec (digits ++ rest) = some (.tDec digits, rest) := matchRun_append hd hrest
    obtain ⟨b, tl, rfl, hb, -⟩ := isRunOf_cons hd
    exact (decodeToken_of_digit hb (tl ++ rest)).trans (by rw [← List.cons_append, hhex, Option.none_or, hdec])
  | tReg name =>
    exact (decodeToken_of_dollar (name ++ rest)).trans
      (matchRun_append (show isRunOf isLower name = true from hwf) (by simpa [endsBefore] using hend))
  | _ => exact absurd rfl hne

/-- Where an exclamation mark stands, one of its two tokens does. -/
theorem exists_readsAs_exclamation (rest : List Byte) : ∃ i rest', ReadsAs (0x21 :: rest) i rest' := by
  cases rest with
  | nil => exact ⟨.tNot, [], rfl, nofun, rfl, rfl⟩
  | cons c tl =>
    by_cases hc : c = 0x3D
    · subst hc
      exact ⟨.tNe, tl, rfl, nofun, rfl, rfl⟩
    · exact ⟨.tNot, c :: tl, rfl, nofun, rfl, by simpa [endsBefore, startsWith] using hc⟩

theorem readsAs_hex (hd : isRunOf isHexDigit digits = true) (hrest : startsWith isHexDigit rest = false) :
    ReadsAs (0x30 :: 0x78 :: (digits ++ rest)) (.tHex digits) rest :=
  ⟨hd, nofun, rfl, by simpa [endsBefore] using hrest⟩

/-- Where a run of decimal digits stands, it is a token, or a `0` that starts a hex literal. -/
theorem exists_readsAs_digits (hd : isRunOf isDecDigit digits = true) (hrest : startsWith isDecDigit rest = false) :
    ∃ i rest', ReadsAs (digits ++ rest) i rest' := by
  by_cases he : endsBefore (.tDec digits) rest = true
  · exact ⟨.tDec digits, rest, hd, (isRunOf_iff.1 hd).1, rfl, he⟩
  · obtain ⟨rfl, hx, hhex⟩ : digits = [0x30] ∧ startsWith (fun b => b == 0x78) rest = true ∧
        startsWith isHexDigit (rest.drop 1) = true := by
      simpa [endsBefore, hrest, and_assoc] using he
    match rest, hx, hhex with
    | b :: c :: tl, hx, hhex =>
      obtain rfl : b = 0x78 := by simpa [startsWith] using hx
      have hc : isHexDigit c = true := hhex
      refine ⟨.tHex ((c :: tl).takeWhile isHexDigit), (c :: tl).dropWhile isHexDigit, ?_⟩
      have hrun : isRunOf isHexDigit ((c :: tl).takeWhile isHexDigit) = true := isRunOf_takeWhile (by simp [hc])
      have := readsAs_hex hrun (not_startsWith_dropWhile isHexDigit (c :: tl))
      rwa [List.takeWhile_append_dropWhile] at this

/-- Where some rule matches, some token stands. -/
theorem exists_readsAs_of_rule : ∀ rule ∈ tokenRules, rule bs = some (i, rest) → ∃ j rest', ReadsAs bs j rest' := by
  have hfixed : ∀ {k : Instr}, k.wf = true → encodeToken k ≠ [] → (∀ us, endsBefore k us = true) →
      matchFixed (encodeToken k) k bs = some (i, rest) → ∃ j rest', ReadsAs bs j rest' := fun hwf hne hend h =>
    ⟨_, rest, hwf, hne, (matchFixed_eq_some_iff.1 h).2, hend rest⟩
  simp only [tokenRules, List.forall_mem_cons, List.not_mem_nil, IsEmpty.forall_iff, implies_true, and_true]
  refine ⟨fun h => ?blank, hfixed (k := .tEq) rfl nofun fun _ => rfl, hfixed (k := .tNe) rfl nofun fun _ => rfl,
    hfixed (k := .tAnd) rfl nofun fun _ => rfl, hfixed (k := .tOr) rfl nofun fun _ => rfl, fun h => ?exclamation,
    hfixed (k := .tPlus) rfl nofun fun _ => rfl, hfixed (k := .tMinus) rfl nofun fun _ => rfl,
    hfixed (k := .tStar) rfl nofun fun _ => rfl, hfixed (k := .tSlash) rfl nofun fun _ => rfl,
    hfixed (k := .tLparen) rfl nofun fun _ => rfl, hfixed (k := .tRparen) rfl nofun fun _ => rfl,
    fun h => ?hex, fun h => ?dec, fun h => ?reg⟩
  case blank =>
    obtain ⟨run, hrun, -, rfl, hrest⟩ := matchRun_eq_some_iff.1 h
    exact ⟨.tWs run, rest, hrun, (isRunOf_iff.1 hrun).1, rfl, by simpa [endsBefore] using hrest⟩
  case exclamation =>
    obtain ⟨-, rfl⟩ := matchFixed_eq_some_iff.1 h
    exact exists_readsAs_exclamation rest
  case hex =>
    unfold matchHex at h
    split at h
    case isFalse => cases h
    case isTrue hp =>
      obtain ⟨us, rfl⟩ := List.isPrefixOf_iff_prefix.1 hp
      obtain ⟨digits, hd, -, hus, hrest⟩ := matchRun_eq_some_iff.1 h
      obtain rfl : us = digits ++ rest := by simpa using hus
      exact ⟨.tHex digits, rest, readsAs_hex hd hrest⟩
  case dec =>
    obtain ⟨digits, hd, -, rfl, hrest⟩ := matchRun_eq_some_iff.1 h
    exact exists_readsAs_digits hd hrest
  case reg =>
    unfold matchReg at h
    split at h
    case isFalse => cases h
    case isTrue hp =>
      obtain ⟨us, rfl⟩ := List.isPrefixOf_iff_prefix.1 hp
      obtain ⟨name, hn, -, hus, hrest⟩ := matchRun_eq_some_iff.1 h
      obtain rfl : us = name ++ rest := by simpa using hus
      exact ⟨.tReg name, rest, hn, nofun, rfl, by simpa [endsBefore] using hrest⟩

theorem decodeToken_eq_some_iff : decodeToken bs = some (i, rest) ↔ ReadsAs bs i rest := by
  refine ⟨fun h => ?_, decodeToken_of_readsAs⟩
  obtain ⟨rule, hmem, hrule⟩ := List.exists_of_findSome?_eq_some h
  obtain ⟨j, rest', hj⟩ := exists_readsAs_of_rule rule hmem hrule
  cases h.symm.trans (decodeToken_of_readsAs hj)
  exact hj

end ReadsAs

/-! ### The statements -/

/-- Settles O11, from the token that stands at the start of a text. -/
theorem decodedTokenIsTheFirstLongestMatch : Obligations.DecodedTokenIsTheFirstLongestMatch :=
  fun _ _ _ => decodeToken_eq_some_iff

/-- Settles O10, instruction by instruction. -/
theorem encodedInstructionsDecodeBack : Obligations.EncodedInstructionsDecodeBack := by
  intro i p hwf hp
  have hstatement : EncodeDecode.Statement i := by
    cases i with
    | cmdContinue => exact EncodeDecode.cmdContinue
    | cmdStep n => exact EncodeDecode.cmdStep n
    | cmdPrint text => exact EncodeDecode.cmdPrint text
    | cmdExamine n addr => exact EncodeDecode.cmdExamine n addr
    | cmdWatch text => exact EncodeDecode.cmdWatch text
    | cmdDelete id => exact EncodeDecode.cmdDelete id
    | cmdInfoRegisters => exact EncodeDecode.cmdInfoRegisters
    | cmdInfoWatchpoints => exact EncodeDecode.cmdInfoWatchpoints
    | cmdQuit => exact EncodeDecode.cmdQuit
    | cmdRegRead sel => exact EncodeDecode.cmdRegRead sel
    | cmdRegWrite sel v => exact EncodeDecode.cmdRegWrite sel v
    | cmdMemRead addr n => exact EncodeDecode.cmdMemRead addr n
    | cmdStopReq => exact EncodeDecode.cmdStopReq
    | cmdReset => exact EncodeDecode.cmdReset
    | cmdReserved op => exact EncodeDecode.cmdReserved op
    | tWs run => exact EncodeDecode.tWs run
    | tEq => exact EncodeDecode.tEq
    | tNe => exact EncodeDecode.tNe
    | tAnd => exact EncodeDecode.tAnd
    | tOr => exact EncodeDecode.tOr
    | tNot => exact EncodeDecode.tNot
    | tPlus => exact EncodeDecode.tPlus
    | tMinus => exact EncodeDecode.tMinus
    | tStar => exact EncodeDecode.tStar
    | tSlash => exact EncodeDecode.tSlash
    | tLparen => exact EncodeDecode.tLparen
    | tRparen => exact EncodeDecode.tRparen
    | tHex digits => exact EncodeDecode.tHex digits
    | tDec digits => exact EncodeDecode.tDec digits
    | tReg name => exact EncodeDecode.tReg name
    | xopNot r => exact EncodeDecode.xopNot r
    | xopNeg r => exact EncodeDecode.xopNeg r
    | xopDeref r => exact EncodeDecode.xopDeref r
    | xopMul a b => exact EncodeDecode.xopMul a b
    | xopDiv a b => exact EncodeDecode.xopDiv a b
    | xopAdd a b => exact EncodeDecode.xopAdd a b
    | xopSub a b => exact EncodeDecode.xopSub a b
    | xopEq a b => exact EncodeDecode.xopEq a b
    | xopNe a b => exact EncodeDecode.xopNe a b
    | xopAnd a b => exact EncodeDecode.xopAnd a b
    | xopOr a b => exact EncodeDecode.xopOr a b
    | operandNum digits => exact EncodeDecode.operandNum digits
    | operandHex digits => exact EncodeDecode.operandHex digits
    | operandReg name => exact EncodeDecode.operandReg name
    | memRead addr w => exact EncodeDecode.memRead addr w
    | memWrite addr w v => exact EncodeDecode.memWrite addr w v
    | linRead addr w => exact EncodeDecode.linRead addr w
    | linWrite addr w v => exact EncodeDecode.linWrite addr w v
    | hostRead addr w => exact EncodeDecode.hostRead addr w
    | hostWrite addr w v => exact EncodeDecode.hostWrite addr w v
    | insnOrdinary d => exact EncodeDecode.insnOrdinary d
    | insnBpTrap req d => exact EncodeDecode.insnBpTrap req d
    | insnFaulting => exact EncodeDecode.insnFaulting
  exact hstatement hwf p hp

/-- Settles O9: each conjunct is one decoding carried out. -/
theorem wordsOfTheTablesDecode : Obligations.WordsOfTheTablesDecode := by
  unfold Obligations.WordsOfTheTablesDecode
  decide

end Sys2Proof.Proofs

/-! `Tokenize` (spec 42_expression_tokenizer.md R145, R162): the loop is the scan of the text by the rule list, its position and
its count of tokens being those of the rules applied so far. With it the values of literals (R173). -/

namespace Sys2Proof.Proofs

open Sys2Proof.Machine

/-! ### Limits -/

section Limits

variable {n k : Nat} {limit : Option Nat}

theorem overLimit_of_le (hnk : n ≤ k) (h : overLimit n limit = true) : overLimit k limit = true := by
  cases limit with
  | none => exact h
  | some m =>
    rw [overLimit, decide_eq_true_eq] at h ⊢
    exact h.trans_le hnk

theorem not_overLimit_of_le (hnk : n ≤ k) (h : overLimit k limit = false) : overLimit n limit = false := by
  rw [Bool.eq_false_iff] at h ⊢
  exact fun hn => h (overLimit_of_le hnk hn)

/-- Within a limit, one more is over it exactly at it. -/
theorem overLimit_succ (h : overLimit n limit = false) : overLimit (n + 1) limit = atLimit n limit := by
  cases limit with
  | none => rfl
  | some m =>
    rw [overLimit, decide_eq_false_iff_not] at h
    rw [overLimit, atLimit, beq_eq_decide]
    exact decide_eq_decide.2 (by omega)

end Limits

/-! ### One rule -/

section Rule

variable {P : Params} {bs rest last : List Byte} {i : Instr} {is : List Instr} {fuel pos count : Nat}

theorem emission_len (i : Instr) : (emission i).len = (encodeToken i).length := by
  cases i <;> rfl

/-- A match moves past its own bytes, and past one at least. -/
theorem length_of_decodeToken (h : decodeToken bs = some (i, rest)) :
    bs.length = (emission i).len + rest.length ∧ 0 < (emission i).len := by
  obtain ⟨-, hne, rfl, -⟩ := decodeToken_eq_some_iff.1 h
  rw [List.length_append, emission_len]
  exact ⟨rfl, List.length_pos_of_ne_nil hne⟩

/-- A rule that emits nothing only moves on. -/
theorem tokenizeFrom_of_silent_rule (P : Params) (fuel pos count : Nat) (h : decodeToken bs = some (i, rest))
    (htok : (emission i).tok = none) :
    tokenizeFrom P (fuel + 1) pos count bs = tokenizeFrom P fuel (pos + (emission i).len) count rest := by
  cases bs with
  | nil => cases h
  | cons b bs => simp only [tokenizeFrom, h, htok]

/-- A token at the limit ends the loop. -/
theorem tokenizeFrom_at_limit (fuel pos : Nat) (h : decodeToken bs = some (i, rest)) {t : Token}
    (htok : (emission i).tok = some t) (hlimit : atLimit count P.maxTokens = true) :
    tokenizeFrom P (fuel + 1) pos count bs = .error .eLimit := by
  cases bs with
  | nil => cases h
  | cons b bs => simp only [tokenizeFrom, h, htok, hlimit, if_true]

/-- A token below the limit is collected. -/
theorem tokenizeFrom_of_token (fuel pos : Nat) (h : decodeToken bs = some (i, rest)) {t : Token}
    (htok : (emission i).tok = some t) (hlimit : atLimit count P.maxTokens = false) :
    tokenizeFrom P (fuel + 1) pos count bs =
      (tokenizeFrom P fuel (pos + (emission i).len) (count + 1) rest).map (t :: ·) := by
  cases bs with
  | nil => cases h
  | cons b bs =>
    simp only [tokenizeFrom, h, htok, hlimit, Bool.false_eq_true, if_false]
    cases tokenizeFrom P fuel (pos + (emission i).len) (count + 1) rest <;> rfl

theorem tokenizeFrom_of_no_rule (P : Params) (fuel pos count : Nat) (hne : bs ≠ []) (h : decodeToken bs = none) :
    tokenizeFrom P fuel pos count bs = .error (.eTokenize pos) := by
  cases bs with
  | nil => exact absurd rfl hne
  | cons b bs =>
    cases fuel with
    | zero => rfl
    | succ fuel => rw [tokenizeFrom, h]

theorem tokenizeFrom_nil (P : Params) (fuel pos count : Nat) : tokenizeFrom P fuel pos count [] = .ok [] := by
  cases fuel <;> rfl

/-! ### The loop along a scan -/

/-- The tokens the rules of a scan emit. -/
def emitted (is : List Instr) : List Token := is.filterMap fun i => (emission i).tok

theorem emitted_cons_of_none (h : (emission i).tok = none) : emitted (i :: is) = emitted is :=
  List.filterMap_cons_none h

theorem emitted_cons_of_some {t : Token} (h : (emission i).tok = some t) : emitted (i :: is) = t :: emitted is :=
  List.filterMap_cons_some h

theorem add_length_emitted_cons {t : Token} (h : (emission i).tok = some t) (n : Nat) :
    n + (emitted (i :: is)).length = n + 1 + (emitted is).length := by
  rw [emitted_cons_of_some h, List.length_cons, Nat.add_right_comm, Nat.add_assoc]

theorem length_le_of_lexes (h : Lexes bs is last) : last.length ≤ bs.length := by
  induction h with
  | stop => exact le_rfl
  | rule bs rest last i is hdec _ ih =>
    obtain ⟨hlen, -⟩ := length_of_decodeToken hdec
    omega

theorem except_map_map {ε α β γ : Type} (x : Except ε α) (f : α → β) (g : β → γ) : (x.map f).map g = x.map (g ∘ f) := by
  cases x <;> rfl

/-- Over a scan that emits one token too many the loop fails with the limit. -/
theorem tokenizeFrom_of_lexes_over (h : Lexes bs is last) (hfuel : bs.length ≤ fuel)
    (hcount : overLimit count P.maxTokens = false)
    (hover : overLimit (count + (emitted is).length) P.maxTokens = true) :
    tokenizeFrom P fuel pos count bs = .error .eLimit := by
  induction h generalizing fuel pos count with
  | stop => exact absurd hover (by simp [emitted, hcount])
  | rule bs rest last i is hdec _ ih =>
    obtain ⟨hlen, hpos⟩ := length_of_decodeToken hdec
    obtain ⟨fuel, rfl⟩ : ∃ f, fuel = f + 1 := Nat.exists_eq_add_one_of_ne_zero (by omega)
    cases htok : (emission i).tok with
    | none =>
      rw [emitted_cons_of_none htok] at hover
      rw [tokenizeFrom_of_silent_rule P fuel pos count hdec htok]
      exact ih (by omega) hcount hover
    | some t =>
      rw [add_length_emitted_cons htok] at hover
      cases hlimit : atLimit count P.maxTokens with
      | true => exact tokenizeFrom_at_limit fuel pos hdec htok hlimit
      | false =>
        rw [tokenizeFrom_of_token fuel pos hdec htok hlimit,
          ih (by omega) ((overLimit_succ hcount).trans hlimit) hover]
        rfl

/-- Over a scan within the limit the loop collects the tokens emitted and goes on where the scan ends. -/
theorem tokenizeFrom_of_lexes (h : Lexes bs is last) (hfuel : bs.length ≤ fuel)
    (hfits : overLimit (count + (emitted is).length) P.maxTokens = false) :
    ∃ f, tokenizeFrom P fuel pos count bs =
      (tokenizeFrom P f (pos + (bs.length - last.length)) (count + (emitted is).length) last).map (emitted is ++ ·) := by
  induction h generalizing fuel pos count with
  | stop bs =>
    refine ⟨fuel, ?_⟩
    rw [Nat.sub_self]
    change _ = (tokenizeFrom P fuel pos count bs).map id
    cases tokenizeFrom P fuel pos count bs <;> rfl
  | rule bs rest last i is hdec hlex ih =>
    obtain ⟨hlen, hpos⟩ := length_of_decodeToken hdec
    have hle := length_le_of_lexes hlex
    have hadd : pos + (emission i).len + (rest.length - last.length) = pos + (bs.length - last.length) := by omega
    obtain ⟨fuel, rfl⟩ : ∃ f, fuel = f + 1 := Nat.exists_eq_add_one_of_ne_zero (by omega)
    rw [← hadd]
    cases htok : (emission i).tok with
    | none =>
      rw [emitted_cons_of_none htok] at hfits ⊢
      rw [tokenizeFrom_of_silent_rule P fuel pos count hdec htok]
      exact ih (by omega) hfits
    | some t =>
      rw [add_length_emitted_cons htok] at hfits ⊢
      have hlimit : atLimit count P.maxTokens = false := by
        rw [← overLimit_succ (not_overLimit_of_le (by omega) hfits)]
        exact not_overLimit_of_le (by omega) hfits
      obtain ⟨f, hf⟩ := ih (fuel := fuel) (pos := pos + (emission i).len) (by omega) hfits
      refine ⟨f, ?_⟩
      rw [tokenizeFrom_of_token fuel pos hdec htok hlimit, hf, except_map_map, emitted_cons_of_some htok]
      rfl

end Rule

/-! ### Texts written out -/

section Written

variable {i : Instr} {is : List Instr}

theorem not_isBlank_of_isDecDigit : ∀ b : Byte, isDecDigit b = true → isBlank b = false := by decide

/-- An instruction that emits a token is a rule's, and no rule's but white space starts with a blank. -/
theorem encodeToken_of_emits (hwf : i.wf = true) (htok : (emission i).tok ≠ none) :
    ∃ b tl, encodeToken i = b :: tl ∧ isBlank b = false := by
  cases i with
  | tEq | tNe | tAnd | tOr | tNot | tPlus | tMinus | tStar | tSlash | tLparen | tRparen => exact ⟨_, _, rfl, rfl⟩
  | tHex | tReg => exact ⟨_, _, rfl, rfl⟩
  | tDec digits =>
    obtain ⟨b, tl, rfl, hb, -⟩ := isRunOf_cons (show isRunOf isDecDigit digits = true from hwf)
    exact ⟨b, tl, rfl, not_isBlank_of_isDecDigit b hb⟩
  | _ => exact absurd rfl htok

/-- Well-formedness of a token does not depend on the machine. -/
theorem wfFor_eq_wf_of_emits (P : Params) (htok : (emission i).tok ≠ none) : i.wfFor P = i.wf := by
  cases i with
  | insnOrdinary | insnBpTrap => exact absurd rfl htok
  | _ => rfl

/-- A token ends before a space. -/
theorem endsBefore_space (htok : (emission i).tok ≠ none) (tl : List Byte) : endsBefore i (0x20 :: tl) = true := by
  cases i with
  | tWs => exact absurd rfl htok
  | tDec => simp [endsBefore, startsWith, isDecDigit]
  | _ => rfl

/-- A list of tokens written out, each followed by a space. -/
def spaced (is : List Instr) : List Byte := is.flatMap fun i => encodeToken i ++ [0x20]

theorem spaced_cons (i : Instr) (is : List Instr) : spaced (i :: is) = encodeToken i ++ 0x20 :: spaced is := by
  simp [spaced]

/-- The rules that match in a list of tokens written out: the tokens' own, and white space after each. -/
def spacedRules (is : List Instr) : List Instr := is.flatMap fun i => [i, .tWs [0x20]]

theorem emitted_spacedRules (is : List Instr) : emitted (spacedRules is) = emitted is := by
  induction is with
  | nil => rfl
  | cons i is ih =>
    have hcons : spacedRules (i :: is) = i :: .tWs [0x20] :: spacedRules is := rfl
    rw [hcons]
    cases htok : (emission i).tok with
    | none => rw [emitted_cons_of_none htok, emitted_cons_of_none htok, emitted_cons_of_none rfl, ih]
    | some t => rw [emitted_cons_of_some htok, emitted_cons_of_some htok, emitted_cons_of_none rfl, ih]

theorem length_emitted (h : ∀ i ∈ is, (emission i).tok ≠ none) : (emitted is).length = is.length := by
  induction is with
  | nil => rfl
  | cons i is ih =>
    rw [List.forall_mem_cons] at h
    obtain ⟨t, ht⟩ := Option.ne_none_iff_exists'.1 h.1
    rw [emitted_cons_of_some ht, List.length_cons, List.length_cons, ih h.2]

theorem lexes_spaced (h : ∀ i ∈ is, i.wf = true ∧ (emission i).tok ≠ none) :
    Lexes (spaced is) (spacedRules is) [] := by
  induction is with
  | nil => exact .stop []
  | cons i is ih =>
    rw [List.forall_mem_cons] at h
    obtain ⟨⟨hwf, htok⟩, htl⟩ := h
    obtain ⟨b, tl, henc, -⟩ := encodeToken_of_emits hwf htok
    have hstart : startsWith isBlank (spaced is) = false := by
      cases is with
      | nil => rfl
      | cons j js =>
        obtain ⟨hwfj, htokj⟩ := htl j List.mem_cons_self
        obtain ⟨c, us, hencj, hc⟩ := encodeToken_of_emits hwfj htokj
        rw [spaced_cons, hencj]
        exact hc
    have htoken : ReadsAs (spaced (i :: is)) i (0x20 :: spaced is) :=
      ⟨hwf, by rw [henc]; exact List.cons_ne_nil b tl, spaced_cons i is, endsBefore_space htok _⟩
    have hspace : ReadsAs (0x20 :: spaced is) (.tWs [0x20]) (spaced is) :=
      ⟨rfl, List.cons_ne_nil _ _, rfl, by simpa [endsBefore] using hstart⟩
    exact .rule _ _ _ _ _ (decodeToken_of_readsAs htoken) (.rule _ _ _ _ _ (decodeToken_of_readsAs hspace) (ih htl))

end Written

/-! ### Literals -/

/-- Digits read left to right from an accumulator, all modulo 2^32. -/
theorem digitsValue_eq_ofDigits {digit : Byte → Word} {value : Byte → Nat} (base acc : Nat) (bs : List Byte)
    (h : ∀ b ∈ bs, digit b = BitVec.ofNat 32 (value b)) :
    digitsValue (BitVec.ofNat 32 base) digit (BitVec.ofNat 32 acc) bs =
      BitVec.ofNat 32 (acc * base ^ bs.length + Nat.ofDigits base (bs.reverse.map value)) := by
  induction bs generalizing acc with
  | nil => simp [digitsValue]
  | cons b bs ih =>
    rw [List.forall_mem_cons] at h
    have hacc : BitVec.ofNat 32 acc * BitVec.ofNat 32 base + digit b = BitVec.ofNat 32 (acc * base + value b) := by
      rw [h.1, BitVec.ofNat_add, BitVec.ofNat_mul]
    rw [digitsValue, hacc, ih _ h.2]
    congr 1
    simp only [List.reverse_cons, List.map_append, List.map_cons, List.map_nil, Nat.ofDigits_append,
      Nat.ofDigits_singleton, List.length_map, List.length_reverse, List.length_cons]
    ring

theorem decDigitValue_eq : ∀ b : Byte, isDecDigit b = true → decDigitValue b = BitVec.ofNat 32 (b.toNat - 0x30) := by
  decide

theorem hexDigitValue_eq : ∀ b : Byte, isHexDigit b = true → hexDigitValue b = BitVec.ofNat 32
    (if b.toNat ≤ 0x39 then b.toNat - 0x30
      else if b.toNat ≤ 0x46 then b.toNat - 0x41 + 10
      else b.toNat - 0x61 + 10) := by
  decide

/-- A literal all of whose digits have a value is their number in the base. -/
theorem digitsValue_zero_eq_ofDigits {p : Byte → Bool} {digit : Byte → Word} {value : Byte → Nat} (base : Nat)
    {bs : List Byte} (h : ∀ b, p b = true → digit b = BitVec.ofNat 32 (value b)) (hbs : isRunOf p bs = true) :
    digitsValue (BitVec.ofNat 32 base) digit 0 bs = BitVec.ofNat 32 (Nat.ofDigits base (bs.reverse.map value)) := by
  have hall := List.all_eq_true.1 (isRunOf_iff.1 hbs).2
  simpa using digitsValue_eq_ofDigits base 0 bs fun b hb => h b (hall b hb)

/-! ### The statements -/

theorem tokenize_of_fits {P : Params} {text : List Byte} (h : overLimit text.length P.exprMaxLen = false) :
    tokenize P text = (tokenizeFrom P text.length 0 0 text).map reclassify := by
  rw [tokenize, if_neg (by simp [h])]
  cases tokenizeFrom P text.length 0 0 text <;> rfl

/-- Settles O33, from the loop along a scan. -/
theorem tokenizeAppliesTheRuleListInTurn : Obligations.TokenizeAppliesTheRuleListInTurn := by
  refine fun P text => ⟨fun hlong => if_pos hlong, fun hfits is rest hlex => ?_⟩
  have hnone : overLimit 0 P.maxTokens = false := by cases P.maxTokens <;> rfl
  rw [tokenize_of_fits hfits]
  refine ⟨fun hover => ?exceeded, fun hcount hrest => ?all, fun hcount hrest hdec => ?stuck⟩
  case exceeded =>
    rw [tokenizeFrom_of_lexes_over hlex le_rfl hnone (by rwa [Nat.zero_add])]
    rfl
  all_goals
    obtain ⟨f, hf⟩ := tokenizeFrom_of_lexes (pos := 0) (count := 0) hlex le_rfl (by rwa [Nat.zero_add])
    rw [hf]
  case all =>
    rw [hrest, tokenizeFrom_nil]
    simp [Except.map, emitted]
  case stuck =>
    rw [tokenizeFrom_of_no_rule P _ _ _ hrest hdec, Nat.zero_add]
    rfl

/-- A text that is scanned to its end, within both limits, tokenizes to what the rules emit. -/
theorem tokenize_of_lexes {P : Params} {text : List Byte} {is : List Instr} (hlex : Lexes text is [])
    (hfits : overLimit text.length P.exprMaxLen = false) (hcount : overLimit (emitted is).length P.maxTokens = false) :
    tokenize P text = .ok (reclassify (emitted is)) :=
  ((tokenizeAppliesTheRuleListInTurn P text).2 hfits is [] hlex).2.1 hcount rfl

/-- Settles O12: the scan of such a text goes token by token. -/
theorem writtenTokensTokenizeBack : Obligations.WrittenTokensTokenizeBack := by
  intro P is htokens hfits hcount
  have htok : ∀ i ∈ is, (emission i).tok ≠ none := fun i hi => (htokens i hi).2
  have hwf : ∀ i ∈ is, i.wf = true ∧ (emission i).tok ≠ none := fun i hi =>
    ⟨(wfFor_eq_wf_of_emits P (htok i hi)).symm.trans (htokens i hi).1, htok i hi⟩
  have := tokenize_of_lexes (P := P) (lexes_spaced hwf) hfits (by rwa [emitted_spacedRules, length_emitted htok])
  rwa [emitted_spacedRules] at this

/-- Settles O39, from the digits of each base. -/
theorem literalsAreTheirDigitsModulo32Bits : Obligations.LiteralsAreTheirDigitsModulo32Bits := by
  refine ⟨fun s digits hs hd => ?dec, fun s digits hs hd => ?hex⟩
  case dec =>
    rw [exec_operandNum, liveOp_live hs, decValue]
    exact congrArg _ (congrArg (fun v => s.respond (.value v)) (digitsValue_zero_eq_ofDigits 10 decDigitValue_eq hd))
  case hex =>
    rw [exec_operandHex, liveOp_live hs, hexValue]
    exact congrArg _ (congrArg (fun v => s.respond (.value v)) (digitsValue_zero_eq_ofDigits 16 hexDigitValue_eq hd))

end Sys2Proof.Proofs

/-! The register file (spec 10_state.md R22 to R31): reading and writing a view are reading and writing a slice of its word,
and a selector or a name is a view. -/

namespace Sys2Proof.Proofs

open Sys2Proof.Machine

/-! ### Slices in the words of the statements -/

/-- A slice read is the extraction, widened with zeros. -/
theorem readSlice_eq_extractLsb' (lo len : Nat) (x : Word) : readSlice lo len x = (x.extractLsb' lo len).setWidth 32 := by
  refine BitVec.eq_of_getLsbD_eq fun i hi => ?_
  rw [readSlice_getLsbD, BitVec.getLsbD_setWidth, BitVec.getLsbD_extractLsb', Bool.and_assoc]

/-- A slice written, by the mask of the bits kept and the mask of the value. -/
theorem writeSlice_eq_masks {lo len : Nat} {keep low : Word} (hkeep : ~~~ sliceMask lo len = keep)
    (hlow : sliceMask lo len = low <<< lo) (x v : Word) :
    writeSlice lo len x v = (x &&& keep) ||| ((v &&& low) <<< lo) := by
  rw [writeSlice, hkeep, hlow, BitVec.shiftLeft_and_distrib]

/-- The same where the slice starts at bit 0. -/
theorem writeSlice_zero_eq_masks {len : Nat} {keep low : Word} (hkeep : ~~~ sliceMask 0 len = keep)
    (hlow : sliceMask 0 len = low) (x v : Word) : writeSlice 0 len x v = (x &&& keep) ||| (v &&& low) := by
  rw [writeSlice_eq_masks (low := low) hkeep (by rw [hlow, BitVec.shiftLeft_zero]), BitVec.shiftLeft_zero]

/-! ### Views read -/

section Views

variable (s : State) (i : Fin 8)

theorem readView_view32 : s.readView (view32 i) = s.regs[i] := readSlice_whole _

theorem readView_view16 : s.readView (view16 i) = (s.regs[i].extractLsb' 0 16).setWidth 32 :=
  readSlice_eq_extractLsb' _ _ _

theorem readView_view8l : s.readView (view8l i) = (s.regs[i].extractLsb' 0 8).setWidth 32 :=
  readSlice_eq_extractLsb' _ _ _

theorem readView_view8h : s.readView (view8h i) = (s.regs[i].extractLsb' 8 8).setWidth 32 :=
  readSlice_eq_extractLsb' _ _ _

theorem readView_viewPc : s.readView viewPc = s.pc := readSlice_whole _

theorem readView_viewFl : s.readView viewFl = s.fl := readSlice_whole _

/-! ### Views written -/

theorem writeView_slot (lo len : Nat) (b : Word) :
    s.writeView ⟨.slot i, lo, len⟩ b = { s with regs := s.regs.set i (writeSlice lo len s.regs[i] b) } := rfl

/-- A view of a slot changes exactly its bits, of that slot alone. -/
theorem getLsbD_writeView_slot {lo len : Nat} (h : lo + len ≤ 32) (b : Word) (j : Fin 8) (n : Nat) :
    ((s.writeView ⟨.slot i, lo, len⟩ b).regs[j]).getLsbD n =
      if j = i ∧ lo ≤ n ∧ n < lo + len then b.getLsbD (n - lo) else (s.regs[j]).getLsbD n := by
  rw [writeView_slot]
  by_cases hj : j = i
  · subst hj
    simp [writeSlice_getLsbD h]
  · have hne : (i : Nat) ≠ (j : Nat) := fun he => hj (Fin.ext he.symm)
    simp [hj, Vector.getElem_set_ne _ _ hne]

end Views

/-! ### Selectors -/

section Selectors

variable {s : State} {sel : BitVec 7} {n : Nat} {v : RegView}

theorem selectorView_slots : ∀ i : Fin 8,
    selectorView (BitVec.ofNat 7 i) = some (view32 i) ∧ selectorView (BitVec.ofNat 7 (0x08 + i)) = some (view16 i) ∧
    selectorView (BitVec.ofNat 7 (0x10 + i)) = some (view8l i) ∧
    selectorView (BitVec.ofNat 7 (0x18 + i)) = some (view8h i) := by
  decide

theorem selectorView_flags : ∀ k ∈ [0, 2, 4, 6, 7, 8, 9, 10, 11],
    selectorView (BitVec.ofNat 7 (0x30 + k)) = some ⟨.fl, k, 1⟩ := by
  decide

theorem selectorView_eq_none : ∀ sel : BitVec 7, 0x22 ≤ sel.toNat →
    (∀ k ∈ [0, 2, 4, 6, 7, 8, 9, 10, 11, 12], sel.toNat ≠ 0x30 + k) → selectorView sel = none := by
  decide

theorem selectorView_of_toNat (hsel : sel.toNat = n) (hview : selectorView (BitVec.ofNat 7 n) = some v) :
    selectorView sel = some v := by
  rwa [← hsel, BitVec.ofNat_toNat, BitVec.setWidth_eq] at hview

theorem exec_cmdRegRead_of_view (hs : s.Accepts) (hsel : sel.toNat = n)
    (hview : selectorView (BitVec.ofNat 7 n) = some v) :
    exec (.cmdRegRead sel) s = .next { s with resp := .value (s.readView v) } := by
  rw [exec_cmdRegRead, hostOp_of_accepts hs, selectorView_of_toNat hsel hview]
  rfl

theorem exec_cmdRegWrite_of_view (hs : s.Accepts) (b : Word) (hsel : sel.toNat = n)
    (hview : selectorView (BitVec.ofNat 7 n) = some v) :
    exec (.cmdRegWrite sel b) s = .next ((s.writeView v b).respond .ok) := by
  rw [exec_cmdRegWrite, hostOp_of_accepts hs, selectorView_of_toNat hsel hview]

theorem exec_cmdRegRead_of_no_view (hs : s.Accepts) (hview : selectorView sel = none) :
    exec (.cmdRegRead sel) s = .next { s with resp := .fail .eBadCommand } := by
  rw [exec_cmdRegRead, hostOp_of_accepts hs, hview]
  rfl

theorem exec_cmdRegWrite_of_no_view (hs : s.Accepts) (b : Word) (hview : selectorView sel = none) :
    exec (.cmdRegWrite sel b) s = .next { s with resp := .fail .eBadCommand } := by
  rw [exec_cmdRegWrite, hostOp_of_accepts hs, hview]
  rfl

end Selectors

/-! ### Register names -/

/-- `REGNAMES` with its names as strings (30_encoding.md R80). -/
def regTable : List (String × RegView) :=
  [("eax", view32 0), ("ecx", view32 1), ("edx", view32 2), ("ebx", view32 3), ("esp", view32 4), ("ebp", view32 5),
   ("esi", view32 6), ("edi", view32 7), ("ax", view16 0), ("cx", view16 1), ("dx", view16 2), ("bx", view16 3),
   ("sp", view16 4), ("bp", view16 5), ("si", view16 6), ("di", view16 7), ("al", view8l 0), ("cl", view8l 1),
   ("dl", view8l 2), ("bl", view8l 3), ("ah", view8h 0), ("ch", view8h 1), ("dh", view8h 2), ("bh", view8h 3),
   ("eip", viewPc), ("eflags", viewFl)]

theorem regNames_eq_regTable : regNames = regTable.map fun p => (asciiText p.1, p.2) := by decide

/-- No name stands twice in the table. -/
theorem lookupName_regTable : ∀ p ∈ regTable, lookupName (asciiText p.1) regNames = some p.2 := by decide

theorem lookupName_eq_none {name : List Byte} {l : List (List Byte × RegView)} (h : ∀ p ∈ l, p.1 ≠ name) :
    lookupName name l = none := by
  induction l with
  | nil => rfl
  | cons p l ih =>
    rw [List.forall_mem_cons] at h
    rw [lookupName, if_neg h.1, ih h.2]

theorem regValue_of_view {s : State} {name : List Byte} {v : RegView} (h : lookupName name regNames = some v) :
    regValue s name = .ok (s.readView v) := by
  rw [regValue, h]

theorem regValue_of_unknown {s : State} {name : List Byte} (h : lookupName name regNames = none) :
    regValue s name = .fail .eUnknownReg := by
  rw [regValue, h]

/-! ### The statements -/

/-- Settles O17, selector by selector. -/
theorem regReadDeliversTheSelectedBits : Obligations.RegReadDeliversTheSelectedBits := by
  refine ⟨fun _ _ _ => rfl, fun s sel hs => ⟨fun i => ?slot, fun h => ?pc, fun h => ?fl, fun k hk h => ?flag, fun h => ?iopl,
    fun hle hother => exec_cmdRegRead_of_no_view hs (selectorView_eq_none sel hle hother)⟩⟩
  case slot =>
    obtain ⟨h32, h16, h8l, h8h⟩ := selectorView_slots i
    refine ⟨fun h => ?_, fun h => ?_, fun h => ?_, fun h => ?_⟩
    · rw [exec_cmdRegRead_of_view hs h h32, readView_view32]
    · rw [exec_cmdRegRead_of_view hs h h16, readView_view16]
    · rw [exec_cmdRegRead_of_view hs h h8l, readView_view8l]
    · rw [exec_cmdRegRead_of_view hs h h8h, readView_view8h]
  case pc => rw [exec_cmdRegRead_of_view hs h (v := viewPc) rfl, readView_viewPc]
  case fl => rw [exec_cmdRegRead_of_view hs h (v := viewFl) rfl, readView_viewFl]
  case flag =>
    rw [exec_cmdRegRead_of_view hs h (selectorView_flags k hk), State.readView, readSlice_eq_extractLsb']
    rfl
  case iopl =>
    rw [exec_cmdRegRead_of_view hs h (v := viewIopl) rfl, State.readView, readSlice_eq_extractLsb']
    rfl

/-- Settles O18, selector by selector. -/
theorem regWriteReplacesExactlyTheSelectedBits : Obligations.RegWriteReplacesExactlyTheSelectedBits := by
  refine ⟨fun _ _ _ => rfl, fun s sel b hs => ⟨fun i => ?slot, fun h => ?pc, fun h => ?fl, fun k hk h => ?flag,
    fun h => ?iopl, fun hle hother => exec_cmdRegWrite_of_no_view hs b (selectorView_eq_none sel hle hother)⟩⟩
  case slot =>
    obtain ⟨h32, h16, h8l, h8h⟩ := selectorView_slots i
    refine ⟨fun h => ?_, fun h => ?_, fun h => ?_, fun h => ?_⟩
    · rw [exec_cmdRegWrite_of_view hs b h h32, view32, writeView_slot, writeSlice_whole]
      rfl
    · rw [exec_cmdRegWrite_of_view hs b h h16, view16, writeView_slot,
        writeSlice_zero_eq_masks (keep := 0xFFFF0000) (low := 0xFFFF) (by decide) (by decide)]
      rfl
    · rw [exec_cmdRegWrite_of_view hs b h h8l, view8l, writeView_slot,
        writeSlice_zero_eq_masks (keep := 0xFFFFFF00) (low := 0xFF) (by decide) (by decide)]
      rfl
    · rw [exec_cmdRegWrite_of_view hs b h h8h, view8h, writeView_slot,
        writeSlice_eq_masks (keep := 0xFFFF00FF) (low := 0xFF) (by decide) (by decide)]
      rfl
  case pc =>
    rw [exec_cmdRegWrite_of_view hs b h (v := viewPc) rfl, State.writeView, viewPc, writeSlice_whole]
    rfl
  case fl =>
    rw [exec_cmdRegWrite_of_view hs b h (v := viewFl) rfl, State.writeView, viewFl, writeSlice_whole]
    rfl
  case flag =>
    refine ⟨writeSlice k 1 s.fl b, exec_cmdRegWrite_of_view hs b h (selectorView_flags k hk), fun j => ?_⟩
    have hinside : k + 1 ≤ 32 := selectorView_inside (selectorView_flags k hk)
    rw [writeSlice_getLsbD hinside]
    by_cases hj : j = k
    · subst hj
      simp
    · rw [if_neg (by omega), if_neg hj]
  case iopl =>
    rw [exec_cmdRegWrite_of_view hs b h (v := viewIopl) rfl, State.writeView, viewIopl, ioplLo,
      writeSlice_eq_masks (keep := 0xFFFFCFFF) (low := 3) (by decide) (by decide)]
    rfl

/-- Settles O19, from what a slice of a slot reads and writes. -/
theorem viewsAliasOneStorage : Obligations.ViewsAliasOneStorage := by
  refine fun s i b => ⟨readView_view32 s i, readView_view16 s i, readView_view8l s i, readView_view8h s i, ?_⟩
  simp only [List.forall_mem_cons, List.not_mem_nil, IsEmpty.forall_iff, implies_true, and_true]
  exact ⟨⟨rfl, getLsbD_writeView_slot s i (by decide) b⟩, ⟨rfl, getLsbD_writeView_slot s i (by decide) b⟩,
    ⟨rfl, getLsbD_writeView_slot s i (by decide) b⟩, ⟨rfl, getLsbD_writeView_slot s i (by decide) b⟩⟩

/-- Settles O40: the statement's table is `REGNAMES`, each name with its view read. -/
theorem registerNamesReadTheirViews : Obligations.RegisterNamesReadTheirViews := by
  intro s hs half low high names
  have hnames : names = regTable.map fun p => (p.1, s.readView p.2) := by
    simp only [regTable, List.map_cons, List.map_nil, readView_view32, readView_view16, readView_view8l, readView_view8h,
      readView_viewPc, readView_viewFl]
    rfl
  rw [hnames]
  refine ⟨fun p hp => ?known, fun name hname => ?unknown⟩
  all_goals rw [exec_operandReg, liveOp_live hs]
  case known =>
    obtain ⟨q, hq, rfl⟩ := List.mem_map.1 hp
    rw [regValue_of_view (lookupName_regTable q hq)]
    rfl
  case unknown =>
    have hnone : lookupName name regNames = none := by
      refine lookupName_eq_none fun p hp he => ?_
      rw [regNames_eq_regTable] at hp
      obtain ⟨q, hq, rfl⟩ := List.mem_map.1 hp
      exact hname _ (List.mem_map.2 ⟨q, hq, rfl⟩) he.symm
    rw [regValue_of_unknown hnone]
    rfl

end Sys2Proof.Proofs

/-! Memory through the translator (spec 40_translator_ops.md R106, 41_execution_loop.md R120, 45_host_commands.md R235,
43_expression_evaluator.md R183): what is read is fixed by the bytes, and a read by its halves; `Exec`, `CMD_EXAMINE` and
unary `*` add nothing to the access itself. -/

namespace Sys2Proof.Proofs

open Sys2Proof.Machine

/-! ### Reading back, and reading by halves -/

/-- `n` bytes that hold the low bytes of `v`, least significant first, read as `v` modulo `256 ^ n`. -/
theorem getLE_of_bytes {m0 : Nat → Byte} {m : Memory} {a n v : Nat}
    (h : ∀ k < n, Memory.get m0 m (a + k) = BitVec.ofNat 8 (v / 256 ^ k)) : Memory.getLE m0 m a n = v % 256 ^ n := by
  induction n generalizing a v with
  | zero => simp [Memory.getLE, Nat.mod_one]
  | succ n ih =>
    have hfirst : (Memory.get m0 m a).toNat = v % 256 := by simpa using congrArg BitVec.toNat (h 0 n.succ_pos)
    have hrest : Memory.getLE m0 m (a + 1) n = v / 256 % 256 ^ n := ih fun k hk => by
      rw [Nat.add_assoc, Nat.add_comm 1 k, h (k + 1) (Nat.succ_lt_succ hk), Nat.div_div_eq_div_mul, pow_succ']
    rw [Memory.getLE, hfirst, hrest, pow_succ', Nat.mod_mul]

theorem getLE_putLE {m0 : Nat → Byte} {cap a n v : Nat} {m : Memory} (h : Memory.wfFrom m0 cap 0 m = true)
    (hcap : a + n ≤ cap) : Memory.getLE m0 (Memory.putLE m0 a n v m) a n = v % 256 ^ n :=
  getLE_of_bytes fun k hk => by rw [Memory.get_putLE h hcap, if_pos (by omega), Nat.add_sub_cancel_left]

/-- A wide value is its low part and its high part at its weight. -/
theorem getLE_add (m0 : Nat → Byte) (m : Memory) (a n k : Nat) :
    Memory.getLE m0 m a (n + k) = Memory.getLE m0 m a n + 256 ^ n * Memory.getLE m0 m (a + n) k := by
  simp only [Memory.getLE_eq_sum, Finset.sum_range_add, Finset.mul_sum]
  congr 1
  refine Finset.sum_congr rfl fun j _ => ?_
  rw [Nat.add_assoc, pow_add]
  ring

theorem ofNat_mod_pow_bytes (v : Word) (w : Width) :
    BitVec.ofNat 32 (v.toNat % 256 ^ w.bytes) = (v.setWidth (8 * w.bytes)).setWidth 32 := by
  refine BitVec.eq_of_toNat_eq ?_
  rw [BitVec.toNat_ofNat, BitVec.toNat_setWidth, BitVec.toNat_setWidth, pow_mul]
  rfl

theorem capacity_le (P : Params) : P.capacity ≤ 2 ^ 32 := P.capacityLast.isLt

/-- An address inside the store that is moved inside the store does not wrap. -/
theorem toNat_add_of_inside {P : Params} {a : Word} {n : Nat} (hn : n < 2 ^ 32) (h : a.toNat + n < P.capacity) :
    (a + BitVec.ofNat 32 n).toNat = a.toNat + n := by
  have := capacity_le P
  rw [BitVec.toNat_add, BitVec.toNat_ofNat, Nat.mod_eq_of_lt hn, Nat.mod_eq_of_lt (by omega)]

/-! ### `Exec` -/

section Exec

variable {P : Params} {m m' : Memory} {k : AddrKind} {a v : Word} {w : Width} {c : FatalCause}

theorem hostReadOp_eq_error (h : hostReadOp P m a w = .error c) :
    c = .oobAccess a w false ∧ P.capacity < a.toNat + w.bytes := by
  rcases Nat.lt_or_ge P.capacity (a.toNat + w.bytes) with hout | hin
  · rw [hostReadOp_error hout] at h
    cases h
    exact ⟨rfl, hout⟩
  · rw [hostReadOp_ok hin] at h
    cases h

theorem hostWriteOp_eq_error (h : hostWriteOp P m a w v = .error c) :
    c = .oobAccess a w true ∧ P.capacity < a.toNat + w.bytes := by
  rcases Nat.lt_or_ge P.capacity (a.toNat + w.bytes) with hout | hin
  · rw [hostWriteOp_error hout] at h
    cases h
    exact ⟨rfl, hout⟩
  · rw [hostWriteOp_ok hin] at h
    cases h

/-- A write that succeeds leaves every byte beyond the store as it was. -/
theorem get_of_hostWriteOp_ok (hm : Memory.wf P m = true) (h : hostWriteOp P m a w v = .ok m') {b : Nat}
    (hb : P.capacity ≤ b) : Memory.get P.mem0 m' b = Memory.get P.mem0 m b := by
  rcases Nat.lt_or_ge P.capacity (a.toNat + w.bytes) with hout | hin
  · rw [hostWriteOp_error hout] at h
    cases h
  · rw [hostWriteOp_ok hin] at h
    cases h
    rw [get_putLE_word hm hin, if_neg (by omega)]

theorem runProg_read_ok {f : Word → ExecProg} {x : Word} (h : readAt P m k a w = .ok x) :
    runProg P (.read k a w f) m = runProg P (f x) m := by
  rw [runProg, h]

theorem runProg_read_error {f : Word → ExecProg} (h : readAt P m k a w = .error c) :
    runProg P (.read k a w f) m = .fatal c := by
  rw [runProg, h]

theorem runProg_write_ok {p : ExecProg} (h : writeAt P m k a w v = .ok m') :
    runProg P (.write k a w v p) m = runProg P p m' := by
  rw [runProg, h]

theorem runProg_write_error {p : ExecProg} (h : writeAt P m k a w v = .error c) :
    runProg P (.write k a w v p) m = .fatal c := by
  rw [runProg, h]

/-- Where `Exec` is done, nothing beyond the store has changed. -/
theorem get_of_runProg_done {p : ExecProg} {q : Option HaltReq} {d : Done} (hm : Memory.wf P m = true)
    (h : runProg P p m = .done q d) {b : Nat} (hb : P.capacity ≤ b) :
    Memory.get P.mem0 d.mem b = Memory.get P.mem0 m b := by
  induction p generalizing m with
  | fault => cases h
  | done len regs pc fl req =>
    cases h
    rfl
  | read k a w cont ih =>
    cases hr : readAt P m k a w with
    | ok x => exact ih x hm ((runProg_read_ok hr).symm.trans h)
    | error c => cases (runProg_read_error hr).symm.trans h
  | write k a w v cont ih =>
    cases hw : writeAt P m k a w v with
    | ok m' =>
      have hhost : hostWriteOp P m a w v = .ok m' := by rwa [writeAt_eq_host] at hw
      exact (ih (hostWriteOp_wf hm hhost) ((runProg_write_ok hw).symm.trans h)).trans
        (get_of_hostWriteOp_ok hm hhost hb)
    | error c => cases (runProg_write_error hw).symm.trans h

/-- `Exec` is fatal only for an access out of bounds. -/
theorem runProg_eq_fatal {p : ExecProg} (h : runProg P p m = .fatal c) :
    ∃ a w b, c = .oobAccess a w b ∧ P.capacity < a.toNat + w.bytes := by
  induction p generalizing m with
  | fault => cases h
  | done => cases h
  | read k a w cont ih =>
    cases hr : readAt P m k a w with
    | ok x => exact ih x ((runProg_read_ok hr).symm.trans h)
    | error e =>
      cases (runProg_read_error hr).symm.trans h
      rw [readAt_eq_host] at hr
      exact ⟨a, w, false, hostReadOp_eq_error hr⟩
  | write k a w v cont ih =>
    cases hw : writeAt P m k a w v with
    | ok m' => exact ih ((runProg_write_ok hw).symm.trans h)
    | error e =>
      cases (runProg_write_error hw).symm.trans h
      rw [writeAt_eq_host] at hw
      exact ⟨a, w, true, hostWriteOp_eq_error hw⟩

end Exec

/-! ### Four bytes -/

section Dwords

variable {P : Params} {m : Memory} {addr r : Word} {n : Nat} {c : FatalCause}

/-- The dword at an address, as `MemRead` delivers it in bounds. -/
def dwordAt (P : Params) (m : Memory) (a : Word) : Word := BitVec.ofNat 32 (Memory.getLE P.mem0 m a.toNat 4)

theorem dwordAt_eq_sum (P : Params) (s : State) (a : Word) :
    dwordAt P s.mem a = BitVec.ofNat 32 (∑ j ∈ Finset.range 4, (s.byteAt P (a.toNat + j)).toNat * 2 ^ (8 * j)) := by
  rw [dwordAt, getLE_eq_sum_byteAt]

theorem memReadOp_four_ok (h : r.toNat + 4 ≤ P.capacity) : memReadOp P m r .four = .ok (dwordAt P m r) :=
  hostReadOp_ok (w := .four) h

theorem memReadOp_four_error (h : P.capacity < r.toNat + 4) :
    memReadOp P m r .four = .error (.oobAccess r .four false) :=
  hostReadOp_error (w := .four) h

theorem derefValue_ok (h : r.toNat + 4 ≤ P.capacity) : derefValue P m r = .ok (dwordAt P m r) := by
  rw [derefValue, memReadOp_four_ok h]

theorem derefValue_fatal (h : P.capacity < r.toNat + 4) : derefValue P m r = .fatal (.oobAccess r .four false) := by
  rw [derefValue, memReadOp_four_error h]

/-- The `k`th dword's address, the address wrapping. -/
def dwordAddr (addr : Word) (k : Nat) : Word := addr + BitVec.ofNat 32 (4 * k)

theorem dwordAddr_zero (addr : Word) : dwordAddr addr 0 = addr := BitVec.add_zero addr

theorem dwordAddr_succ (addr : Word) (k : Nat) : dwordAddr addr (k + 1) = dwordAddr (addr + 4) k := by
  rw [dwordAddr, dwordAddr, BitVec.add_assoc]
  congr 1
  rw [Nat.mul_succ, Nat.add_comm, BitVec.ofNat_add]
  rfl

theorem examineFrom_succ_of_ok {v : Word} (h : memReadOp P m addr .four = .ok v) :
    examineFrom P m (n + 1) addr = (examineFrom P m n (addr + 4)).map (v :: ·) := by
  rw [examineFrom, h]
  cases examineFrom P m n (addr + 4) <;> rfl

theorem examineFrom_succ_of_error (h : memReadOp P m addr .four = .error c) :
    examineFrom P m (n + 1) addr = .error c := by
  rw [examineFrom, h]

theorem examineFrom_ok (h : ∀ k < n, (dwordAddr addr k).toNat + 4 ≤ P.capacity) :
    examineFrom P m n addr = .ok ((List.range n).map fun k => dwordAt P m (dwordAddr addr k)) := by
  induction n generalizing addr with
  | zero => rfl
  | succ n ih =>
    have hfirst : addr.toNat + 4 ≤ P.capacity := by simpa only [dwordAddr_zero] using h 0 n.succ_pos
    have hrest : ∀ k < n, (dwordAddr (addr + 4) k).toNat + 4 ≤ P.capacity := fun k hk => by
      simpa only [dwordAddr_succ] using h (k + 1) (Nat.succ_lt_succ hk)
    rw [examineFrom_succ_of_ok (memReadOp_four_ok hfirst), ih hrest, List.range_succ_eq_map, List.map_cons, List.map_map]
    simp only [Except.map, Function.comp_def, dwordAddr_zero, Nat.succ_eq_add_one, dwordAddr_succ]

/-- The first dword out of bounds is fatal. -/
theorem examineFrom_error {k : Nat} (hk : k < n) (hbefore : ∀ j < k, (dwordAddr addr j).toNat + 4 ≤ P.capacity)
    (hout : P.capacity < (dwordAddr addr k).toNat + 4) :
    examineFrom P m n addr = .error (.oobAccess (dwordAddr addr k) .four false) := by
  induction k generalizing n addr with
  | zero =>
    obtain ⟨n, rfl⟩ := Nat.exists_eq_add_one_of_ne_zero hk.ne'
    rw [dwordAddr_zero] at hout ⊢
    exact examineFrom_succ_of_error (memReadOp_four_error hout)
  | succ k ih =>
    obtain ⟨n, rfl⟩ := Nat.exists_eq_add_one_of_ne_zero (Nat.ne_zero_of_lt hk)
    have hfirst : addr.toNat + 4 ≤ P.capacity := by simpa only [dwordAddr_zero] using hbefore 0 k.succ_pos
    rw [dwordAddr_succ] at hout ⊢
    rw [examineFrom_succ_of_ok (memReadOp_four_ok hfirst), ih (Nat.lt_of_succ_lt_succ hk)
      (fun j hj => by simpa only [dwordAddr_succ] using hbefore (j + 1) (Nat.succ_lt_succ hj)) hout]
    rfl

end Dwords

/-! ### The statements -/

/-- Settles O15, from the bytes after a write and the split of a wide read. -/
theorem translatorLaws : Obligations.TranslatorLaws := by
  intro P m a v w j k hm
  simp only [readAt_eq_host, writeAt_eq_host, and_self, and_true]
  refine ⟨fun hin => ⟨_, hostWriteOp_ok hin, ?back, fun b hb => ?frame⟩, fun hin => ?four, fun hin => ?two⟩
  case back => rw [hostReadOp_ok hin, getLE_putLE hm hin, ofNat_mod_pow_bytes]
  case frame => rw [get_putLE_word hm hin, if_neg (by omega)]
  case four =>
    have hhigh : (a + 2).toNat = a.toNat + 2 := toNat_add_of_inside (P := P) (n := 2) (by decide) (by omega)
    refine ⟨_, _, hostReadOp_ok (w := .two) (by simp only [Width.bytes]; omega),
      hostReadOp_ok (w := .two) (by simp only [Width.bytes]; omega), ?_⟩
    rw [hostReadOp_ok (w := .four) hin, hhigh]
    simp only [Width.bytes]
    rw [getLE_add _ _ _ 2 2, BitVec.ofNat_add, BitVec.ofNat_mul]
    rfl
  case two =>
    have hhigh : (a + 1).toNat = a.toNat + 1 := toNat_add_of_inside (P := P) (n := 1) (by decide) (by omega)
    refine ⟨_, _, hostReadOp_ok (w := .one) (by simp only [Width.bytes]; omega),
      hostReadOp_ok (w := .one) (by simp only [Width.bytes]; omega), ?_⟩
    rw [hostReadOp_ok (w := .two) hin, hhigh]
    simp only [Width.bytes]
    rw [getLE_add _ _ _ 1 1, BitVec.ofNat_add, BitVec.ofNat_mul]
    rfl

/-- Settles O16, by induction on the tree of accesses. -/
theorem execReachesMemoryOnlyInBounds : Obligations.ExecReachesMemoryOnlyInBounds := by
  refine ⟨fun P prog m hm => ⟨fun q d h => ⟨runProg_wf hm h, fun a ha => get_of_runProg_done hm h ha⟩,
    fun c h => runProg_eq_fatal h⟩, fun P m k a v w f p => ⟨fun hin => ?inside, fun hout => ?outside⟩,
    fun P m len regs pc fl q => ⟨rfl, rfl⟩⟩
  case inside =>
    have hread := (readAt_eq_host P m k a w).trans (hostReadOp_ok hin)
    have hwrite := (writeAt_eq_host P m k a w v).trans (hostWriteOp_ok hin)
    exact ⟨⟨_, hread, runProg_read_ok hread⟩, ⟨_, hwrite, runProg_write_ok hwrite⟩⟩
  case outside =>
    exact ⟨runProg_read_error ((readAt_eq_host P m k a w).trans (hostReadOp_error hout)),
      runProg_write_error ((writeAt_eq_host P m k a w v).trans (hostWriteOp_error hout))⟩

/-- Settles O21, dword by dword. -/
theorem examineDeliversConsecutiveDwords : Obligations.ExamineDeliversConsecutiveDwords := by
  intro s n addr hs at'
  have hexec : exec (.cmdExamine n addr) s =
      .next (s.deliverDump (examineFrom Config.machine s.mem n.toNat addr)) := by
    rw [exec_cmdExamine, hostOp_of_accepts hs]
  refine ⟨fun hin => ?inside, fun k hk hbefore hout => ?outside⟩
  case inside =>
    rw [hexec, examineFrom_ok hin]
    simp only [dwordAt_eq_sum]
    rfl
  case outside =>
    rw [hexec, examineFrom_error hk hbefore hout]
    exact ⟨_, rfl, State.raiseFatal_fatal s _⟩

/-- Settles O38, from the one four-byte read. -/
theorem derefReadsFourBytes : Obligations.DerefReadsFourBytes := by
  intro s r hs
  rw [exec_xopDeref, liveOp_live hs]
  refine ⟨fun hin => ?inside, fun hout => ?outside⟩
  case inside =>
    rw [derefValue_ok hin, dwordAt_eq_sum]
    rfl
  case outside =>
    rw [derefValue_fatal hout]
    exact ⟨_, rfl, State.raiseFatal_fatal s _⟩

end Sys2Proof.Proofs

/-! The evaluator (spec 43_expression_evaluator.md): the operators' values, the rules of `Evaluate` and of failures and
fatal conditions (R170, R178), what an evaluation depends on (R194) and the one way it is fatal (R180). -/

namespace Sys2Proof.Proofs

open Sys2Proof.Machine

/-! ### The operators' values -/

section Values

variable (a b : Word)

theorem truth_beq : truth (a == b) = if a = b then 1 else 0 := by
  by_cases h : a = b <;> simp [truth, h]

theorem notValue_eq : notValue a = if a = 0 then 1 else 0 := truth_beq a 0

theorem eqValue_eq : eqValue a b = if a = b then 1 else 0 := truth_beq a b

theorem neValue_eq : neValue a b = if a = b then 0 else 1 := by
  by_cases h : a = b <;> simp [neValue, truth, h]

theorem andValue_eq : andValue a b = if a ≠ 0 ∧ b ≠ 0 then 1 else 0 := by
  by_cases ha : a = 0 <;> by_cases hb : b = 0 <;> simp [andValue, truth, ha, hb]

theorem orValue_eq : orValue a b = if a ≠ 0 ∨ b ≠ 0 then 1 else 0 := by
  by_cases ha : a = 0 <;> by_cases hb : b = 0 <;> simp [orValue, truth, ha, hb]

theorem negValue_eq : negValue a = BitVec.ofNat 32 (2 ^ 32 - a.toNat) := by
  refine BitVec.eq_of_toNat_eq ?_
  rw [negValue, BitVec.toNat_sub, BitVec.toNat_ofNat]
  rfl

theorem mulValue_eq : mulValue a b = BitVec.ofNat 32 (a.toNat * b.toNat) := by
  refine BitVec.eq_of_toNat_eq ?_
  rw [mulValue, BitVec.toNat_mul, BitVec.toNat_ofNat]

theorem addValue_eq : addValue a b = BitVec.ofNat 32 (a.toNat + b.toNat) := by
  refine BitVec.eq_of_toNat_eq ?_
  rw [addValue, BitVec.toNat_add, BitVec.toNat_ofNat]

theorem subValue_eq : subValue a b = BitVec.ofInt 32 (a.toNat - b.toNat) := by
  refine BitVec.eq_of_toNat_eq ?_
  have ha := a.isLt
  have hb := b.isLt
  rw [subValue, BitVec.toNat_sub, BitVec.toNat_ofInt]
  omega

theorem divValue_zero : divValue a 0 = .fail .eDivZero := rfl

variable {b} in
theorem divValue_of_ne_zero (h : b ≠ 0) : divValue a b = .ok (BitVec.ofNat 32 (a.toNat / b.toNat)) := by
  rw [divValue, if_neg h]
  congr 1
  refine BitVec.eq_of_toNat_eq ?_
  rw [BitVec.toNat_udiv, BitVec.toNat_ofNat, Nat.mod_eq_of_lt ((Nat.div_le_self _ _).trans_lt a.isLt)]

end Values

/-! ### The rules of `Evaluate`, and of outcomes combined -/

section Rules

variable {P : Params} {s : State} {text : List Byte}

theorem evaluate_of_error {c : FailCode} (h : tokenize P text = .error c) : evaluate P s text = .fail c := by
  rw [evaluate, h]

theorem evaluate_of_no_token (h : tokenize P text = .ok []) : evaluate P s text = .fail .eInvalid := by
  rw [evaluate, h]

theorem evaluate_of_tokens {ts : List Token} (h : tokenize P text = .ok ts) (hne : ts ≠ []) :
    evaluate P s text = evalTokens P s ts := by
  cases ts with
  | nil => exact absurd rfl hne
  | cons t ts => rw [evaluate, h]

theorem operandValue_of_other (s : State) (body : List Byte) {k : TokenKind} (hk : k ∉ [TokenKind.num, .hex, .reg]) :
    operandValue s ⟨k, body⟩ = .fail .eInvalid := by
  cases k
  case num | hex | reg => simp at hk
  all_goals rfl

end Rules

section Combine

variable {f : Word → Word → Res Word} {a b : Res Word} {x y : Word} {c d : FatalCause} {e : FailCode}

theorem combine_left_fatal : combine f (.fatal c) b = .fatal c := rfl

theorem combine_right_fatal (ha : ∀ d, a ≠ .fatal d) : combine f a (.fatal c) = .fatal c := by
  cases a with
  | ok x => rfl
  | fail e => rfl
  | fatal d => exact absurd rfl (ha d)

theorem combine_left_fail (hb : ∀ d, b ≠ .fatal d) : combine f (.fail e) b = .fail e := by
  cases b with
  | ok y => rfl
  | fail e => rfl
  | fatal d => exact absurd rfl (hb d)

end Combine

/-! ### What an evaluation depends on -/

section Congr

variable {P : Params} {s s' : State} {ts : List Token}

theorem load_congr (hregs : s.regs = s'.regs) (hpc : s.pc = s'.pc) (hfl : s.fl = s'.fl) (w : Store) :
    s.load w = s'.load w := by
  cases w with
  | slot i => simp only [State.load, hregs]
  | pc => exact hpc
  | fl => exact hfl

theorem operandValue_congr (hload : ∀ w, s.load w = s'.load w) (t : Token) : operandValue s t = operandValue s' t := by
  simp only [operandValue, regValue, State.readView, hload]

theorem evalSplit_congr_mem (hmem : s.mem = s'.mem) (f : List Token → Res Word) :
    evalSplit P s f ts = evalSplit P s' f ts := by
  simp only [evalSplit, hmem]

theorem evalTokens_congr (hload : ∀ w, s.load w = s'.load w) (hmem : s.mem = s'.mem) :
    evalTokens P s ts = evalTokens P s' ts := by
  induction hn : ts.length using Nat.strong_induction_on generalizing ts with
  | _ n ih =>
  subst hn
  match ts with
  | [] => rfl
  | [t] => exact operandValue_congr hload t
  | t :: u :: us =>
    have hlong : 2 ≤ (t :: u :: us).length := by simp
    rw [evalTokens_eq_evalSplit hlong, evalTokens_eq_evalSplit hlong, evalSplit_congr_mem hmem]
    exact evalSplit_congr hlong fun vs hvs => ih vs.length hvs rfl

theorem evaluate_congr (hload : ∀ w, s.load w = s'.load w) (hmem : s.mem = s'.mem) (text : List Byte) :
    evaluate P s text = evaluate P s' text := by
  simp only [evaluate, evalTokens_congr hload hmem]

end Congr

/-! ### The one way an evaluation is fatal -/

section Fatal

variable {P : Params} {s : State} {m : Memory} {ts : List Token} {c : FatalCause}

/-- The result is no fatal condition but a four-byte read out of bounds. -/
def FatalOnlyByDeref (P : Params) (r : Res Word) : Prop :=
  ∀ c, r = .fatal c → ∃ a : Word, c = .oobAccess a .four false ∧ P.capacity < a.toNat + 4

theorem fatalOnlyByDeref_fail (c : FailCode) : FatalOnlyByDeref P (.fail c) := nofun

theorem fatalOnlyByDeref_derefValue (r : Word) : FatalOnlyByDeref P (derefValue P m r) := by
  intro c h
  rcases Nat.lt_or_ge P.capacity (r.toNat + 4) with hout | hin
  · rw [derefValue_fatal hout] at h
    cases h
    exact ⟨r, rfl, hout⟩
  · rw [derefValue_ok hin] at h
    cases h

theorem fatalOnlyByDeref_unaryValue (k : TokenKind) (r : Word) : FatalOnlyByDeref P (unaryValue P m k r) := by
  cases k
  case deref => exact fatalOnlyByDeref_derefValue r
  all_goals exact nofun

theorem divValue_ne_fatal (a b : Word) : divValue a b ≠ .fatal c := by
  by_cases hb : b = 0
  · rw [hb, divValue_zero]
    nofun
  · rw [divValue_of_ne_zero a hb]
    nofun

theorem fatalOnlyByDeref_binaryValue (k : TokenKind) (a b : Word) : FatalOnlyByDeref P (binaryValue k a b) := by
  cases k
  case div => exact fun c h => absurd h (divValue_ne_fatal a b)
  all_goals exact nofun

theorem fatalOnlyByDeref_applyUnary {f : Word → Res Word} {r : Res Word} (hf : ∀ x, FatalOnlyByDeref P (f x))
    (hr : FatalOnlyByDeref P r) : FatalOnlyByDeref P (applyUnary f r) := by
  cases r with
  | ok x => exact hf x
  | fail c => exact fatalOnlyByDeref_fail c
  | fatal c => exact hr

theorem fatalOnlyByDeref_combine {f : Word → Word → Res Word} {a b : Res Word} (hf : ∀ x y, FatalOnlyByDeref P (f x y))
    (ha : FatalOnlyByDeref P a) (hb : FatalOnlyByDeref P b) : FatalOnlyByDeref P (combine f a b) := by
  cases b with
  | fatal c =>
    cases a with
    | fatal d => exact ha
    | ok x => exact hb
    | fail e => exact hb
  | ok y =>
    cases a with
    | fatal d => exact ha
    | ok x => exact hf x y
    | fail e => exact fatalOnlyByDeref_fail e
  | fail c =>
    cases a with
    | fatal d => exact ha
    | ok x => exact fatalOnlyByDeref_fail c
    | fail e => exact fatalOnlyByDeref_fail e

theorem regValue_ne_fatal (name : List Byte) : regValue s name ≠ .fatal c := by
  cases h : lookupName name regNames with
  | some v =>
    rw [regValue_of_view h]
    nofun
  | none =>
    rw [regValue_of_unknown h]
    nofun

theorem fatalOnlyByDeref_operandValue (t : Token) : FatalOnlyByDeref P (operandValue s t) := by
  obtain ⟨k, text⟩ := t
  cases k
  case reg => exact fun c h => absurd h (regValue_ne_fatal (text.drop 1))
  all_goals exact nofun

theorem fatalOnlyByDeref_applyAt {f : List Token → Res Word} (hf : ∀ us, us.length < ts.length → FatalOnlyByDeref P (f us))
    (op : Nat) : FatalOnlyByDeref P (applyAt P m f ts op) := by
  cases hget : ts[op]? with
  | none =>
    rw [applyAt, hget]
    exact fatalOnlyByDeref_fail _
  | some t =>
    have hlt : op < ts.length := (List.getElem?_eq_some_iff.1 hget).1
    cases ht : isUnary t.kind with
    | true =>
      by_cases hop : op = 0
      · subst hop
        rw [applyAt_unary_first hget ht]
        exact fatalOnlyByDeref_applyUnary (fatalOnlyByDeref_unaryValue _) (hf _ (by rw [List.length_drop]; omega))
      · rw [applyAt_unary_behind hget ht hop]
        exact fatalOnlyByDeref_fail _
    | false =>
      rw [applyAt_of_binary hget ht]
      exact fatalOnlyByDeref_combine (fatalOnlyByDeref_binaryValue _) (hf _ (by rw [List.length_take]; omega))
        (hf _ (by rw [List.length_drop]; omega))

theorem fatalOnlyByDeref_evalSplit {f : List Token → Res Word} (hlong : 2 ≤ ts.length)
    (hf : ∀ us, us.length < ts.length → FatalOnlyByDeref P (f us)) : FatalOnlyByDeref P (evalSplit P s f ts) := by
  cases hp : parenCheck ts with
  | bad =>
    rw [evalSplit_bad hp]
    exact fatalOnlyByDeref_fail _
  | wrapped =>
    rw [evalSplit_wrapped hp]
    exact hf _ (by rw [List.length_dropLast, List.length_tail]; omega)
  | openRange =>
    cases hd : dominant ts with
    | none =>
      rw [evalSplit_noOperator hp hd]
      exact fatalOnlyByDeref_fail _
    | some op =>
      rw [evalSplit_operator hp hd]
      exact fatalOnlyByDeref_applyAt hf op

theorem fatalOnlyByDeref_evalTokens (ts : List Token) : FatalOnlyByDeref P (evalTokens P s ts) := by
  induction hn : ts.length using Nat.strong_induction_on generalizing ts with
  | _ n ih =>
  subst hn
  match ts with
  | [] => exact fatalOnlyByDeref_fail _
  | [t] => exact fatalOnlyByDeref_operandValue t
  | t :: u :: us =>
    have hlong : 2 ≤ (t :: u :: us).length := by simp
    rw [evalTokens_eq_evalSplit hlong]
    exact fatalOnlyByDeref_evalSplit hlong fun vs hvs => ih vs.length hvs vs rfl

theorem fatalOnlyByDeref_evaluate (text : List Byte) : FatalOnlyByDeref P (evaluate P s text) := by
  cases htok : tokenize P text with
  | error c =>
    rw [evaluate_of_error htok]
    exact fatalOnlyByDeref_fail c
  | ok ts =>
    by_cases hts : ts = []
    · rw [evaluate_of_no_token (hts ▸ htok)]
      exact fatalOnlyByDeref_fail _
    · rw [evaluate_of_tokens htok hts]
      exact fatalOnlyByDeref_evalTokens ts

end Fatal

/-! ### The statements -/

/-- Settles O47, by induction on the length of the range. -/
theorem evaluationSeesOnlyRegistersAndMemory : Obligations.EvaluationSeesOnlyRegistersAndMemory :=
  fun _ _ _ text hregs hpc hfl hmem => evaluate_congr (load_congr hregs hpc hfl) hmem text

/-- Settles O48, by induction on the length of the range. -/
theorem evaluationIsFatalOnlyOutOfBounds : Obligations.EvaluationIsFatalOnlyOutOfBounds :=
  fun _ _ text c h => fatalOnlyByDeref_evaluate text c h

/-- Settles O35, from the operators' values. -/
theorem arithmeticOperatorsWrapModulo32Bits : Obligations.ArithmeticOperatorsWrapModulo32Bits := by
  intro s a b text hs
  rw [← negValue_eq, ← mulValue_eq, ← addValue_eq, ← subValue_eq]
  exact ⟨rfl, rfl, liveOp_live hs, rfl, rfl, liveOp_live hs, rfl, rfl, liveOp_live hs, rfl, rfl, liveOp_live hs⟩

/-- Settles O36, from the operators' values. -/
theorem comparisonAndLogicYieldOneOrZero : Obligations.ComparisonAndLogicYieldOneOrZero := by
  intro s a b hs
  rw [← notValue_eq, ← eqValue_eq, ← neValue_eq, ← andValue_eq, ← orValue_eq]
  exact ⟨liveOp_live hs, liveOp_live hs, liveOp_live hs, liveOp_live hs, liveOp_live hs⟩

/-- Settles O37, from the two outcomes of a division. -/
theorem divisionIsUnsignedAndFailsOnZero : Obligations.DivisionIsUnsignedAndFailsOnZero := by
  intro s a b hs
  rw [exec_xopDiv, liveOp_live hs]
  refine ⟨fun hb => ?divides, fun hb => ?fails⟩
  case divides =>
    rw [divValue_of_ne_zero a hb]
    rfl
  case fails =>
    rw [hb, divValue_zero]
    rfl

/-- Settles O60, clause by clause. -/
theorem evaluateAndApplyFollowTheirRules : Obligations.EvaluateAndApplyFollowTheirRules := by
  refine fun P s => ⟨fun text => ⟨fun _ => evaluate_of_error, evaluate_of_no_token, fun _ => evaluate_of_tokens⟩,
    fun body => ⟨rfl, rfl, rfl, fun _ hk => operandValue_of_other s body hk⟩, fun ts op t ht hun => ?unary,
    fun ts op t ht hbin => ?binary, fun x y => ?values⟩
  case unary =>
    refine ⟨applyAt_unary_behind ht hun, ?_⟩
    rintro rfl
    rw [applyAt_unary_first ht hun]
    exact ⟨fun x hx => by rw [hx]; rfl, fun c hc => by rw [hc]; rfl, fun c hc => by rw [hc]; rfl⟩
  case binary =>
    intro a b result
    have hresult : result = combine (binaryValue t.kind) a b := applyAt_of_binary ht hbin
    rw [hresult]
    exact ⟨fun c ha => by rw [ha, combine_left_fatal], fun c hb ha => by rw [hb, combine_right_fatal ha],
      fun c ha hb => by rw [ha, combine_left_fail hb], fun x c ha hb => by rw [ha, hb]; rfl,
      fun x y ha hb => by rw [ha, hb]; rfl⟩
  case values =>
    refine ⟨congrArg Res.ok (notValue_eq x), congrArg Res.ok (negValue_eq x), fun v hv => ?read, fun c hc => ?oob,
      congrArg Res.ok (mulValue_eq x y), divValue_of_ne_zero x, ?zero, congrArg Res.ok (addValue_eq x y),
      congrArg Res.ok (subValue_eq x y), congrArg Res.ok (eqValue_eq x y), congrArg Res.ok (neValue_eq x y),
      congrArg Res.ok (andValue_eq x y), congrArg Res.ok (orValue_eq x y)⟩
    case read =>
      rw [readAt] at hv
      rw [unaryValue, derefValue, hv]
    case oob =>
      rw [readAt] at hc
      rw [unaryValue, derefValue, hc]
    case zero =>
      rintro rfl
      exact divValue_zero x

/-- Settles O46: without limits nothing of the machine or the state is looked at, so each example computes. -/
theorem workedExamplesOfTheSource : Obligations.WorkedExamplesOfTheSource := by
  rintro ⟨capacityLast, mem0, resetGpr, resetEflags, entry, exprMaxLen, maxTokens, table, freeWord⟩ s rfl rfl
  exact ⟨rfl, rfl, rfl, rfl, rfl, rfl⟩

end Sys2Proof.Proofs

/-! What one step does, by what the block does next (spec 41_execution_loop.md R132, 45_host_commands.md R230): one equation
for each kind of work, and the outcomes of `Exec` it rests on. -/

namespace Sys2Proof.Proofs

open Sys2Proof.Machine

/-! ### Which work stands next -/

section Work

variable {s : State} {r : CmdRecord} {rest : List HostInput}

theorem step_of_dead {c : FatalCause} (h : s.fatal = some c) : step s = (deadWork s).perform := by
  simp [step, nextWork, h]

theorem step_of_unitReq {u : UnitRequest} (hs : s.Live) (hu : s.unitReq = some u) : step s = (unitWork s u).perform := by
  rw [step, nextWork_of_unitReq hs hu]

theorem step_of_inRun (hs : s.InRun) (hq : s.PortQuiet) : step s = (runningWork Config.machine s).perform := by
  obtain ⟨hlive, hrun⟩ := hs
  rw [State.PortQuiet] at hq
  simp [step, nextWork, hlive, hq, hrun]

theorem step_of_accepts (hs : s.Accepts) (hq : s.PortQuiet) : step s = (hostWork s).perform := by
  obtain ⟨hlive, hrun⟩ := hs
  rw [State.PortQuiet] at hq
  cases hr : s.run with
  | running => exact absurd hr hrun
  | stopped => simp [step, nextWork, hlive, hq, hr]
  | ended => simp [step, nextWork, hlive, hq, hr]

/-- A live block is in a run or takes the host's operations. -/
theorem inRun_or_accepts (hs : s.Live) : s.InRun ∨ s.Accepts := by
  by_cases hr : s.run = .running
  · exact .inl ⟨hs, hr⟩
  · exact .inr ⟨hs, hr⟩

theorem hostWork_of_command (h : s.inputs = .command r :: rest) :
    hostWork s = .run (decodeCommand r) { s with inputs := rest } := by
  rw [hostWork, h]

theorem takeQuiet_of_nil (h : s.inputs = []) : s.takeQuiet = s := by
  cases s
  cases h
  rfl

theorem takeQuiet_of_command (h : s.inputs = .command r :: rest) : s.takeQuiet = s := by
  cases s
  cases h
  rfl

theorem takeQuiet_of_quiet (h : s.inputs = .quiet :: rest) : s.takeQuiet = { s with inputs := rest } := by
  rw [State.takeQuiet, h]

theorem hostWork_of_no_command (h : ∀ r rest, s.inputs ≠ .command r :: rest) : hostWork s = .move s.takeQuiet := by
  match hin : s.inputs with
  | [] => simp only [hostWork, hin, takeQuiet_of_nil hin]
  | .quiet :: rest => simp only [hostWork, hin, takeQuiet_of_quiet hin]
  | .command r :: rest => exact absurd hin (h r rest)

theorem runningWork_of_stopRequest (P : Params) (h : s.inputs = .command r :: rest) (hr : decodeCommand r = .cmdStopReq) :
    runningWork P s = .run .cmdStopReq { s with inputs := rest } := by
  simp only [runningWork, h, hr]

/-- While `RUNNING` everything but the stop request waits, and one turn of the run loop is made. -/
theorem runningWork_of_noStopRequest (P : Params) (h : s.NoStopRequest) : runningWork P s = loopWork P s.takeQuiet := by
  match hin : s.inputs with
  | [] => simp only [runningWork, hin, takeQuiet_of_nil hin]
  | .quiet :: rest => simp only [runningWork, hin, takeQuiet_of_quiet hin]
  | .command r :: rest =>
    simp only [runningWork, hin, takeQuiet_of_command hin]
    split
    · exact absurd ‹_› (h r rest hin)
    · rfl

theorem step_of_turn (hs : s.InRun) (hq : s.PortQuiet) (h : s.NoStopRequest) :
    step s = (loopWork Config.machine s.takeQuiet).perform := by
  rw [step_of_inRun hs hq, runningWork_of_noStopRequest _ h]

/-- In a run a step takes the stop request, or makes one turn of the run loop. -/
theorem step_inRun_cases (hs : s.InRun) (hq : s.PortQuiet) :
    (∃ rest, step s = exec .cmdStopReq { s with inputs := rest }) ∨
      step s = (loopWork Config.machine s.takeQuiet).perform := by
  by_cases h : s.NoStopRequest
  · exact .inr (step_of_turn hs hq h)
  · simp only [State.NoStopRequest, not_forall, not_not] at h
    obtain ⟨r, rest, hin, hr⟩ := h
    exact .inl ⟨rest, by rw [step_of_inRun hs hq, runningWork_of_stopRequest _ hin hr]; rfl⟩

/-- Otherwise it runs the host's next operation, or lets a moment pass. -/
theorem step_accepts_cases (hs : s.Accepts) (hq : s.PortQuiet) :
    (∃ r rest, s.inputs = .command r :: rest ∧ step s = exec (decodeCommand r) { s with inputs := rest }) ∨
      step s = .next s.takeQuiet := by
  rw [step_of_accepts hs hq]
  by_cases h : ∀ r rest, s.inputs ≠ .command r :: rest
  · rw [hostWork_of_no_command h]
    exact .inr rfl
  · simp only [not_forall, not_not] at h
    obtain ⟨r, rest, hin⟩ := h
    rw [hostWork_of_command hin]
    exact .inl ⟨r, rest, hin, rfl⟩

end Work

/-! ### One turn of the run loop -/

section Loop

variable {P : Params} {s : State} {i : Instr} {c : FatalCause} {o : ExecOutcome}

theorem loopWork_of_spent (h : s.budget.isSpent = true) : loopWork P s = .move (s.stopRun P .budget) := by
  rw [loopWork, if_pos h]

theorem loopWork_of_insn (hb : s.budget.isSpent = false)
    (hf : fetchInsn P { s with budget := s.budget.spend } = .ok i) :
    loopWork P s = .run i { s with budget := s.budget.spend } := by
  simp [loopWork, hb, hf]

theorem loopWork_of_fatal (hb : s.budget.isSpent = false)
    (hf : fetchInsn P { s with budget := s.budget.spend } = .error c) :
    loopWork P s = .move (State.raiseFatal c { s with budget := s.budget.spend }) := by
  simp [loopWork, hb, hf]

/-- The class of the instruction at `pc`, for each outcome of `Exec` (30_encoding.md R89). -/
def insnOf : ExecOutcome → Except FatalCause Instr
  | .done none d => .ok (.insnOrdinary d)
  | .done (some q) d => .ok (.insnBpTrap q d)
  | .fault => .ok .insnFaulting
  | .fatal c => .error c

theorem fetchInsn_eq_insnOf (P : Params) (s : State) : fetchInsn P s = insnOf (execTable P s) := by
  rw [fetchInsn]
  cases execTable P s with
  | done q d => cases q <;> rfl
  | fault => rfl
  | fatal c => rfl

theorem insnOf_eq_ordinary_iff {d : Done} : insnOf o = .ok (.insnOrdinary d) ↔ o = .done none d := by
  rcases o with ⟨_ | q, e⟩ | _ | c <;> simp [insnOf]

theorem insnOf_eq_bpTrap_iff {q : HaltReq} {d : Done} : insnOf o = .ok (.insnBpTrap q d) ↔ o = .done (some q) d := by
  rcases o with ⟨_ | q, e⟩ | _ | c <;> simp [insnOf]

theorem insnOf_eq_faulting_iff : insnOf o = .ok .insnFaulting ↔ o = .fault := by
  rcases o with ⟨_ | q, e⟩ | _ | c <;> simp [insnOf]

theorem insnOf_eq_error_iff : insnOf o = .error c ↔ o = .fatal c := by
  rcases o with ⟨_ | q, e⟩ | _ | c <;> simp [insnOf]

theorem width_pos (w : Width) : 0 < w.bytes := by cases w <;> decide

/-- The fetch comes first, so a `pc` outside the store is fatal (70_reset_and_hazards.md R287). -/
theorem fetchInsn_of_pc_outside (h : P.capacity ≤ s.pc.toNat) :
    fetchInsn P s = .error (.oobAccess s.pc (P.table s.regs s.pc s.fl).width false) := by
  have hwidth := width_pos (P.table s.regs s.pc s.fl).width
  have hread : readAt P s.mem .program s.pc (P.table s.regs s.pc s.fl).width =
      .error (.oobAccess s.pc (P.table s.regs s.pc s.fl).width false) :=
    (readAt_eq_host _ _ _ _ _).trans (hostReadOp_error (by omega))
  rw [fetchInsn_eq_insnOf, insnOf_eq_error_iff]
  exact runProg_read_error hread

/-- An instruction of a run is live and `RUNNING` where it starts, so it is carried out. -/
theorem exec_fetched_next {t : State} (hs : s.InRun) (hf : fetchInsn P t = .ok i) : ∃ u, exec i s = .next u := by
  obtain ⟨hlive, hrun⟩ := hs
  obtain ⟨d, rfl, -⟩ | ⟨q, d, rfl, -⟩ | ⟨rfl, -⟩ := fetchInsn_ok hf
  · exact ⟨_, loopOp_live hlive hrun⟩
  · exact ⟨_, loopOp_live hlive hrun⟩
  · exact ⟨_, loopOp_live hlive hrun⟩

end Loop

/-! ### Host operations are accepted outside a run -/

/-- A host record is the stop request, a reset, or an operation accepted outside a run alone. -/
theorem exec_decodeCommand_form (r : CmdRecord) :
    decodeCommand r = .cmdStopReq ∨ decodeCommand r = .cmdReset ∨ ∃ f, ∀ s, exec (decodeCommand r) s = s.hostOp f := by
  rcases decodeCommand_cases r with ⟨-, h⟩ | ⟨-, h⟩ | ⟨-, h⟩ | ⟨-, h⟩ | ⟨-, h⟩ | ⟨-, h⟩ | ⟨-, h⟩ | ⟨-, h⟩ | ⟨-, h⟩ |
    ⟨-, h⟩ | ⟨-, h⟩ | ⟨-, h⟩ | ⟨-, h⟩ | ⟨-, h⟩ | ⟨-, h⟩ <;> rw [h]
  · exact .inr (.inr ⟨_, exec_cmdContinue⟩)
  · exact .inr (.inr ⟨_, exec_cmdStep r.a⟩)
  · exact .inr (.inr ⟨_, exec_cmdPrint r.text⟩)
  · exact .inr (.inr ⟨_, exec_cmdExamine r.a r.b⟩)
  · exact .inr (.inr ⟨_, exec_cmdWatch r.text⟩)
  · exact .inr (.inr ⟨_, exec_cmdDelete r.a⟩)
  · exact .inr (.inr ⟨_, exec_cmdInfoRegisters⟩)
  · exact .inr (.inr ⟨_, exec_cmdInfoWatchpoints⟩)
  · exact .inr (.inr ⟨_, exec_cmdQuit⟩)
  · exact .inr (.inr ⟨_, exec_cmdRegRead _⟩)
  · exact .inr (.inr ⟨_, exec_cmdRegWrite _ r.b⟩)
  · exact .inr (.inr ⟨_, exec_cmdMemRead r.a r.b⟩)
  · exact .inl rfl
  · exact .inr (.inl rfl)
  · exact .inr (.inr ⟨_, exec_cmdReserved r.op⟩)

theorem exec_decodeCommand_next {s : State} (hs : s.Accepts) (r : CmdRecord) :
    ∃ t, exec (decodeCommand r) s = .next t := by
  have ⟨hlive, hrun⟩ := hs
  obtain h | h | ⟨f, h⟩ := exec_decodeCommand_form r
  · exact ⟨_, by rw [h, exec_cmdStopReq, liveOp_live hlive]⟩
  · exact ⟨_, by rw [h, exec_cmdReset s (.inr hrun)]⟩
  · exact ⟨_, by rw [h, hostOp_of_accepts hs]⟩

theorem exec_cmdStopReq_of_inRun {s : State} (hs : s.InRun) :
    exec .cmdStopReq s = .next { s with stopPending := true } := by
  have ⟨hlive, hrun⟩ := hs
  rw [exec_cmdStopReq, liveOp_live hlive, hrun]

theorem exec_cmdStopReq_of_accepts {s : State} (hs : s.Accepts) : exec .cmdStopReq s = .next s := by
  have ⟨hlive, hrun⟩ := hs
  rw [exec_cmdStopReq, liveOp_live hlive]
  cases h : s.run with
  | running => exact absurd h hrun
  | stopped => rfl
  | ended => rfl

theorem loopOp_of_accepts {s : State} {f : State → State} (hs : s.Accepts) : s.loopOp f = .fault .notEnabled := by
  have ⟨hlive, hrun⟩ := hs
  cases hr : s.run with
  | running => exact absurd hr hrun
  | stopped => simp [State.loopOp, hlive, hr]
  | ended => simp [State.loopOp, hlive, hr]

/-- The codes that R85 reserves are none of the fourteen of R83. -/
theorem reservedOp_ne : ∀ op : Byte, op = 0 ∨ 0x0F ≤ op →
    op ≠ 0x01 ∧ op ≠ 0x02 ∧ op ≠ 0x03 ∧ op ≠ 0x04 ∧ op ≠ 0x05 ∧ op ≠ 0x06 ∧ op ≠ 0x07 ∧ op ≠ 0x08 ∧ op ≠ 0x09 ∧
      op ≠ 0x0A ∧ op ≠ 0x0B ∧ op ≠ 0x0C ∧ op ≠ 0x0D ∧ op ≠ 0x0E := by
  decide

theorem decodeCommand_of_reserved {r : CmdRecord} (h : r.op = 0 ∨ 0x0F ≤ r.op) :
    decodeCommand r = .cmdReserved r.op := by
  have hne := reservedOp_ne r.op h
  simp only [decodeCommand, hne, if_false]

theorem registerDump_eq (s : State) : s.registerDump =
    [s.regs[0], s.regs[1], s.regs[2], s.regs[3], s.regs[4], s.regs[5], s.regs[6], s.regs[7], s.pc, s.fl] := by
  obtain ⟨⟨⟨l⟩, hl⟩, _⟩ := s
  match l, hl with
  | [_, _, _, _, _, _, _, _], _ => rfl

/-! ### The statements -/

/-- Settles O1: the host's record is decoded and run. -/
theorem stepRunsTheHostsNextOperation : Obligations.StepRunsTheHostsNextOperation := by
  intro s r rest hs hq hin
  refine ⟨decodeCommand r, rfl, decodeCommand_wf r, ?_⟩
  rw [step_of_accepts hs hq, hostWork_of_command hin]
  rfl

/-- Settles O2, one outcome of the port's decoder at a time. -/
theorem stepRunsTheUnitRequest : Obligations.StepRunsTheUnitRequest := by
  intro s u hs hu
  rw [step_of_unitReq hs hu]
  refine ⟨fun i hdec => ?runs, fun hdec => ?fails, fun e hne hdec => ?refused⟩
  all_goals
    rw [decode] at hdec
    rw [unitWork, hdec]
  case runs => rfl
  case fails => rfl
  case refused =>
    cases e
    case noTokenRule => exact absurd rfl hne
    all_goals rfl

/-- Settles O3, from the outcomes of `Exec` and one turn of the run loop. -/
theorem stepRunsTheFetchedInstruction : Obligations.StepRunsTheFetchedInstruction := by
  refine ⟨fun P s => ?outcomes, fun s hs hq hstop hbudget => ?turn⟩
  case outcomes =>
    intro table outcome
    have hfetch : fetchInsn P s = insnOf outcome := fetchInsn_eq_insnOf P s
    refine ⟨fun d => ?_, fun q d => ?_, ?_, fun c => ?_, fetchInsn_of_pc_outside⟩ <;> rw [hfetch]
    · exact insnOf_eq_ordinary_iff
    · exact insnOf_eq_bpTrap_iff
    · exact insnOf_eq_faulting_iff
    · exact insnOf_eq_error_iff
  case turn =>
    intro t
    have hfatal : ∀ c, fetchInsn Config.machine t = .error c → ∃ u, step s = .next u ∧ u.fatal = some c := fun c hf =>
      ⟨t.raiseFatal c, by
        rw [step_of_turn hs hq hstop, loopWork_of_fatal (s := s.takeQuiet) hbudget hf]
        rfl, State.raiseFatal_fatal t c⟩
    refine ⟨fun i hf => ?_, hfatal, fun hpc => ?_⟩
    · rw [step_of_turn hs hq hstop, loopWork_of_insn (s := s.takeQuiet) hbudget hf]
      rfl
    · obtain ⟨u, hu, hc⟩ := hfatal _ (fetchInsn_of_pc_outside (s := t) hpc)
      exact ⟨u, _, hu, hc⟩

/-- Settles O4: the stop request comes before the instruction. -/
theorem runningBlockTakesTheStopRequest : Obligations.RunningBlockTakesTheStopRequest := by
  intro s r rest hs hq hin hop
  rw [step_of_inRun hs hq, runningWork_of_stopRequest _ hin ((decodeCommand_eq_stopReq_iff r).2 hop)]
  exact exec_cmdStopReq_of_inRun (s := { s with inputs := rest }) hs

/-- Settles O5: the turn of the run loop with nothing left. -/
theorem spentBudgetEndsTheRun : Obligations.SpentBudgetEndsTheRun := by
  intro s hs hq hstop hbudget
  have hspent : s.takeQuiet.budget.isSpent = true := by
    show s.budget.isSpent = true
    rw [hbudget]
    rfl
  rw [step_of_turn hs hq hstop, loopWork_of_spent hspent]
  exact ⟨_, _, _, _, rfl⟩

/-- Settles O6: every operation but reset looks at the latch first, and of the host's records a dead block takes reset
alone. -/
theorem deadBlockTakesOnlyReset : Obligations.DeadBlockTakesOnlyReset := by
  refine fun s c hc => ⟨fun i hi => ?noEffect, fun r rest hin hop => ?reset, fun rest hin => ?silence,
    fun hcommand hquiet => ?stuck⟩
  case noEffect =>
    obtain rfl | ⟨f, hf⟩ | ⟨f, hf⟩ | ⟨f, hf⟩ := exec_form i
    · exact absurd rfl hi
    · rw [hf, hostOp_dead hc]
    · rw [hf, liveOp_dead hc]
    · rw [hf, loopOp_dead hc]
  all_goals rw [step_of_dead hc]
  case reset => simp only [deadWork, hin, (decodeCommand_eq_reset_iff r).2 hop, Work.perform]
  case silence =>
    refine ⟨{ s with inputs := rest }, ?_, hc, rfl⟩
    simp only [deadWork, hin, Work.perform]
  case stuck =>
    obtain ⟨r, rest, hin, hr, -⟩ | ⟨rest, hin, -⟩ | hstuck := deadWork_cases s
    · exact absurd ((decodeCommand_eq_reset_iff r).1 hr) (hcommand r rest hin)
    · exact absurd hin (hquiet rest)
    · rw [hstuck, Work.perform]

/-- Settles O7: a host operation looks at `run` before anything else, and so does an instruction step. -/
theorem unacceptedOperationsHaveNoTransition : Obligations.UnacceptedOperationsHaveNoTransition := by
  refine ⟨fun s text a b sel op hs => ?host, fun s q d hs => ?instruction⟩
  case host =>
    obtain ⟨hlive, hrun⟩ := hs
    have hhost : ∀ {i f}, (∀ s, exec i s = s.hostOp f) → exec i s = .fault .notEnabled := fun hi =>
      (hi s).trans (hostOp_running hlive hrun)
    have hreset : exec .cmdReset s = .fault .notEnabled := by simp [exec, execCmdReset, hlive, hrun]
    simp only [List.forall_mem_cons, List.not_mem_nil, IsEmpty.forall_iff, implies_true, and_true]
    exact ⟨hhost exec_cmdContinue, hhost (exec_cmdStep a), hhost (exec_cmdPrint text), hhost (exec_cmdExamine a b),
      hhost (exec_cmdWatch text), hhost (exec_cmdDelete a), hhost exec_cmdInfoRegisters, hhost exec_cmdInfoWatchpoints,
      hhost exec_cmdQuit, hhost (exec_cmdRegRead sel), hhost (exec_cmdRegWrite sel b), hhost (exec_cmdMemRead a b),
      hreset, hhost (exec_cmdReserved op)⟩
  case instruction =>
    simp only [List.forall_mem_cons, List.not_mem_nil, IsEmpty.forall_iff, implies_true, and_true, exec_insnOrdinary,
      exec_insnBpTrap, exec_insnFaulting]
    exact ⟨loopOp_of_accepts hs, loopOp_of_accepts hs, loopOp_of_accepts hs⟩

/-- Settles O8: what a live block does next is an operation it accepts, or a move. -/
theorem liveBlockAlwaysSteps : Obligations.LiveBlockAlwaysSteps := by
  intro s hs hq
  obtain hrun | hacc := inRun_or_accepts hs
  · obtain ⟨rest, hstep⟩ | hstep := step_inRun_cases hrun hq
    · exact ⟨_, hstep.trans (exec_cmdStopReq_of_inRun (s := { s with inputs := rest }) hrun)⟩
    · rw [hstep]
      obtain ⟨-, h⟩ | ⟨-, i, hf, h⟩ | ⟨-, c, -, h⟩ := loopWork_cases Config.machine s.takeQuiet <;> rw [h]
      · exact ⟨_, rfl⟩
      · exact exec_fetched_next (s := { s.takeQuiet with budget := s.budget.spend }) hrun hf
      · exact ⟨_, rfl⟩
  · obtain ⟨r, rest, -, hstep⟩ | hstep := step_accepts_cases hacc hq
    · rw [hstep]
      exact exec_decodeCommand_next (s := { s with inputs := rest }) hacc r
    · exact ⟨_, hstep⟩

/-- Settles O25: what is delivered is the only thing written. -/
theorem dumpQuitAndReservedCodesChangeNothing : Obligations.DumpQuitAndReservedCodesChangeNothing := by
  intro s op a b text hs
  rw [exec_cmdInfoRegisters, exec_cmdQuit, exec_cmdReserved]
  simp only [hostOp_of_accepts hs, registerDump_eq]
  exact ⟨rfl, rfl, fun hop => ⟨congrArg Except.ok (decodeCommand_of_reserved hop), rfl⟩⟩

/-- Settles O27, by the run state. -/
theorem stopRequestSetsTheLatchOnlyWhileRunning : Obligations.StopRequestSetsTheLatchOnlyWhileRunning :=
  fun _ hs => ⟨fun hrun => exec_cmdStopReq_of_inRun ⟨hs, hrun⟩, fun hrun => exec_cmdStopReq_of_accepts ⟨hs, hrun⟩⟩

/-- Settles O28, in each state that takes a reset. -/
theorem resetRestoresEveryPieceOfState : Obligations.ResetRestoresEveryPieceOfState := by
  intro s hs
  refine exec_cmdReset s ?_
  obtain ⟨-, hrun⟩ | hdead := hs
  · exact .inr hrun
  · exact .inl hdead

/-- Settles O29, field by field. -/
theorem resetValues : Obligations.ResetValues := by
  refine ⟨fun i => ?regs, rfl, rfl, fun _ => rfl, rfl, rfl, rfl, rfl, rfl, rfl, rfl, fun k => ?slots⟩
  case regs =>
    fin_cases i <;> rfl
  case slots => exact Vector.getElem_ofFn _

/-- Settles O30: the run request while `STOPPED`. -/
theorem runRequestStartsARun : Obligations.RunRequestStartsARun := by
  intro s n hs hstopped
  have hrequest : ∀ m, s.runRequest Config.machine m =
      { s with run := .running, stopPending := false, budget := budgetOf m, resp := .silent } := fun m => by
    simp only [State.runRequest, hstopped]
  have hacc : s.Accepts := ⟨hs, by simp [hstopped]⟩
  simp only [exec_cmdContinue, exec_cmdStep, hostOp_of_accepts hacc, hrequest]
  refine ⟨rfl, rfl, fun hn => ?_⟩
  rw [budgetOf, if_neg (show n ≠ runForever from hn)]

/-- Settles O32: each rule delivers its emission and writes nothing else. -/
theorem tokenRulesDeliverWhatTheyEmit : Obligations.TokenRulesDeliverWhatTheyEmit := by
  intro s run digits name hs
  have hdeliver : ∀ e : Emission, s.liveOp (State.deliverToken e) = .next { s with resp := .token e.tok e.len } :=
    fun e => liveOp_live hs
  exact ⟨hdeliver _, hdeliver _, hdeliver _, hdeliver _, hdeliver _, hdeliver _, hdeliver _, hdeliver _, hdeliver _,
    hdeliver _, hdeliver _, hdeliver _, hdeliver _, hdeliver _, hdeliver _⟩

end Sys2Proof.Proofs

/-! The per-step protocol after `Exec` (spec 41_execution_loop.md R121), by what the scan found, and a watchpoint through its
life (44_watchpoint_manager.md R212, R221, R222). -/

namespace Sys2Proof.Proofs

open Sys2Proof.Machine

/-! ### The state the scan sees -/

section Scanned

variable {s : State} {d : Done} {q : Option HaltReq}

theorem scanned_regs : (scanned q d s).regs = d.regs := by simp [scanned]
theorem scanned_mem : (scanned q d s).mem = d.mem := by simp [scanned]
theorem scanned_fatal : (scanned q d s).fatal = s.fatal := by simp [scanned]
theorem scanned_slots : (scanned q d s).slots = s.slots := by simp [scanned]
theorem scanned_active : (scanned q d s).active = s.active := by simp [scanned]
theorem scanned_free : (scanned q d s).free = s.free := by simp [scanned]
theorem scanned_unitReq : (scanned q d s).unitReq = s.unitReq := by simp [scanned]
theorem scanned_budget : (scanned q d s).budget = s.budget := by simp [scanned]
theorem scanned_inputs : (scanned q d s).inputs = s.inputs := by simp [scanned]

/-- With no request of `Exec` only a pending stop request ends the run. -/
theorem scanned_none (hs : s.InRun) : scanned none d s =
    { s with
      regs := d.regs, pc := d.pc + d.len, fl := d.fl, mem := d.mem, stopPending := false
      run := if s.stopPending then .stopped else .running } := by
  obtain ⟨-, hrun⟩ := hs
  cases hp : s.stopPending <;> simp [scanned, State.install, State.advance, State.poll, hp, hrun]

/-- A request of `Exec` has ended the run before the stop request is polled. -/
theorem scanned_some (q : HaltReq) : scanned (some q) d s =
    { s with
      regs := d.regs, pc := d.pc + d.len, fl := d.fl, mem := d.mem, stopPending := false
      run := match q with
        | .stop => .stopped
        | .ended => .ended } := by
  cases hp : s.stopPending <;> cases q <;> simp [scanned, State.install, State.advance, State.poll, hp]

end Scanned

/-! ### How the step closes -/

section Complete

variable {P : Params} {s : State} {d : Done} {q : Option HaltReq} {k : Fin 32} {old new : Word} {c : FatalCause}

theorem complete_of_quiet (h : scan P (scanned q d s) = .quiet) :
    s.complete P q d = (scanned q d s).closeStep P q := by
  rw [complete_eq, h, State.afterScan]

theorem complete_of_fired (h : scan P (scanned q d s) = .fired k old new) :
    s.complete P q d = (scanned q d s).fire k old new := by
  rw [complete_eq, h, State.afterScan]

theorem complete_of_fatal (h : scan P (scanned q d s) = .fatal c) :
    s.complete P q d = (scanned q d s).raiseFatal c := by
  rw [complete_eq, h, State.afterScan]

theorem closeStep_of_running (h : s.run = .running) : s.closeStep P q = s := by
  rw [State.closeStep, h]

theorem closeStep_of_not_running (h : s.run ≠ .running) : s.closeStep P q = s.endRun P (haltReason q) := by
  cases hr : s.run with
  | running => exact absurd hr h
  | stopped => simp only [State.closeStep, hr]
  | ended => simp only [State.closeStep, hr]

end Complete

/-! ### The expression `$eax` -/

section Eax

variable {P : Params} {s : State} {k : Fin 32}

theorem lexes_eax : Lexes (asciiText "$eax") [.tReg (asciiText "eax")] [] :=
  .rule _ [] [] _ [] rfl (.stop [])

theorem tokenize_eax (hlen : overLimit 4 P.exprMaxLen = false) (htok : overLimit 1 P.maxTokens = false) :
    tokenize P (asciiText "$eax") = .ok [⟨.reg, asciiText "$eax"⟩] :=
  tokenize_of_lexes lexes_eax hlen htok

theorem evaluate_eax (s : State) (hlen : overLimit 4 P.exprMaxLen = false) (htok : overLimit 1 P.maxTokens = false) :
    evaluate P s (asciiText "$eax") = .ok s.regs[0] := by
  have hview : lookupName (asciiText "eax") regNames = some (view32 0) := rfl
  rw [evaluate_of_tokens (tokenize_eax hlen htok) (List.cons_ne_nil _ _), evalTokens_singleton]
  exact (regValue_of_view hview).trans (congrArg Res.ok (readView_view32 s 0))

theorem scan_of_singleton (h : s.active = [k]) : scan P s = (verdict P s k).getD .quiet := by
  rw [scan, h, scanFrom_cons, scanFrom]

end Eax

/-! ### The statements -/

/-- Settles O52, by what the scan found and whether a stop request was pending. -/
theorem ordinaryInstructionFollowsTheProtocol : Obligations.OrdinaryInstructionFollowsTheProtocol := by
  intro s d hs u
  have ⟨hlive, hrun⟩ := hs
  have hu : scanned none d s = u := scanned_none hs
  have hexec : exec (.insnOrdinary d) s = .next (s.complete Config.machine none d) := by
    rw [exec_insnOrdinary, loopOp_live hlive hrun]
  rw [hexec, ← hu]
  refine ⟨fun hscan hp => ?goesOn, fun hscan hp => ?stops, fun k old new hscan => ?fires, fun c hscan => ?dies⟩
  case goesOn =>
    have hur : (scanned none d s).run = .running := by simp [hu, u, hp]
    rw [complete_of_quiet hscan, closeStep_of_running hur]
  case stops =>
    have hur : (scanned none d s).run ≠ .running := by simp [hu, u, hp]
    rw [complete_of_quiet hscan, closeStep_of_not_running hur]
    exact ⟨_, _, _, _, rfl⟩
  case fires =>
    rw [complete_of_fired hscan]
    rfl
  case dies =>
    rw [complete_of_fatal hscan]
    exact ⟨_, rfl, State.raiseFatal_fatal _ c⟩

/-- Settles O53, by what the scan found. -/
theorem trapAndEndRequestsEndTheRun : Obligations.TrapAndEndRequestsEndTheRun := by
  intro s d q hs u
  have ⟨hlive, hrun⟩ := hs
  have hu : scanned (some q) d s = u := scanned_some q
  have hexec : exec (.insnBpTrap q d) s = .next (s.complete Config.machine (some q) d) := by
    rw [exec_insnBpTrap, loopOp_live hlive hrun]
  rw [hexec, ← hu]
  refine ⟨fun hscan => ?ends, fun k old new hscan => ?fires, fun c hscan => ?dies⟩
  case ends =>
    have hur : (scanned (some q) d s).run ≠ .running := by
      rw [hu]
      cases q <;> nofun
    rw [complete_of_quiet hscan, closeStep_of_not_running hur]
    cases q
    all_goals exact ⟨_, _, _, _, rfl⟩
  case fires =>
    rw [complete_of_fired hscan]
    rfl
  case dies =>
    rw [complete_of_fatal hscan]
    exact ⟨_, rfl, State.raiseFatal_fatal _ c⟩

/-- Settles O51: the scan sees one record, whose value is the new `eax`. -/
theorem watchedEaxStopsTheRunWhenItChanges : Obligations.WatchedEaxStopsTheRunWhenItChanges := by
  intro P s d k hs hp hlen htok hactive hexpr hlast
  have hvalue : evaluate P (scanned none d s) ((scanned none d s).slots[k]).expr = .ok d.regs[0] := by
    rw [scanned_slots, hexpr, evaluate_eax _ hlen htok]
    simp only [scanned_regs]
  have hscan : scan P (scanned none d s) =
      if d.regs[0] = s.regs[0] then .quiet else .fired k s.regs[0] d.regs[0] := by
    rw [scan_of_singleton (scanned_active.trans hactive), verdict_of_ok hvalue, scanned_slots, hlast]
    split <;> rfl
  refine ⟨fun hchanged => ?changed, fun hsame => ?same⟩
  case changed =>
    rw [if_neg hchanged] at hscan
    rw [complete_of_fired hscan]
    exact ⟨rfl, rfl, rfl, by simp⟩
  case same =>
    rw [if_pos hsame] at hscan
    have hrun : (scanned none d s).run = .running := by simp [scanned_none hs, hp]
    rw [complete_of_quiet hscan, closeStep_of_running hrun]
    exact ⟨scanned_fatal.trans hs.1, hrun⟩

/-- Settles O50: the deletion leaves its slot at the head of the free list, where the creation takes one. -/
theorem deletedSlotIsTheNextCreated : Obligations.DeletedSlotIsTheNextCreated := by
  refine fun P s t id v text => ⟨wpCreate_of_exhausted P text, fun hdel heval => ?_⟩
  obtain ⟨k, hk, hid, rfl⟩ := wpDelete_ok hdel
  refine ⟨_, k, wpCreate_of_ok rfl heval, hk, hid, ?resp, rfl, rfl, ?slot⟩
  case resp =>
    have hword : slotWord k = id := by rw [slotWord, hid, BitVec.ofNat_toNat, BitVec.setWidth_eq]
    exact congrArg Response.value hword
  case slot => simp

end Sys2Proof.Proofs

/-! What an operation that is carried out can do to the state, once for all of them (spec 45_host_commands.md R244,
60_exceptions.md R256): from it the invariant that every step keeps, the fatal causes a step can raise, and what each host
operation can write. -/

namespace Sys2Proof.Proofs

open Sys2Proof.Machine

/-! ### What an operation can do -/

/-- Nothing but a response is written, or an access out of bounds has killed the block. -/
inductive Delivered (s : State) : State → Prop where
  | response (r : Response) : Delivered s (s.respond r)
  | oob (a : Word) (w : Width) (b : Bool) (h : Config.machine.capacity < a.toNat + w.bytes) :
      Delivered s (s.raiseFatal (.oobAccess a w b))

/-- What carrying out an instruction can do to the state. -/
inductive Effect : Instr → State → State → Prop where
  | delivered (i : Instr) (s t : State) (h : Delivered s t) : Effect i s t
  | continued (s : State) : Effect .cmdContinue s (s.runRequest Config.machine runForever)
  | stepped (n : Word) (s : State) : Effect (.cmdStep n) s (s.runRequest Config.machine n)
  | created (text : List Byte) (s : State) (k : Fin 32) (rest : List (Fin 32)) (v : Word) (hfree : s.free = k :: rest)
      (heval : evaluate Config.machine s text = .ok v) :
      Effect (.cmdWatch text) s
        (({ s with free := rest, active := k :: s.active }.fillSlot k text v).respond (.value (slotWord k)))
  | deleted (id : Word) (s : State) (k : Fin 32) (hk : k ∈ s.active) :
      Effect (.cmdDelete id) s
        (State.respond .ok { s with active := s.active.filter (fun j => j != k), free := k :: s.free })
  | deletedEmpty (id : Word) (s : State) (h : s.active = []) :
      Effect (.cmdDelete id) s (s.raiseFatal .poolDeleteEmpty)
  | wroteView (sel : BitVec 7) (b : Word) (s : State) (v : RegView) :
      Effect (.cmdRegWrite sel b) s ((s.writeView v b).respond .ok)
  | latched (s : State) (hrun : s.run = .running) : Effect .cmdStopReq s { s with stopPending := true }
  | ignored (s : State) : Effect .cmdStopReq s s
  | restarted (s : State) : Effect .cmdReset s (s.restart Config.machine)
  | stored (i : Instr) (s : State) (addr v : Word) (w : Width) (m : Memory)
      (hi : i ∈ [Instr.memWrite addr w v, .linWrite addr w v, .hostWrite addr w v])
      (h : hostWriteOp Config.machine s.mem addr w v = .ok m) : Effect i s (State.respond .ok { s with mem := m })
  | ordinary (d : Done) (s : State) : Effect (.insnOrdinary d) s (s.complete Config.machine none d)
  | trapped (q : HaltReq) (d : Done) (s : State) : Effect (.insnBpTrap q d) s (s.complete Config.machine (some q) d)
  | unwound (s : State) : Effect .insnFaulting s (s.unwindFault Config.machine)

section Delivered

variable {s : State}

theorem delivered_deliverValue {r : Res Word} (h : FatalOnlyByDeref Config.machine r) : Delivered s (s.deliverValue r) := by
  cases r with
  | ok v => exact .response _
  | fail c => exact .response _
  | fatal c =>
    obtain ⟨a, rfl, hout⟩ := h c rfl
    exact .oob a .four false hout

theorem delivered_deliverRead (addr : Word) (w : Width) :
    Delivered s (s.deliverRead (hostReadOp Config.machine s.mem addr w)) := by
  cases h : hostReadOp Config.machine s.mem addr w with
  | ok v => exact .response _
  | error c =>
    obtain ⟨rfl, hout⟩ := hostReadOp_eq_error h
    exact .oob addr w false hout

theorem examineFrom_eq_error {P : Params} {m : Memory} {n : Nat} {addr : Word} {c : FatalCause}
    (h : examineFrom P m n addr = .error c) : ∃ a : Word, c = .oobAccess a .four false ∧ P.capacity < a.toNat + 4 := by
  induction n generalizing addr with
  | zero => cases h
  | succ n ih =>
    rcases Nat.lt_or_ge P.capacity (addr.toNat + 4) with hout | hin
    · rw [examineFrom_succ_of_error (memReadOp_four_error hout)] at h
      cases h
      exact ⟨addr, rfl, hout⟩
    · rw [examineFrom_succ_of_ok (memReadOp_four_ok hin)] at h
      cases hrest : examineFrom P m n (addr + 4) with
      | ok vs =>
        rw [hrest] at h
        cases h
      | error e =>
        rw [hrest] at h
        cases h
        exact ih hrest

theorem delivered_deliverDump (n : Nat) (addr : Word) :
    Delivered s (s.deliverDump (examineFrom Config.machine s.mem n addr)) := by
  cases h : examineFrom Config.machine s.mem n addr with
  | ok vs => exact .response _
  | error c =>
    obtain ⟨a, rfl, hout⟩ := examineFrom_eq_error h
    exact .oob a .four false hout

end Delivered

section Effect

variable {s t : State} {i : Instr} {addr v : Word} {w : Width} {c : FatalCause}

theorem effect_deliverWrite (hi : i ∈ [Instr.memWrite addr w v, .linWrite addr w v, .hostWrite addr w v]) :
    Effect i s (s.deliverWrite (hostWriteOp Config.machine s.mem addr w v)) := by
  cases h : hostWriteOp Config.machine s.mem addr w v with
  | ok m => exact .stored i s addr v w m hi h
  | error c =>
    obtain ⟨rfl, hout⟩ := hostWriteOp_eq_error h
    exact .delivered i s _ (.oob addr w true hout)

theorem wpCreate_fatal {P : Params} {text : List Byte} (h : wpCreate P s text = .fatal c) :
    evaluate P s text = .fatal c := by
  cases hf : s.free with
  | nil => cases (wpCreate_of_exhausted P text hf).symm.trans h
  | cons k rest =>
    cases he : evaluate P s text with
    | ok v => cases (wpCreate_of_ok hf he).symm.trans h
    | fail e => cases (wpCreate_of_fail hf he).symm.trans h
    | fatal e => exact congrArg Res.fatal (Res.fatal.inj ((wpCreate_of_fatal hf he).symm.trans h))

theorem effect_cmdWatch (text : List Byte) (s : State) :
    Effect (.cmdWatch text) s (s.settle (wpCreate Config.machine s text)) := by
  cases h : wpCreate Config.machine s text with
  | ok u =>
    obtain ⟨k, rest, v, hfree, heval, rfl⟩ := wpCreate_ok h
    exact .created text s k rest v hfree heval
  | fail c => exact .delivered _ s _ (.response _)
  | fatal c =>
    obtain ⟨a, rfl, hout⟩ := fatalOnlyByDeref_evaluate text c (wpCreate_fatal h)
    exact .delivered _ s _ (.oob a .four false hout)

theorem effect_cmdDelete (id : Word) (s : State) : Effect (.cmdDelete id) s (s.settle (wpDelete s id)) := by
  cases h : wpDelete s id with
  | ok u =>
    obtain ⟨k, hk, -, rfl⟩ := wpDelete_ok h
    exact .deleted id s k hk
  | fail c => exact .delivered _ s _ (.response _)
  | fatal c =>
    obtain ⟨hempty, rfl⟩ := wpDelete_fatal h
    exact .deletedEmpty id s hempty

theorem effect_of_hostOp {f : State → State} (h : s.hostOp f = .next t) (hf : Effect i s (f s)) : Effect i s t := by
  obtain ⟨-, -, rfl⟩ := hostOp_next_iff.1 h
  exact hf

theorem effect_of_liveOp {f : State → State} (h : s.liveOp f = .next t) (hf : Effect i s (f s)) : Effect i s t := by
  obtain ⟨-, rfl⟩ := liveOp_next_iff.1 h
  exact hf

theorem effect_of_loopOp {f : State → State} (h : s.loopOp f = .next t) (hf : Effect i s (f s)) : Effect i s t := by
  obtain ⟨-, -, rfl⟩ := loopOp_next_iff.1 h
  exact hf

/-- The inversion of `exec`: whatever is carried out does one of the things above. -/
theorem effect_of_exec (h : exec i s = .next t) : Effect i s t := by
  cases i with
  | cmdContinue => exact effect_of_hostOp h (.continued s)
  | cmdStep n => exact effect_of_hostOp h (.stepped n s)
  | cmdPrint text =>
    rw [exec_cmdPrint] at h
    exact effect_of_hostOp h (.delivered _ s _ (delivered_deliverValue (fatalOnlyByDeref_evaluate text)))
  | cmdExamine n addr =>
    rw [exec_cmdExamine] at h
    exact effect_of_hostOp h (.delivered _ s _ (delivered_deliverDump n.toNat addr))
  | cmdWatch text =>
    rw [exec_cmdWatch] at h
    exact effect_of_hostOp h (effect_cmdWatch text s)
  | cmdDelete id =>
    rw [exec_cmdDelete] at h
    exact effect_of_hostOp h (effect_cmdDelete id s)
  | cmdInfoRegisters | cmdInfoWatchpoints | cmdQuit | cmdReserved =>
    simp only [exec_cmdInfoRegisters, exec_cmdInfoWatchpoints, exec_cmdQuit, exec_cmdReserved] at h
    exact effect_of_hostOp h (.delivered _ s _ (.response _))
  | cmdRegRead sel =>
    rw [exec_cmdRegRead] at h
    refine effect_of_hostOp h (.delivered _ s _ ?_)
    cases selectorView sel with
    | some v => exact .response _
    | none => exact .response _
  | cmdRegWrite sel b =>
    rw [exec_cmdRegWrite] at h
    refine effect_of_hostOp h ?_
    cases selectorView sel with
    | some v => exact .wroteView sel b s v
    | none => exact .delivered _ s _ (.response _)
  | cmdMemRead addr n =>
    rw [exec_cmdMemRead] at h
    refine effect_of_hostOp h (.delivered _ s _ ?_)
    cases widthOfCount n with
    | some w => exact delivered_deliverRead addr w
    | none => exact .response _
  | cmdStopReq =>
    rw [exec_cmdStopReq] at h
    refine effect_of_liveOp h ?_
    cases hrun : s.run with
    | running => simpa only [hrun] using Effect.latched s hrun
    | stopped => simpa only [hrun] using Effect.ignored s
    | ended => simpa only [hrun] using Effect.ignored s
  | cmdReset =>
    rw [exec, execCmdReset] at h
    split at h
    · cases h
    all_goals
      cases h
      exact .restarted s
  | tWs | tEq | tNe | tAnd | tOr | tNot | tPlus | tMinus | tStar | tSlash | tLparen | tRparen | tHex | tDec | tReg =>
    simp only [exec_tWs, exec_tEq, exec_tNe, exec_tAnd, exec_tOr, exec_tNot, exec_tPlus, exec_tMinus, exec_tStar,
      exec_tSlash, exec_tLparen, exec_tRparen, exec_tHex, exec_tDec, exec_tReg] at h
    exact effect_of_liveOp h (.delivered _ s _ (.response _))
  | xopNot | xopNeg | xopMul | xopAdd | xopSub | xopEq | xopNe | xopAnd | xopOr | operandNum | operandHex =>
    simp only [exec_xopNot, exec_xopNeg, exec_xopMul, exec_xopAdd, exec_xopSub, exec_xopEq, exec_xopNe, exec_xopAnd,
      exec_xopOr, exec_operandNum, exec_operandHex] at h
    exact effect_of_liveOp h (.delivered _ s _ (.response _))
  | xopDeref r =>
    rw [exec_xopDeref] at h
    exact effect_of_liveOp h (.delivered _ s _ (delivered_deliverValue (fatalOnlyByDeref_derefValue r)))
  | xopDiv a b =>
    rw [exec_xopDiv] at h
    exact effect_of_liveOp h
      (.delivered _ s _ (delivered_deliverValue fun _ hc => absurd hc (divValue_ne_fatal a b)))
  | operandReg name =>
    rw [exec_operandReg] at h
    exact effect_of_liveOp h
      (.delivered _ s _ (delivered_deliverValue fun _ hc => absurd hc (regValue_ne_fatal name)))
  | memRead addr w | linRead addr w | hostRead addr w =>
    rw [exec_read_eq_hostRead (addr := addr) (w := w) (by simp), exec_hostRead] at h
    exact effect_of_liveOp h (.delivered _ s _ (delivered_deliverRead addr w))
  | memWrite addr w v | linWrite addr w v | hostWrite addr w v =>
    rw [exec_write_eq_hostWrite (addr := addr) (w := w) (v := v) (by simp), exec_hostWrite] at h
    exact effect_of_liveOp h (effect_deliverWrite (by simp))
  | insnOrdinary d => exact effect_of_loopOp h (.ordinary d s)
  | insnBpTrap q d => exact effect_of_loopOp h (.trapped q d s)
  | insnFaulting => exact effect_of_loopOp h (.unwound s)

end Effect

end Sys2Proof.Proofs

/-! The whole machine: the invariant that every step keeps (spec 10_state.md R39, R40, 44_watchpoint_manager.md R220), the
fatal causes a step can raise (60_exceptions.md R256), what a host operation can write (45_host_commands.md R244) and how far
a budget goes (41_execution_loop.md R116, R129). -/

namespace Sys2Proof.Proofs

open Sys2Proof.Machine

/-! ### An instruction step as a whole -/

section Complete

variable {P : Params} {q : Option HaltReq} {d : Done} {s : State} {c : FatalCause}

/-- The four ways an instruction step closes. -/
theorem complete_cases (P : Params) (q : Option HaltReq) (d : Done) (s : State) :
    s.complete P q d = scanned q d s ∨ s.complete P q d = (scanned q d s).endRun P (haltReason q) ∨
      (∃ k old new, s.complete P q d = (scanned q d s).fire k old new) ∨
      ∃ c, scan P (scanned q d s) = .fatal c ∧ s.complete P q d = (scanned q d s).raiseFatal c := by
  cases h : scan P (scanned q d s) with
  | quiet =>
    rw [complete_of_quiet h]
    by_cases hr : (scanned q d s).run = .running
    · exact .inl (closeStep_of_running hr)
    · exact .inr (.inl (closeStep_of_not_running hr))
  | fired k old new => exact .inr (.inr (.inl ⟨k, old, new, complete_of_fired h⟩))
  | fatal c => exact .inr (.inr (.inr ⟨c, rfl, complete_of_fatal h⟩))

theorem complete_mem : (s.complete P q d).mem = d.mem := by
  obtain h | h | ⟨k, old, new, h⟩ | ⟨c, -, h⟩ := complete_cases P q d s <;> rw [h] <;> exact scanned_mem

theorem complete_active : (s.complete P q d).active = s.active := by
  obtain h | h | ⟨k, old, new, h⟩ | ⟨c, -, h⟩ := complete_cases P q d s <;> rw [h] <;> exact scanned_active

theorem complete_free : (s.complete P q d).free = s.free := by
  obtain h | h | ⟨k, old, new, h⟩ | ⟨c, -, h⟩ := complete_cases P q d s <;> rw [h] <;> exact scanned_free

theorem complete_unitReq : (s.complete P q d).unitReq = s.unitReq := by
  obtain h | h | ⟨k, old, new, h⟩ | ⟨c, -, h⟩ := complete_cases P q d s <;> rw [h] <;> exact scanned_unitReq

theorem complete_inputs : (s.complete P q d).inputs = s.inputs := by
  obtain h | h | ⟨k, old, new, h⟩ | ⟨c, -, h⟩ := complete_cases P q d s <;> rw [h] <;> exact scanned_inputs

theorem complete_budget : (s.complete P q d).budget = s.budget := by
  obtain h | h | ⟨k, old, new, h⟩ | ⟨c, -, h⟩ := complete_cases P q d s <;> rw [h] <;> exact scanned_budget

/-- A scan is fatal only by an evaluation. -/
theorem scan_eq_fatal {s : State} (h : scan P s = .fatal c) : ∃ text, evaluate P s text = .fatal c := by
  obtain ⟨-, k, -, -, -, hk⟩ := (scan_eq_iff_of_ne_quiet (r := .fatal c) nofun).1 h
  exact ⟨_, verdict_eq_fatal_iff.1 hk⟩

theorem complete_fatal (hs : s.Live) (h : (s.complete P q d).fatal = some c) :
    ∃ a : Word, c = .oobAccess a .four false ∧ P.capacity < a.toNat + 4 := by
  have hlive : (scanned q d s).fatal = none := scanned_fatal.trans hs
  obtain hc | hc | ⟨k, old, new, hc⟩ | ⟨e, hscan, hc⟩ := complete_cases P q d s <;> rw [hc] at h
  · cases hlive.symm.trans h
  · cases hlive.symm.trans h
  · cases hlive.symm.trans h
  · cases h
    obtain ⟨text, htext⟩ := scan_eq_fatal hscan
    exact fatalOnlyByDeref_evaluate text c htext

end Complete

theorem runRequest_cases (P : Params) (n : Word) (s : State) :
    s.runRequest P n = s.endRun P .cannotContinue ∨
      s.runRequest P n = { s with run := .running, stopPending := false, budget := budgetOf n, resp := .silent } := by
  cases h : s.run with
  | ended => exact .inl (runRequest_of_ended P n h)
  | stopped => exact .inr (by simp only [State.runRequest, h])
  | running => exact .inr (by simp only [State.runRequest, h])

/-! ### Soundness -/

section Sound

variable {P : Params} {s t : State} {i : Instr}

/-- The records have the same ids and expressions; their stored values may differ. -/
def SameRecords (s t : State) : Prop :=
  ∀ k : Fin 32, (t.slots[k]).id = (s.slots[k]).id ∧ (t.slots[k]).expr = (s.slots[k]).expr

theorem sameRecords_of_slots_eq (h : t.slots = s.slots) : SameRecords s t := fun k => by
  rw [h]
  exact ⟨rfl, rfl⟩

theorem getElem_set_slot (slots : Vector WpSlot 32) (k j : Fin 32) (x : WpSlot) :
    (slots.set k x)[j] = if j = k then x else slots[j] := by
  by_cases h : j = k
  · subst h
    simp
  · have hne : (k : Nat) ≠ (j : Nat) := fun he => h (Fin.ext he.symm)
    simp [h, Vector.getElem_set_ne _ _ hne]

theorem sameRecords_fire (k : Fin 32) (old new : Word) : SameRecords s (s.fire k old new) := fun j => by
  rw [State.fire_slots, getElem_set_slot]
  split
  · subst_vars
    exact ⟨rfl, rfl⟩
  · exact ⟨rfl, rfl⟩

theorem sameRecords_complete (q : Option HaltReq) (d : Done) : SameRecords s (s.complete P q d) := by
  have hsame : SameRecords s (scanned q d s) := sameRecords_of_slots_eq scanned_slots
  obtain h | h | ⟨k, old, new, h⟩ | ⟨c, -, h⟩ := complete_cases P q d s <;> rw [h]
  · exact hsame
  · exact hsame
  · exact fun j => have ⟨hid, hexpr⟩ := sameRecords_fire (s := scanned q d s) k old new j
      have ⟨hid', hexpr'⟩ := hsame j
      ⟨hid.trans hid', hexpr.trans hexpr'⟩
  · exact hsame

/-- Soundness speaks of the memory, the two lists, the ids and expressions, and the port. -/
theorem sound_of_same (hs : s.SoundFor P) (hmem : Memory.wf P t.mem = true) (hactive : t.active = s.active)
    (hfree : t.free = s.free) (hrecords : SameRecords s t) (hport : t.unitReq = s.unitReq) : t.SoundFor P where
  memory := hmem
  pool := by
    rw [State.PoolPartition, hactive, hfree]
    exact hs.pool
  ids k := (hrecords k).1.trans (hs.ids k)
  exprs k := by
    rw [(hrecords k).2]
    exact hs.exprs k
  tokenize k hk := by
    rw [(hrecords k).2]
    exact hs.tokenize k (hactive ▸ hk)
  port := hport.trans hs.port

theorem tokenize_fits {text : List Byte} {ts : List Token} (h : tokenize P text = .ok ts) :
    overLimit text.length P.exprMaxLen = false := by
  cases hlimit : overLimit text.length P.exprMaxLen with
  | false => rfl
  | true => cases (if_pos hlimit : tokenize P text = .error .eLimit).symm.trans h

/-- A creation moves a slot from one list to the other and gives it an expression that tokenizes. -/
theorem sound_created {text : List Byte} {k : Fin 32} {rest : List (Fin 32)} {v : Word} (r : Response)
    (hs : s.SoundFor P) (hfree : s.free = k :: rest) (heval : evaluate P s text = .ok v) :
    (({ s with free := rest, active := k :: s.active }.fillSlot k text v).respond r).SoundFor P := by
  obtain ⟨u, us, htok, -⟩ := evaluate_ok heval
  have hpool : (s.active ++ k :: rest).Perm (List.finRange 32) := hfree ▸ hs.pool
  have hslot : ∀ j : Fin 32,
      ((({ s with free := rest, active := k :: s.active }.fillSlot k text v).respond r).slots)[j] =
        if j = k then ⟨(s.slots[k]).id, text, v⟩ else s.slots[j] := fun j =>
    getElem_set_slot s.slots k j _
  refine ⟨hs.memory, List.perm_middle.symm.trans hpool, fun j => ?ids, fun j => ?exprs, fun j hj => ?tokenize, hs.port⟩
  all_goals
    rw [hslot]
    split
  case ids.isTrue hjk => exact hjk ▸ hs.ids k
  case ids.isFalse => exact hs.ids j
  case exprs.isTrue => exact tokenize_fits htok
  case exprs.isFalse => exact hs.exprs j
  case tokenize.isTrue => exact ⟨_, htok⟩
  case tokenize.isFalse hjk => exact hs.tokenize j ((List.mem_cons.1 hj).resolve_left hjk)

/-- A deletion moves a slot back, and no other one. -/
theorem sound_deleted {k : Fin 32} (r : Response) (hs : s.SoundFor P) (hk : k ∈ s.active) :
    (State.respond r { s with active := s.active.filter (fun j => j != k), free := k :: s.free }).SoundFor P := by
  have hnodup : s.active.Nodup := (hs.pool.nodup_iff.2 (List.nodup_finRange 32)).of_append_left
  have hmoved : (k :: s.active.filter (fun j => j != k)).Perm s.active := by
    rw [← hnodup.erase_eq_filter]
    exact (List.perm_cons_erase hk).symm
  exact
    { memory := hs.memory
      pool := List.perm_middle.trans ((hmoved.append_right s.free).trans hs.pool)
      ids := hs.ids
      exprs := hs.exprs
      tokenize := fun j hj => hs.tokenize j (List.mem_of_mem_filter hj)
      port := hs.port }

theorem sound_resetOf (P : Params) : (State.resetOf P).SoundFor P where
  memory := rfl
  pool := List.Perm.refl _
  ids k := by simp [State.resetOf, resetSlots, slotWord]
  exprs k := by
    have hexpr : ((State.resetOf P).slots[k]).expr = [] := by simp [State.resetOf, resetSlots]
    rw [hexpr]
    cases P.exprMaxLen <;> rfl
  tokenize k hk := by cases hk
  port := rfl

theorem sound_complete (q : Option HaltReq) {d : Done} (hs : s.SoundFor P) (hd : Memory.wf P d.mem = true) :
    (s.complete P q d).SoundFor P :=
  sound_of_same hs (by rwa [complete_mem]) complete_active complete_free (sameRecords_complete q d) complete_unitReq

/-- Whatever a well-formed instruction does keeps the state sound. -/
theorem sound_of_effect (h : Effect i s t) (hs : s.Sound) (hi : i.wf = true) : t.Sound := by
  have hsame : ∀ {u : State}, u.mem = s.mem → u.active = s.active → u.free = s.free → u.slots = s.slots →
      u.unitReq = s.unitReq → u.Sound := fun hmem hactive hfree hslots hport =>
    sound_of_same hs (hmem ▸ hs.memory) hactive hfree (sameRecords_of_slots_eq hslots) hport
  cases h with
  | delivered i s t h => cases h <;> exact hsame rfl rfl rfl rfl rfl
  | continued | stepped =>
    obtain h | h := runRequest_cases Config.machine _ s <;> rw [h] <;> exact hsame rfl rfl rfl rfl rfl
  | created text s k rest v hfree heval => exact sound_created _ hs hfree heval
  | deleted id s k hk => exact sound_deleted _ hs hk
  | deletedEmpty | latched | ignored | unwound => exact hsame rfl rfl rfl rfl rfl
  | wroteView => exact hsame (by simp) (by simp) (by simp) (by simp) (by simp)
  | restarted => exact sound_of_same (sound_resetOf Config.machine) rfl rfl rfl (sameRecords_of_slots_eq rfl) rfl
  | stored i s addr v w m _ h =>
    exact sound_of_same hs (hostWriteOp_wf hs.memory h) rfl rfl (sameRecords_of_slots_eq rfl) rfl
  | ordinary => exact sound_complete _ hs hi
  | trapped => exact sound_complete _ hs hi

theorem fetchInsn_wf (hm : Memory.wf Config.machine s.mem = true) (h : fetchInsn Config.machine s = .ok i) :
    i.wf = true := by
  obtain ⟨d, rfl, hd⟩ | ⟨q, d, rfl, hd⟩ | ⟨rfl, -⟩ := fetchInsn_ok h
  · exact runProg_wf hm hd
  · exact runProg_wf hm hd
  · rfl

/-- The next input taken and some other budget, `run`, latch, report or response leave a state as sound as it was. -/
theorem sound_takeQuiet (hs : s.Sound) (b : Budget) : State.Sound { s.takeQuiet with budget := b } :=
  sound_of_same hs hs.memory rfl rfl (sameRecords_of_slots_eq rfl) rfl

theorem sound_of_turn (hs : s.Sound) (h : (loopWork Config.machine s.takeQuiet).perform = .next t) (ht : t.Live) :
    t.Sound := by
  obtain ⟨-, hw⟩ | ⟨-, i, hf, hw⟩ | ⟨-, c, -, hw⟩ := loopWork_cases Config.machine s.takeQuiet <;> rw [hw] at h
  · cases h
    exact sound_of_same hs hs.memory rfl rfl (sameRecords_of_slots_eq rfl) rfl
  · have hsound := sound_takeQuiet hs s.budget.spend
    exact sound_of_effect (effect_of_exec h) hsound (fetchInsn_wf hsound.memory hf)
  · cases h
    cases ht

/-- Out of a dead block only reset leads to a live one. -/
theorem sound_of_dead {c : FatalCause} (hc : s.fatal = some c) (h : step s = .next t) (ht : t.Live) : t.Sound := by
  rw [step_of_dead hc] at h
  obtain ⟨r, rest, -, -, hw⟩ | ⟨rest, -, hw⟩ | hw := deadWork_cases s <;> rw [hw] at h
  · have hreset := exec_cmdReset { s with inputs := rest } (.inl (by simp [hc]))
    cases hreset.symm.trans h
    exact sound_of_same (sound_resetOf Config.machine) rfl rfl rfl (sameRecords_of_slots_eq rfl) rfl
  · cases h
    cases hc.symm.trans ht
  · cases h

theorem sound_of_live (hlive : s.Live) (hs : s.Sound) (h : step s = .next t) (ht : t.Live) : t.Sound := by
  have hinputs : ∀ rest, State.Sound { s with inputs := rest } := fun rest =>
    sound_of_same hs hs.memory rfl rfl (sameRecords_of_slots_eq rfl) rfl
  obtain hrun | hacc := inRun_or_accepts hlive
  · obtain ⟨rest, hstep⟩ | hstep := step_inRun_cases hrun hs.port <;> rw [hstep] at h
    · exact sound_of_effect (effect_of_exec h) (hinputs rest) rfl
    · exact sound_of_turn hs h ht
  · obtain ⟨r, rest, -, hstep⟩ | hstep := step_accepts_cases hacc hs.port <;> rw [hstep] at h
    · exact sound_of_effect (effect_of_exec h) (hinputs rest) (decodeCommand_wf r)
    · cases h
      exact sound_takeQuiet hs s.budget

end Sound

/-! ### Fatal causes -/

section Fatal

variable {s t : State} {i : Instr} {c : FatalCause}

/-- The causes a step can raise: an access out of bounds, and a deletion with no watchpoint active. -/
def Reachable (s : State) (c : FatalCause) : Prop :=
  (∃ a w b, c = .oobAccess a w b ∧ Config.machine.capacity < a.toNat + w.bytes) ∨ (c = .poolDeleteEmpty ∧ s.active = [])

theorem reachable_of_effect (h : Effect i s t) (hs : s.Live) (hc : t.fatal = some c) : Reachable s c := by
  have hkept : t.fatal = s.fatal → Reachable s c := fun he => by cases (he.trans hs).symm.trans hc
  cases h with
  | delivered i s t h =>
    cases h with
    | response r => exact hkept rfl
    | oob a w b hout =>
      cases hc
      exact .inl ⟨a, w, b, rfl, hout⟩
  | continued | stepped =>
    obtain h | h := runRequest_cases Config.machine _ s <;> rw [h] at hkept <;> exact hkept rfl
  | created | deleted | latched | ignored | stored | unwound => exact hkept rfl
  | deletedEmpty id s h =>
    cases hc
    exact .inr ⟨rfl, h⟩
  | wroteView => exact hkept (by simp)
  | restarted => cases hc
  | ordinary | trapped =>
    obtain ⟨a, rfl, hout⟩ := complete_fatal hs hc
    exact .inl ⟨a, .four, false, rfl, hout⟩

theorem fetchInsn_eq_error {P : Params} (h : fetchInsn P s = .error c) :
    ∃ a w b, c = .oobAccess a w b ∧ P.capacity < a.toNat + w.bytes := by
  rw [fetchInsn_eq_insnOf, insnOf_eq_error_iff] at h
  exact runProg_eq_fatal h

theorem reachable_of_turn (hs : s.Live) (h : (loopWork Config.machine s.takeQuiet).perform = .next t)
    (hc : t.fatal = some c) : Reachable s c := by
  obtain ⟨-, hw⟩ | ⟨-, i, -, hw⟩ | ⟨-, e, hf, hw⟩ := loopWork_cases Config.machine s.takeQuiet <;> rw [hw] at h
  · cases h
    cases hs.symm.trans hc
  · exact reachable_of_effect (s := { s.takeQuiet with budget := s.budget.spend }) (effect_of_exec h) hs hc
  · cases h
    cases hc
    exact .inl (fetchInsn_eq_error hf)

theorem reachable_of_unitWork {u : UnitRequest} (hs : s.Live) (h : (unitWork s u).perform = .next t)
    (hc : t.fatal = some c) : Reachable s c := by
  unfold unitWork at h
  split at h
  case h_1 => exact reachable_of_effect (s := { s with unitReq := none }) (effect_of_exec h) hs hc
  case h_2 =>
    cases h
    cases hs.symm.trans hc
  case h_3 => cases h

end Fatal

/-! ### What a host operation writes -/

section Frame

variable {s t : State} {i : Instr} {op : Byte}

/-- The code of a host operation (30_encoding.md R83). -/
def commandOp : Instr → Option Byte
  | .cmdContinue => some 0x01
  | .cmdStep _ => some 0x02
  | .cmdPrint _ => some 0x03
  | .cmdExamine _ _ => some 0x04
  | .cmdWatch _ => some 0x05
  | .cmdDelete _ => some 0x06
  | .cmdInfoRegisters => some 0x07
  | .cmdInfoWatchpoints => some 0x08
  | .cmdQuit => some 0x09
  | .cmdRegRead _ => some 0x0A
  | .cmdRegWrite _ _ => some 0x0B
  | .cmdMemRead _ _ => some 0x0C
  | .cmdStopReq => some 0x0D
  | .cmdReset => some 0x0E
  | .cmdReserved op => some op
  | _ => none

theorem commandOp_decodeCommand (r : CmdRecord) : commandOp (decodeCommand r) = some r.op := by
  rcases decodeCommand_cases r with ⟨hop, h⟩ | ⟨hop, h⟩ | ⟨hop, h⟩ | ⟨hop, h⟩ | ⟨hop, h⟩ | ⟨hop, h⟩ | ⟨hop, h⟩ |
    ⟨hop, h⟩ | ⟨hop, h⟩ | ⟨hop, h⟩ | ⟨hop, h⟩ | ⟨hop, h⟩ | ⟨hop, h⟩ | ⟨hop, h⟩ | ⟨-, h⟩ <;> rw [h]
  on_goal 15 => rfl
  all_goals
    rw [hop]
    rfl

/-- What the host operation of a code leaves as it was (45_host_commands.md R244). -/
structure HostFrame (op : Byte) (s t : State) : Prop where
  mem : t.mem = s.mem
  inputs : t.inputs = s.inputs
  registers : op ≠ 0x0B → t.regs = s.regs ∧ t.pc = s.pc ∧ t.fl = s.fl
  loop : op ≠ 0x01 → op ≠ 0x02 →
    t.run = s.run ∧ t.budget = s.budget ∧ t.stopPending = s.stopPending ∧ t.report = s.report
  records : op ≠ 0x05 → t.slots = s.slots
  lists : op ≠ 0x05 → op ≠ 0x06 → t.active = s.active ∧ t.free = s.free

theorem hostFrame_respond (op : Byte) (r : Response) : HostFrame op s (s.respond r) :=
  ⟨rfl, rfl, fun _ => ⟨rfl, rfl, rfl⟩, fun _ _ => ⟨rfl, rfl, rfl, rfl⟩, fun _ => rfl, fun _ _ => ⟨rfl, rfl⟩⟩

theorem hostFrame_raiseFatal (op : Byte) (c : FatalCause) : HostFrame op s (s.raiseFatal c) :=
  ⟨rfl, rfl, fun _ => ⟨rfl, rfl, rfl⟩, fun _ _ => ⟨rfl, rfl, rfl, rfl⟩, fun _ => rfl, fun _ _ => ⟨rfl, rfl⟩⟩

theorem hostFrame_refl (op : Byte) (s : State) : HostFrame op s s :=
  ⟨rfl, rfl, fun _ => ⟨rfl, rfl, rfl⟩, fun _ _ => ⟨rfl, rfl, rfl, rfl⟩, fun _ => rfl, fun _ _ => ⟨rfl, rfl⟩⟩

theorem hostFrame_runRequest (n : Word) (hop : op = 0x01 ∨ op = 0x02) :
    HostFrame op s (s.runRequest Config.machine n) := by
  have hloop : op ≠ 0x01 → op ≠ 0x02 → False := fun h1 h2 => hop.elim h1 h2
  obtain h | h := runRequest_cases Config.machine n s <;> rw [h] <;>
    exact ⟨rfl, rfl, fun _ => ⟨rfl, rfl, rfl⟩, fun h1 h2 => (hloop h1 h2).elim, fun _ => rfl, fun _ _ => ⟨rfl, rfl⟩⟩

theorem hostFrame_of_effect (h : Effect i s t) (hs : s.Accepts) (hop : commandOp i = some op) (hreset : op ≠ 0x0E) :
    HostFrame op s t := by
  cases h with
  | delivered i s t h =>
    cases h with
    | response r => exact hostFrame_respond op r
    | oob => exact hostFrame_raiseFatal op _
  | continued =>
    cases hop
    exact hostFrame_runRequest _ (.inl rfl)
  | stepped =>
    cases hop
    exact hostFrame_runRequest _ (.inr rfl)
  | created =>
    cases hop
    exact ⟨rfl, rfl, fun _ => ⟨rfl, rfl, rfl⟩, fun _ _ => ⟨rfl, rfl, rfl, rfl⟩, fun h => absurd rfl h,
      fun h => absurd rfl h⟩
  | deleted =>
    cases hop
    exact ⟨rfl, rfl, fun _ => ⟨rfl, rfl, rfl⟩, fun _ _ => ⟨rfl, rfl, rfl, rfl⟩, fun _ => rfl, fun _ h => absurd rfl h⟩
  | deletedEmpty => exact hostFrame_raiseFatal op _
  | wroteView =>
    cases hop
    refine ⟨?_, ?_, fun h => absurd rfl h, fun _ _ => ⟨?_, ?_, ?_, ?_⟩, fun _ => ?_, fun _ _ => ⟨?_, ?_⟩⟩ <;> simp
  | latched _ hrun => exact absurd hrun hs.2
  | ignored => exact hostFrame_refl op s
  | restarted =>
    cases hop
    exact absurd rfl hreset
  | stored i s addr v w m hi =>
    obtain rfl | rfl | rfl : i = .memWrite addr w v ∨ i = .linWrite addr w v ∨ i = .hostWrite addr w v := by simpa using hi
    all_goals cases hop
  | ordinary | trapped | unwound => cases hop

end Frame

/-! ### The budget -/

section Budget

variable {s t : State} {n : Word} {k : Nat}

/-- The host is silent from here on, and no request stands at a port. -/
def QuietHost (s : State) : Prop := s.PortQuiet ∧ s.inputs = []

theorem noStopRequest_of_quietHost (h : QuietHost s) : s.NoStopRequest := by
  rintro r rest hin
  cases h.2.symm.trans hin

/-- Where the host is silent the block stays in a run only by a turn of the run loop, which costs one of the budget. -/
theorem step_quietHost (hq : QuietHost s) (h : step s = .next t) :
    QuietHost t ∧ (t.InRun → s.InRun ∧ s.budget.isSpent = false ∧ t.budget = s.budget.spend) := by
  have ⟨hport, hin⟩ := hq
  cases hf : s.fatal with
  | some c =>
    rw [step_of_dead hf, deadWork, hin] at h
    cases h
  | none =>
    obtain hrun | hacc := inRun_or_accepts hf
    · rw [step_of_turn hrun hport (noStopRequest_of_quietHost hq), takeQuiet_of_nil hin] at h
      obtain ⟨-, hw⟩ | ⟨hb, i, hi, hw⟩ | ⟨-, c, -, hw⟩ := loopWork_cases Config.machine s <;> rw [hw] at h
      · cases h
        exact ⟨hq, fun ht => by cases ht.2⟩
      · rw [Work.perform] at h
        obtain ⟨d, rfl, -⟩ | ⟨q, d, rfl, -⟩ | ⟨rfl, -⟩ := fetchInsn_ok hi
        · obtain ⟨-, -, rfl⟩ := loopOp_next_iff.1 h
          exact ⟨⟨complete_unitReq.trans hport, complete_inputs.trans hin⟩, fun _ => ⟨hrun, hb, complete_budget⟩⟩
        · obtain ⟨-, -, rfl⟩ := loopOp_next_iff.1 h
          exact ⟨⟨complete_unitReq.trans hport, complete_inputs.trans hin⟩, fun _ => ⟨hrun, hb, complete_budget⟩⟩
        · obtain ⟨-, -, rfl⟩ := loopOp_next_iff.1 h
          exact ⟨hq, fun ht => by cases ht.2⟩
      · cases h
        exact ⟨hq, fun ht => by cases ht.1⟩
    · obtain ⟨r, rest, hcommand, -⟩ | hstep := step_accepts_cases hacc hport
      · cases hin.symm.trans hcommand
      · rw [hstep, takeQuiet_of_nil hin] at h
        cases h
        exact ⟨hq, fun ht => absurd ht.2 hacc.2⟩

/-- A run of a machine goes by its first step. -/
theorem core_run_succ {M : Host.Core} {s t : M.State} (h : M.run (k + 1) s = .next t) :
    ∃ u, M.step s = .next u ∧ M.run k u = .next t := by
  rw [Host.Core.run] at h
  split at h
  case h_1 u hu => exact ⟨u, hu, h⟩
  case h_2 => cases h
  case h_3 => cases h

/-- The budget counts the steps that have left the block in its run. -/
theorem budget_of_run (hq : QuietHost s) (h : Sys2Proof.core.run k s = .next t) (ht : t.InRun) :
    QuietHost t ∧ s.InRun ∧
      ∀ n, s.budget = .count n → k ≤ n.toNat ∧ t.budget = .count (n - BitVec.ofNat 32 k) := by
  induction k generalizing s with
  | zero =>
    cases h
    exact ⟨hq, ht, fun n hn => ⟨Nat.zero_le _, by rw [hn, BitVec.sub_zero]⟩⟩
  | succ k ih =>
    obtain ⟨u, hu, hrest⟩ := core_run_succ (M := Sys2Proof.core) h
    obtain ⟨hqu, hback⟩ := step_quietHost hq hu
    obtain ⟨hqt, hurun, hcount⟩ := ih hqu hrest
    obtain ⟨hsrun, hspent, hbudget⟩ := hback hurun
    refine ⟨hqt, hsrun, fun n hn => ?_⟩
    rw [hn] at hbudget hspent
    obtain ⟨hle, hleft⟩ := hcount (n - 1) hbudget
    have hne : n ≠ 0 := by simpa [Budget.isSpent] using hspent
    have hpos : (n - 1).toNat = n.toNat - 1 := by bv_omega
    have hn0 : n.toNat ≠ 0 := fun h0 => hne (BitVec.eq_of_toNat_eq h0)
    refine ⟨by omega, ?_⟩
    rw [hleft, BitVec.sub_sub, BitVec.add_comm, BitVec.ofNat_add]
    rfl

end Budget

/-! ### The statements -/

/-- Settles O55: nothing is stored, nothing is active, and the free list holds every slot. -/
theorem resetIsSound : Obligations.ResetIsSound := sound_resetOf Config.machine

/-- Settles O56, from what an instruction can do and what a dead block can. -/
theorem everyStepKeepsTheStateSound : Obligations.EveryStepKeepsTheStateSound := by
  intro s t hs hstep ht
  cases hf : s.fatal with
  | none => exact sound_of_live hf (hs hf) hstep ht
  | some c => exact sound_of_dead hf hstep ht

/-- Settles O57, from what an instruction can do and what makes a fetch fatal. -/
theorem stepsRaiseOnlyTheReachableFatalCauses : Obligations.StepsRaiseOnlyTheReachableFatalCauses := by
  intro s t c hs hstep hc
  show Reachable s c
  cases hu : s.unitReq with
  | some u => exact reachable_of_unitWork hs (by rwa [step_of_unitReq hs hu] at hstep) hc
  | none =>
    obtain hrun | hacc := inRun_or_accepts hs
    · obtain ⟨rest, h⟩ | h := step_inRun_cases hrun hu <;> rw [h] at hstep
      · exact reachable_of_effect (s := { s with inputs := rest }) (effect_of_exec hstep) hs hc
      · exact reachable_of_turn hs hstep hc
    · obtain ⟨r, rest, -, h⟩ | h := step_accepts_cases hacc hu <;> rw [h] at hstep
      · exact reachable_of_effect (s := { s with inputs := rest }) (effect_of_exec hstep) hs hc
      · cases hstep
        cases hs.symm.trans hc

/-- Settles O59, from what the operation of each code can do. -/
theorem hostOperationsWriteOnlyTheirOwnState : Obligations.HostOperationsWriteOnlyTheirOwnState := by
  intro s t r rest hs hq hin hreset hstep _
  rw [step_of_accepts hs hq, hostWork_of_command hin] at hstep
  obtain ⟨hmem, hinputs, hregisters, hloop, hrecords, hlists⟩ :=
    hostFrame_of_effect (effect_of_exec hstep) hs (commandOp_decodeCommand r) hreset
  exact ⟨hmem, hinputs, hregisters, hloop, hrecords, hlists⟩

/-- Settles O58, by induction on the number of steps; the last one is O5's. -/
theorem budgetBoundsTheRun : Obligations.BudgetBoundsTheRun := by
  intro s t n k _ hq hin hn hrun ht
  obtain ⟨hqt, -, hcount⟩ := budget_of_run ⟨hq, hin⟩ hrun ht
  obtain ⟨hle, hleft⟩ := hcount n hn
  refine ⟨hle, hleft, ?_⟩
  rintro rfl
  rw [BitVec.ofNat_toNat, BitVec.setWidth_eq, BitVec.sub_self] at hleft
  obtain ⟨w, o, v, j, hend⟩ := spentBudgetEndsTheRun t ht hqt.1 (noStopRequest_of_quietHost hqt) hleft
  exact ⟨_, hend, rfl, rfl, rfl, rfl, rfl, rfl⟩

end Sys2Proof.Proofs
